-- ==== Sys2Proof/Word.lean ====
section
/-!
DEFINITION. The values the core computes with: words, bytes, bit strings, trees and error kinds
(spec 00_scope.md rules R13 to R18, 60_exceptions.md rule R300).
-/

namespace Sys2Proof

/-- A register of the core is 32 bits wide (R14); so is a frequency (R13). -/
abbrev Word := BitVec 32

/-- A byte of the buffer memory, and a symbol: a symbol is one byte (R13). -/
abbrev Byte := BitVec 8

/-- A bit string, first bit first; `true` is the bit 1 (R16). -/
abbrev Bits := List Bool

/-- One entry for each of the 256 symbols: the shape of FREQ and of CODE (R51, R52). -/
abbrev Table (α : Type) := Vector α 256

/-- A tree node: a leaf holds a symbol and its frequency, an internal node its frequency and exactly
two children (R15, R57).  The tag is the constructor, never a symbol value. -/
inductive Node where
  | leaf (sym : Byte) (freq : Word)
  | internal (freq : Word) (left right : Node)
deriving DecidableEq, Repr

/-- The content of ARENA: the null tree (`none`) or a node (R15, R53).  The indices at which nodes are
stored are not architectural (R54), so the abstract tree is all there is. -/
abbrev Arena := Option Node

/-- The thirteen error kinds a command can report (R300).  "No error" is the absence of one. -/
inductive CmdError where
  | emptyContent | emptyInput | truncatedHeader | inconsistentLength | truncatedPayload
  | malformedTree | illegalCommand | bounds | overlap | capacity | symbolNotInTable
  | invalidBit | invalidCode
deriving DecidableEq, Repr

end Sys2Proof
end

