-- ==== Sys2Proof/Config.lean ====
section
/-!
DEFINITION. What an implementation of the core fixes (the parameters of 00_scope.md section 3 and
92_eei_decisions.md) and the free values: what the spec leaves open and a model draws freely.
-/

namespace Sys2Proof.Config

/-- The named parameters of 92_eei_decisions.md: `BUF_SIZE` (R10), `BUF_OFFSET` (R11), `NODE_CAP` (R12) and
`RESET_ACTIVE_LEVEL` (D38).  A model takes them as an argument: State carries them, no step changes
them, and every statement holds for all of them. -/
structure Params where
  bufSize : Nat
  bufOffset : Nat
  nodeCap : Nat
  resetActiveLevel : Bool
deriving DecidableEq, Repr

/-- The parameters of the state after reset: those the spec's own programs assume (95_test_vectors.md
section 4: BUF_SIZE = 0x400, BUF_OFFSET = 0x1000, NODE_CAP = 511).  DESIGN CHOICE, log entry 1; no
statement rests on these values. -/
def resetParams : Params :=
  { bufSize := 0x400, bufOffset := 0x1000, nodeCap := 511, resetActiveLevel := true }

/-! Free values.  Each takes the number of the draw first (the counter `draws` of State), so that no two
draws share a value.  None has a body: nothing can be proved of the value drawn. -/

/-- A byte of the buffer left unspecified: at reset (R58, R340), in the destination range after an error
(R303) or after a corrupted completion (R304).  The second argument is the byte's address. -/
opaque freeByte : Nat → Nat → Byte

/-- The data of a register read the spec leaves unspecified (R60, R75, R340). -/
opaque freeRead : Nat → Word

/-- One byte lane of a buffer read the spec leaves unspecified (R50, R80, R340); the second argument is
the lane. -/
opaque freeLane : Nat → Nat → Byte

/-- ERRCODE after a corrupted completion: some value of the table of R300 (R304). -/
opaque freeError : Nat → Option CmdError

/-- FREQ[s] after a corrupted completion of a command that writes FREQ (R304). -/
opaque freeFreq : Nat → Byte → Word

/-- CODE[s] after a corrupted completion of a command that writes CODE (R304), before the bound on its
length is enforced. -/
opaque freeCode : Nat → Byte → Option Bits

/-- ARENA after a corrupted completion of a command that writes ARENA (R304), before the bound on its
node count is enforced. -/
opaque freeArena : Nat → Arena

/-- BITLEN after a corrupted completion of a command that writes BITLEN (R304). -/
opaque freeBitlen : Nat → Word

/-- RESULT_LEN after a corrupted completion (R304). -/
opaque freeResultLen : Nat → Word

end Sys2Proof.Config
end

