-- ==== Sys2Proof/Syntax.lean ====
section
/-!
DEFINITION. The command set: one constructor per row of spec/opcode_table.json (30_encoding.md rule R104).
-/

namespace Sys2Proof

/-- A command.  Its one field is the VERBOSE flag V, bit 8 of the command word (R100, R102).  A command
word holds no other operand (R101). -/
inductive Instr where
  | nop (v : Bool)
  | fcount (v : Bool)
  | tbuild (v : Bool)
  | cgen (v : Bool)
  | tser (v : Bool)
  | tdes (v : Bool)
  | benc (v : Bool)
  | bdec (v : Bool)
  | bpack (v : Bool)
  | bunpack (v : Bool)
  | cenc (v : Bool)
  | cdec (v : Bool)
deriving DecidableEq, Repr

end Sys2Proof
end

