-- ==== Sys2Proof/Machine/State.lean ====
section
/-!
DEFINITION. The machine's state, every piece the spec gives it, as plain data (10_state.md); the host's
accesses and the other inputs of the core (20_memory.md R70, R89); the stops; and the state after reset.
-/

namespace Sys2Proof.Machine

/-- Widths of a host access: 1, 2 or 4 bytes (R70). -/
inductive Width where
  | byte | half | word
deriving DecidableEq, Repr

/-- What a host read returned, exactly as wide as the access. -/
inductive ReadData where
  | byte (v : BitVec 8)
  | half (v : BitVec 16)
  | word (v : BitVec 32)
deriving DecidableEq, Repr

/-- One atomic host transaction at an offset of the core's host window (R70, R71, R77).  A write of
fewer than four bytes carries its data in the low bits (R76). -/
inductive HostAccess where
  | read (width : Width) (offset : Nat)
  | write (width : Width) (offset : Nat) (data : Word)
deriving DecidableEq, Repr

/-- What can happen to the core, in the order it happens: a host access, the completion of the running
command, or the level of the reset input (R70, R81, R307, R340, R361). -/
inductive Event where
  | host (access : HostAccess)
  | engine
  | resetInput (level : Bool)
deriving DecidableEq, Repr

/-- The registers and windows of the register space (the map of 10_state.md section 2). -/
inductive Reg where
  | id | version | param0 | param1 | ctrl | cmd | status | errcode
  | srcAddr | srcLen | dstAddr | dstCap | bitlen | resultLen | nodeCount | leafCount
  | freqWin (s : Byte) | codelenWin (s : Byte) | reserved
deriving DecidableEq, Repr

/-- The pending-command record `P`, latched at issue (R45).  It exists only while STATUS.BUSY = 1. -/
structure Pending where
  /-- The command word. -/
  word : Word
  srcAddr : Word
  srcLen : Word
  dstAddr : Word
  dstCap : Word
  bitlen : Word
  /-- The host wrote a byte of the latched ranges while the command runs (R80). -/
  corrupt : Bool
deriving DecidableEq, Repr

/-- The buffer memory: the bytes that have been written, as (buffer offset, byte) in ONE canonical form,
offsets strictly rising.  An offset that is not listed holds the free byte drawn for it at the last
reset (R58; `State.readByte`); it has no fixed value that a listed byte could equal (log entry 3). -/
abbrev Memory := List Host.Cell

/-- A stop of the machine with a fault. -/
inductive Fault where
  /-- Raised by a host access none of whose bytes lies in the core's window, at or beyond
  BUF_OFFSET + BUF_SIZE: it "does not address the core; what it does is the platform's" (R50), and "a
  model of the core excludes them" (U20).  Safe: the model stops where the platform may go on. -/
  | outsideWindow
deriving DecidableEq, Repr

/-- A refusal. -/
inductive Refusal where
  /-- Raised only by an arm of `exec` whose instruction has no meaning yet.  No arm does.  Safe. -/
  | notModelled (mnemonic : String)
deriving DecidableEq, Repr

/-- The state of the core.  STATUS.BUSY is `pending.isSome` (R45); STATUS.ERR, IRQ, NODE_COUNT, LEAF_COUNT
and the windows are computed from what is here (R37, R46 to R49, R56); ID and VERSION are constants
(R31, R32).  The last four fields are the model's own. -/
structure State where
  /-- The parameters; PARAM0 and PARAM1 read them (R33, R34). -/
  params : Config.Params
  /-- CTRL.IE, the completion-interrupt enable (R35). -/
  ie : Bool
  /-- STATUS.DONE (R37). -/
  done : Bool
  /-- ERRCODE: `none` is 0x00 (R38, R300). -/
  errcode : Option CmdError
  /-- SRC_ADDR (R39). -/
  srcAddr : Word
  /-- SRC_LEN (R40). -/
  srcLen : Word
  /-- DST_ADDR (R41). -/
  dstAddr : Word
  /-- DST_CAP (R42). -/
  dstCap : Word
  /-- BITLEN (R43). -/
  bitlen : Word
  /-- RESULT_LEN (R44). -/
  resultLen : Word
  /-- FREQ (R51). -/
  freq : Table Word
  /-- CODE: `none` is `invalid` (R52). -/
  code : Table (Option Bits)
  /-- ARENA (R53). -/
  arena : Arena
  /-- The running command's record, `none` when the core is idle (R45). -/
  pending : Option Pending
  /-- The buffer memory Buf (R71). -/
  mem : Memory
  /-- The reset input is asserted (R340). -/
  inReset : Bool
  /-- Model's own: the draw that gave the unlisted bytes of the buffer their values. -/
  memDraw : Nat
  /-- Model's own: the number of the next free draw. -/
  draws : Nat
  /-- Model's own: what the last host read returned. -/
  readData : Option ReadData
  /-- Model's own: what happens next, in order (host accesses, completions, the reset input). -/
  inputs : List Event
deriving DecidableEq, Repr

/-- The state after reset of an implementation with parameters `p` (R58, R341): every register at the
value the rule's table gives, the buffer unlisted, so that each of its bytes is a free draw. -/
def State.resetWith (p : Config.Params) : State :=
  { params := p
    ie := false
    done := false
    errcode := none
    srcAddr := 0
    srcLen := 0
    dstAddr := 0
    dstCap := 0
    bitlen := 0
    resultLen := 0
    freq := Vector.replicate 256 0
    code := Vector.replicate 256 none
    arena := none
    pending := none
    mem := []
    inReset := false
    memDraw := 0
    draws := 1
    readData := none
    inputs := [] }

/-- The machine right after reset, with the parameters of `Config.resetParams` (log entry 1). -/
def State.reset : State := State.resetWith Config.resetParams

end Sys2Proof.Machine
end

