-- ==== Sys2Proof/Machine/Flags.lean ====
section
/-!
DEFINITION. The status bits, the error codes and the interrupt output (10_state.md R35 to R38, R56;
60_exceptions.md R300, R310).
-/

namespace Sys2Proof.Machine

/-- The code of an error kind in ERRCODE (R300). -/
def errorCode : CmdError → Byte
  | .emptyContent => 0x01
  | .emptyInput => 0x02
  | .truncatedHeader => 0x03
  | .inconsistentLength => 0x04
  | .truncatedPayload => 0x05
  | .malformedTree => 0x06
  | .illegalCommand => 0x10
  | .bounds => 0x11
  | .overlap => 0x12
  | .capacity => 0x13
  | .symbolNotInTable => 0x14
  | .invalidBit => 0x15
  | .invalidCode => 0x16

/-- STATUS.BUSY: 1 from the issue of a command to its completion, that is while its record exists
(R37, R45). -/
def State.busy (s : State) : Bool := s.pending.isSome

/-- STATUS.ERR equals `ERRCODE != 0` at every moment (R37). -/
def State.err (s : State) : Bool := s.errcode.isSome

/-- The interrupt output: `IRQ = CTRL.IE AND STATUS.DONE` (R56, R310). -/
def State.irq (s : State) : Bool := s.ie && s.done

/-- STATUS as the host reads it: BUSY in bit 0, DONE in bit 1, ERR in bit 2, the rest 0 (R37). -/
def State.statusWord (s : State) : Word :=
  BitVec.ofNat 32 (s.busy.toNat + 2 * s.done.toNat + 4 * s.err.toNat)

/-- ERRCODE as the host reads it: the code in bits [7:0], the rest 0 (R38). -/
def State.errcodeWord (s : State) : Word :=
  match s.errcode with
  | none => 0
  | some e => (errorCode e).zeroExtend 32

/-- CTRL as the host reads it: IE in bit 0, the rest 0 (R35). -/
def State.ctrlWord (s : State) : Word := BitVec.ofNat 32 s.ie.toNat

end Sys2Proof.Machine
end

