-- ==== Sys2Proof/Machine/Operands.lean ====
section
/-!
DEFINITION. The operands of a command: the latched record, the source and destination ranges, which
ranges and outputs each command has, and the common checks (30_encoding.md R101, R104; 10_state.md R45;
20_memory.md R86, R88; 60_exceptions.md R306).
-/

namespace Sys2Proof.Machine

/-- What an issue of the command word `w` latches now (R45, R103). -/
def State.latch (w : Word) (s : State) : Pending :=
  { word := w, srcAddr := s.srcAddr, srcLen := s.srcLen, dstAddr := s.dstAddr, dstCap := s.dstCap
    bitlen := s.bitlen, corrupt := false }

/-- The operands a command's pseudocode reads: the latched values (R20, R45).  In a state in which no
command runs they are what an issue would latch now (log entry 4); `step` reaches no meaning then. -/
def State.operands (s : State) : Pending := s.pending.getD (s.latch 0)

/-- A range of buffer offsets, its bounds as unbounded natural numbers (R18, R101). -/
structure Range where
  addr : Nat
  len : Nat
deriving DecidableEq, Repr

/-- The source range (R101). -/
def Pending.src (P : Pending) : Range := { addr := P.srcAddr.toNat, len := P.srcLen.toNat }

/-- The destination range (R101). -/
def Pending.dst (P : Pending) : Range := { addr := P.dstAddr.toNat, len := P.dstCap.toNat }

/-- The range lies in the buffer; the sum does not wrap (R88). -/
def Range.fits (r : Range) (size : Nat) : Bool := decide (r.addr + r.len ≤ size)

/-- Both ranges are non-empty and they share a byte (R86). -/
def Range.overlaps (src dst : Range) : Bool :=
  decide (0 < src.len) && decide (0 < dst.len)
    && decide (src.addr < dst.addr + dst.len) && decide (dst.addr < src.addr + src.len)

/-- The offset `a` is in the range. -/
def Range.contains (r : Range) (a : Nat) : Bool := decide (r.addr ≤ a) && decide (a < r.addr + r.len)

/-- The offset `a` is in one of the latched ranges (R80). -/
def Pending.touches (P : Pending) (a : Nat) : Bool := P.src.contains a || P.dst.contains a

/-- A row of the opcode map (R104): the ranges a command uses and the state it writes on success. -/
structure CommandRow where
  readsSrc : Bool
  writesDst : Bool
  writesFreq : Bool
  writesArena : Bool
  writesCode : Bool
  writesBitlen : Bool
  writesResultLen : Bool
deriving DecidableEq, Repr

/-- A command that uses no range and writes RESULT_LEN alone. -/
def CommandRow.base : CommandRow :=
  { readsSrc := false, writesDst := false, writesFreq := false, writesArena := false
    writesCode := false, writesBitlen := false, writesResultLen := true }

/-- An illegal command word has no row: it uses and writes nothing (R285). -/
def CommandRow.illegal : CommandRow := { CommandRow.base with writesResultLen := false }

/-- The opcode map (R104). -/
def rowOf : Instr → CommandRow
  | .nop _ => CommandRow.base
  | .fcount _ => { CommandRow.base with readsSrc := true, writesFreq := true }
  | .tbuild _ => { CommandRow.base with writesArena := true, writesCode := true }
  | .cgen _ => { CommandRow.base with writesCode := true }
  | .tser _ => { CommandRow.base with writesDst := true }
  | .tdes _ => { CommandRow.base with readsSrc := true, writesArena := true, writesCode := true }
  | .benc _ => { CommandRow.base with readsSrc := true, writesDst := true, writesBitlen := true }
  | .bdec _ => { CommandRow.base with readsSrc := true, writesDst := true }
  | .bpack _ => { CommandRow.base with readsSrc := true, writesDst := true, writesBitlen := true }
  | .bunpack _ => { CommandRow.base with readsSrc := true, writesDst := true }
  | .cenc _ =>
    { CommandRow.base with
      readsSrc := true, writesDst := true, writesFreq := true, writesArena := true
      writesCode := true, writesBitlen := true }
  | .cdec _ =>
    { CommandRow.base with
      readsSrc := true, writesDst := true, writesArena := true, writesCode := true
      writesBitlen := true }

/-- The common checks that stand before a command's own pseudocode: source bounds, destination bounds,
overlap, in this order (R306; the illegal word is refused by the decoder before). -/
def commonChecks (row : CommandRow) (P : Pending) (size : Nat) : Except CmdError Unit :=
  if row.readsSrc && !P.src.fits size then .error .bounds
  else if row.writesDst && !P.dst.fits size then .error .bounds
  else if row.readsSrc && row.writesDst && P.src.overlaps P.dst then .error .overlap
  else .ok ()

end Sys2Proof.Machine
end

