-- ==== Sys2Proof/Machine/Ops.lean ====
section
/-!
DEFINITION. The named operations over tables, trees, byte strings and the buffer, and the shared
operations of a command's life: issue, the three completions and reset (20_memory.md, 30_encoding.md R103,
60_exceptions.md R302 to R304, 70_reset_and_hazards.md R340).
-/

namespace Sys2Proof

/-! ### Tables, trees and byte strings -/

/-- Entry of the symbol `s`. -/
def Table.get {α : Type} (t : Table α) (s : Byte) : α := t[s.toNat]'s.isLt

/-- The table with the entry of the symbol `s` replaced. -/
def Table.set {α : Type} (t : Table α) (s : Byte) (v : α) : Table α := Vector.set t s.toNat v s.isLt

/-- The 256 symbols in ascending order. -/
def symbols : List Byte := (List.range 256).map (BitVec.ofNat 8)

/-- The table whose entry of each symbol is given. -/
def Table.ofFun {α : Type} (f : Byte → α) : Table α :=
  { toArray := (symbols.map f).toArray, size_toArray := by simp [symbols] }

/-- The table that holds one value everywhere. -/
def Table.const {α : Type} (v : α) : Table α := Vector.replicate 256 v

/-- The frequency a node holds (R15). -/
def Node.freq : Node → Word
  | .leaf _ f => f
  | .internal f _ _ => f

/-- Leaves plus internal nodes (R46). -/
def Node.nodeCount : Node → Nat
  | .leaf _ _ => 1
  | .internal _ l r => 1 + l.nodeCount + r.nodeCount

/-- The number of leaves (R47). -/
def Node.leafCount : Node → Nat
  | .leaf _ _ => 1
  | .internal _ l r => l.leafCount + r.leafCount

/-- NODE_COUNT's value: 0 for the null tree (R46). -/
def Arena.nodeCount : Arena → Nat
  | none => 0
  | some t => t.nodeCount

/-- LEAF_COUNT's value: 0 for the null tree (R47). -/
def Arena.leafCount : Arena → Nat
  | none => 0
  | some t => t.leafCount

/-- `u32le(v)`: the four bytes of a word, least significant first (R17, R73). -/
def u32le (v : Word) : List Byte :=
  [v.extractLsb' 0 8, v.extractLsb' 8 8, v.extractLsb' 16 8, v.extractLsb' 24 8]

/-- Byte `i` of a byte string.  The callers stay inside the string. -/
def byteAt (bytes : List Byte) (i : Nat) : Byte := bytes.getD i 0

/-- `rd_u32le(bytes, a)` (R17), an unbounded natural number. -/
def rdU32le (bytes : List Byte) (a : Nat) : Nat :=
  (byteAt bytes a).toNat + 256 * (byteAt bytes (a + 1)).toNat
    + 65536 * (byteAt bytes (a + 2)).toNat + 16777216 * (byteAt bytes (a + 3)).toNat

/-- `bytes[a:b]` (R17). -/
def byteSlice (bytes : List Byte) (a b : Nat) : List Byte := (bytes.take b).drop a

/-- `ceil(n / 8)` (R18). -/
def ceilDiv8 (n : Nat) : Nat := (n + 7) / 8

namespace Machine

/-! ### The buffer memory -/

/-- The canonical form: offsets strictly rising and inside the buffer. -/
abbrev Memory.wf (size : Nat) (m : Memory) : Prop :=
  m.Pairwise (fun c d => c.1 < d.1) ∧ ∀ c ∈ m, c.1 < size

/-- The byte listed at an offset, if one is. -/
def Memory.lookup (m : Memory) (a : Nat) : Option Byte :=
  (m.find? fun c => c.1 == a).map Prod.snd

/-- Writing a byte string at consecutive offsets; the empty string writes nothing. -/
def Memory.writeBytes (m : Memory) (a : Nat) (bytes : List Byte) : Memory :=
  if bytes.isEmpty then m
  else
    m.filter (fun c => decide (c.1 < a))
      ++ (List.range' a bytes.length).zip bytes
      ++ m.filter (fun c => decide (a + bytes.length ≤ c.1))

/-- `Buf[a]`: the byte listed there, or the free byte drawn for it at the last reset (R58, R71). -/
def State.readByte (s : State) (a : Nat) : Byte :=
  (s.mem.lookup a).getD (Config.freeByte s.memDraw a)

/-- `MemRead(a, n)` (R19). -/
def State.memRead (s : State) (a n : Nat) : List Byte := (List.range' a n).map s.readByte

/-- `src`, the bytes of the latched source range (R20). -/
def State.sourceBytes (s : State) (P : Pending) : List Byte := s.memRead P.src.addr P.src.len

/-- The free bytes that draw `d` gives to the offsets of a range. -/
def freeBytes (d : Nat) (r : Range) : List Byte := (List.range' r.addr r.len).map (Config.freeByte d)

/-- The part of a range that lies in the buffer. -/
def Range.clip (r : Range) (size : Nat) : Range :=
  { addr := r.addr, len := min r.len (size - r.addr) }

/-- Each byte of the range becomes the free byte of draw `d` (R303, R304). -/
def Memory.scramble (m : Memory) (d : Nat) (r : Range) : Memory :=
  m.writeBytes r.addr (freeBytes d r)

/-! ### Issue -/

/-- Issue of the command word `w`: latch the operands, BUSY <- 1, DONE <- 0, ERRCODE <- 0x00 (R103). -/
def State.issue (w : Word) (s : State) : State :=
  { s with pending := some (s.latch w), done := false, errcode := none }

/-! ### Completion -/

/-- What a command's pseudocode writes when it reaches `complete`: the bytes of the destination and the
tables and registers it replaces.  RESULT_LEN is the number of bytes written (R44). -/
structure Effects where
  out : List Byte := []
  freq : Option (Table Word) := none
  arena : Option Arena := none
  code : Option (Table (Option Bits)) := none
  bitlen : Option Word := none
deriving DecidableEq, Repr

/-- Successful completion, in one atomic step: apply the writes, ERRCODE <- 0x00, BUSY <- 0, DONE <- 1,
discard the record (R302). -/
def State.completeOk (P : Pending) (fx : Effects) (s : State) : State :=
  { s with
    mem := s.mem.writeBytes P.dst.addr fx.out
    freq := fx.freq.getD s.freq
    arena := fx.arena.getD s.arena
    code := fx.code.getD s.code
    bitlen := fx.bitlen.getD s.bitlen
    resultLen := BitVec.ofNat 32 fx.out.length
    errcode := none
    done := true
    pending := none
    draws := s.draws + 1 }

/-- The errors after which no buffer byte changes (R303). -/
def keepsBuffer : CmdError → Bool
  | .illegalCommand | .bounds | .overlap => true
  | _ => false

/-- Error completion, the one operation through which every error is taken: ERRCODE <- code(E),
BUSY <- 0, DONE <- 1, discard the record; after an error of the command's own pseudocode each byte of the
destination range of a command that writes it is unspecified; all else keeps its value (R303).  There is
no return from it: the next issue sets ERRCODE to 0x00 (R309). -/
def State.completeError (row : CommandRow) (P : Pending) (e : CmdError) (s : State) : State :=
  { s with
    mem := if row.writesDst && !keepsBuffer e then s.mem.scramble s.draws P.dst else s.mem
    errcode := some e
    done := true
    pending := none
    draws := s.draws + 1 }

/-- The longest code an entry of CODE may hold (R14, R52). -/
def maxCodeLen (nodeCap : Nat) : Nat := (nodeCap - 1) / 2

/-- The entry as the type of a CODE entry allows it: invalid, or a bit string of length 1 to
`(NODE_CAP - 1) div 2` (R52). -/
def boundCode (nodeCap : Nat) : Option Bits → Option Bits
  | none => none
  | some c => if 1 ≤ c.length ∧ c.length ≤ maxCodeLen nodeCap then some c else none

/-- The tree as ARENA allows it: at most NODE_CAP nodes (R53, R304). -/
def boundArena (nodeCap : Nat) (t : Arena) : Arena := if t.nodeCount ≤ nodeCap then t else none

/-- Corrupted completion: ERRCODE some value of the table of R300, and every output the command's row
lists an unspecified value of its type; each byte of the destination range of a command that writes it
unspecified (R304).  A destination range that passes BUF_SIZE has only its part in the buffer. -/
def State.completeCorrupt (row : CommandRow) (P : Pending) (s : State) : State :=
  { s with
    mem := if row.writesDst then s.mem.scramble s.draws (P.dst.clip s.params.bufSize) else s.mem
    freq := if row.writesFreq then Table.ofFun (Config.freeFreq s.draws) else s.freq
    arena := if row.writesArena then boundArena s.params.nodeCap (Config.freeArena s.draws) else s.arena
    code :=
      if row.writesCode then
        Table.ofFun fun b => boundCode s.params.nodeCap (Config.freeCode s.draws b)
      else s.code
    bitlen := if row.writesBitlen then Config.freeBitlen s.draws else s.bitlen
    resultLen := if row.writesResultLen then Config.freeResultLen s.draws else s.resultLen
    errcode := Config.freeError s.draws
    done := true
    pending := none
    draws := s.draws + 1 }

/-- The output of a command fits DST_CAP, or CapacityError (the last check of every command that writes
the destination). -/
def fitOutput (P : Pending) (fx : Effects) : Except CmdError Effects :=
  if P.dstCap.toNat < fx.out.length then .error .capacity else .ok fx

/-- A command's own pseudocode: from the latched operands and the state to the first error it raises or
the writes of its success. -/
abbrev Body := Pending → State → Except CmdError Effects

/-- The common checks and then the command's own pseudocode: the first error decides (R305, R306). -/
def commandResult (row : CommandRow) (body : Body) (s : State) : Except CmdError Effects :=
  match commonChecks row s.operands s.params.bufSize with
  | .error e => .error e
  | .ok () => body s.operands s

/-- The completion of a command: corrupted (R304), in error (R303) or successful (R302). -/
def runCommand (row : CommandRow) (body : Body) (s : State) : Host.Outcome State Fault Refusal :=
  if s.operands.corrupt then .next (s.completeCorrupt row s.operands)
  else
    match commandResult row body s with
    | .error e => .next (s.completeError row s.operands e)
    | .ok fx => .next (s.completeOk s.operands fx)

/-! ### Reset -/

/-- The core takes its reset values, with the reset input asserted or not: every register as R58 says, a
running command abandoned, each byte of the buffer drawn anew (R340).  Parameters and inputs are not the
core's to change. -/
def State.takeReset (asserted : Bool) (s : State) : State :=
  { State.resetWith s.params with
    inReset := asserted
    memDraw := s.draws
    draws := s.draws + 1
    readData := s.readData
    inputs := s.inputs }

end Machine

end Sys2Proof
end

