-- ==== Sys2Proof/Machine/BitCodec.lean ====
section
/-!
DEFINITION. The BitPacker and BitUnpacker (BPACK, BUNPACK), encoding through the code table (BENC) and
the decode walk (BDEC): 42_bit_codec.md.
-/

namespace Sys2Proof.Machine

/-! ### Packing and unpacking -/

/-- One packed byte: bit `t` of the eight goes to bit `7 - t`; missing bits are 0 (R181). -/
def packByte (bits : Bits) : Byte :=
  BitVec.ofNat 8 ((List.range 8).foldl (fun acc t => 2 * acc + (bits.getD t false).toNat) 0)

/-- `pack(bits)`: `ceil(n / 8)` bytes, byte `j` holding bits `8j` to `8j + 7`, first bit in the most
significant place, zero-padded (R74, R181). -/
def pack (bits : Bits) : List Byte :=
  (List.range (ceilDiv8 bits.length)).map fun j => packByte (bits.drop (8 * j))

/-- The eight bits of a byte, most significant first (R74). -/
def byteBits (b : Byte) : Bits := (List.range 8).map fun t => b.getLsbD (7 - t)

/-- `unpack(buf, n)`: the first `n` bits; TruncatedPayloadError when the buffer holds fewer (R182). -/
def unpack (buf : List Byte) (n : Nat) : Except CmdError Bits :=
  if 8 * buf.length < n then .error .truncatedPayload
  else .ok ((buf.flatMap byteBits).take n)

/-- The byte of a bit in bit-per-byte form (R184). -/
def byteOfBit (b : Bool) : Byte := if b then 0x01 else 0x00

/-- The bits of a byte string in bit-per-byte form; InvalidBitError at a byte above 0x01 (R180, R184). -/
def bitsOfBytes (src : List Byte) : Except CmdError Bits :=
  if src.any (fun b => decide (0x01 < b.toNat)) then .error .invalidBit
  else .ok (src.map fun b => decide (b = 0x01))

/-- BPACK's pseudocode (R180). -/
def bpackBody : Body := fun P s => do
  let bits ← bitsOfBytes (s.sourceBytes P)
  fitOutput P { out := pack bits, bitlen := some P.srcLen }

/-- BPACK (R180). -/
def execBpack (v : Bool) (s : State) : Host.Outcome State Fault Refusal :=
  runCommand (rowOf (.bpack v)) bpackBody s

/-- BUNPACK's pseudocode (R185). -/
def bunpackBody : Body := fun P s => do
  let bits ← unpack (s.sourceBytes P) P.bitlen.toNat
  fitOutput P { out := bits.map byteOfBit }

/-- BUNPACK (R185). -/
def execBunpack (v : Bool) (s : State) : Host.Outcome State Fault Refusal :=
  runCommand (rowOf (.bunpack v)) bunpackBody s

/-! ### Encoding content into bits -/

/-- The codes of the source bytes, one after the other; SymbolNotInTableError at the first byte whose
entry is invalid (R191). -/
def codeBits (C : Table (Option Bits)) : List Byte → Except CmdError Bits
  | [] => .ok []
  | b :: bs =>
    match C.get b with
    | none => .error .symbolNotInTable
    | some c => do
      let rest ← codeBits C bs
      .ok (c ++ rest)

/-- `encode_bits(C, src)`: CapacityError when the bit count exceeds 2^32 - 1 (R191). -/
def encodeBits (C : Table (Option Bits)) (src : List Byte) : Except CmdError Bits := do
  let bits ← codeBits C src
  if 2 ^ 32 - 1 < bits.length then .error .capacity else .ok bits

/-- BENC's pseudocode (R190). -/
def bencBody : Body := fun P s => do
  let bits ← encodeBits s.code (s.sourceBytes P)
  fitOutput P { out := pack bits, bitlen := some (BitVec.ofNat 32 bits.length) }

/-- BENC (R190). -/
def execBenc (v : Bool) (s : State) : Host.Outcome State Fault Refusal :=
  runCommand (rowOf (.benc v)) bencBody s

/-! ### The decode walk -/

/-- One step down the tree: left on 0, right on 1 (R201).  The walk applies it to internal nodes only. -/
def childOf : Node → Bool → Node
  | .leaf s f, _ => .leaf s f
  | .internal _ l _, false => l
  | .internal _ _ r, true => r

/-- The walk of a tree with at least two leaves: `cur` is where it stands, `atRoot` whether it stands at
the root; a leaf emits its symbol and returns to the root; bits that end elsewhere than at the root are
TruncatedPayloadError (R201, R204). -/
def walkBits (root : Node) : Node → Bool → Bits → Except CmdError (List Byte)
  | _, atRoot, [] => if atRoot then .ok [] else .error .truncatedPayload
  | cur, _, b :: bs =>
    match childOf cur b with
    | .leaf s _ => do
      let out ← walkBits root root true bs
      .ok (s :: out)
    | .internal f l r => walkBits root (.internal f l r) false bs

/-- `decode` on the unpacked bits: the null tree (R203), a single leaf (R202), the walk (R201). -/
def decodeTree (T : Arena) (bits : Bits) : Except CmdError (List Byte) :=
  match T with
  | none => if 0 < bits.length then .error .malformedTree else .ok []
  | some (.leaf s _) =>
    if bits.any id then .error .invalidCode else .ok (List.replicate bits.length s)
  | some (.internal f l r) => walkBits (.internal f l r) (.internal f l r) true bits

/-- `decode(T, payload, n)` (R201): the unpack check comes first. -/
def decodePayload (T : Arena) (payload : List Byte) (n : Nat) : Except CmdError (List Byte) := do
  let bits ← unpack payload n
  decodeTree T bits

/-- BDEC's pseudocode (R200). -/
def bdecBody : Body := fun P s => do
  let out ← decodePayload s.arena (s.sourceBytes P) P.bitlen.toNat
  fitOutput P { out := out }

/-- BDEC (R200). -/
def execBdec (v : Bool) (s : State) : Host.Outcome State Fault Refusal :=
  runCommand (rowOf (.bdec v)) bdecBody s

end Sys2Proof.Machine
end

