-- ==== Sys2Proof/Machine/CodeTable.lean ====
section
/-!
DEFINITION. The CodeTableGenerator (CGEN): 41_code_table.md.
-/

namespace Sys2Proof.Machine

/-- `visit(n, p)`: the depth-first walk, left before right, appending 0 when it descends left and 1 when
it descends right; a later leaf of the same symbol overwrites (R161, R164). -/
def visitCodes : Node → Bits → Table (Option Bits) → Table (Option Bits)
  | .leaf s _, p, C => C.set s (some p)
  | .internal _ l r, p, C => visitCodes r (p ++ [true]) (visitCodes l (p ++ [false]) C)

/-- `codes(T)`: all invalid for the null tree (R163), the one-bit code 0 for a single leaf (R162), else the
path to each leaf (R161). -/
def codesOf : Arena → Table (Option Bits)
  | none => Table.const none
  | some (.leaf s _) => (Table.const none).set s (some [false])
  | some (.internal f l r) => visitCodes (.internal f l r) [] (Table.const none)

/-- CGEN's pseudocode: CODE <- codes(ARENA) (R160). -/
def cgenBody : Body := fun _ s => .ok { code := some (codesOf s.arena) }

/-- CGEN (R160). -/
def execCgen (v : Bool) (s : State) : Host.Outcome State Fault Refusal :=
  runCommand (rowOf (.cgen v)) cgenBody s

end Sys2Proof.Machine
end

