-- ==== Sys2Proof/Machine/FrequencyTree.lean ====
section
/-!
DEFINITION. The FrequencyCounter (FCOUNT) and the TreeBuilder (TBUILD): 40_frequency_tree.md.
-/

namespace Sys2Proof.Machine

/-- `count(src)`: how often each symbol stands in `src`; EmptyInputError when `src` is empty (R131). -/
def countSymbols (src : List Byte) : Except CmdError (Table Word) :=
  if src.length = 0 then .error .emptyInput
  else .ok (Table.ofFun fun s => BitVec.ofNat 32 (src.count s))

/-- FCOUNT's pseudocode (R130). -/
def fcountBody : Body := fun P s => do
  let F ← countSymbols (s.sourceBytes P)
  .ok { freq := some F }

/-- FCOUNT (R130). -/
def execFcount (v : Bool) (s : State) : Host.Outcome State Fault Refusal :=
  runCommand (rowOf (.fcount v)) fcountBody s

/-- An entry of the priority queue: a node and its creation sequence number.  Its key is (freq, seq)
(R141).  The queue is not architectural state (R55). -/
structure QEntry where
  seq : Nat
  node : Node
deriving DecidableEq, Repr

/-- The order of keys: frequency first, then sequence number (R141). -/
def QEntry.before (a b : QEntry) : Bool :=
  decide (a.node.freq.toNat < b.node.freq.toNat)
    || (decide (a.node.freq = b.node.freq) && decide (a.seq < b.seq))

/-- Insertion into a queue kept in ascending key order; the minimum is its head. -/
def queueInsert (e : QEntry) : List QEntry → List QEntry
  | [] => [e]
  | q :: qs => if e.before q then e :: q :: qs else q :: queueInsert e qs

/-- The symbols present in `F`, ascending (R143). -/
def presentSymbols (F : Table Word) : List Byte := symbols.filter fun s => decide (F.get s ≠ 0)

/-- One leaf per present symbol, with sequence numbers 0, 1, ... in ascending symbol order (R141, R143). -/
def leafEntries (F : Table Word) : List QEntry :=
  (presentSymbols F).zipIdx.map fun p => { seq := p.2, node := .leaf p.1 (F.get p.1) }

/-- The queue before the first merge. -/
def initialQueue (F : Table Word) : List QEntry :=
  (leafEntries F).foldl (fun q e => queueInsert e q) []

/-- The frequency of a merged node: the 32-bit sum of its children's (R142, R143).  R131 says the sum cannot
wrap; on a FREQ for which it would, it is taken modulo 2^32, as R237 requires of every tree TBUILD writes
(log entry 6). -/
def mergeFreq (x y : Node) : Word := x.freq + y.freq

/-- The node a merge creates: the first node removed is the left child, the second the right (R142). -/
def mergeNodes (x y : Node) : Node := .internal (mergeFreq x y) x y

/-- The merge loop of `build` (R143).  Each pass removes two entries and inserts one, so as many passes
as the queue has entries are enough; `none` is the empty queue. -/
def mergeLoop : Nat → Nat → List QEntry → Option Node
  | _, _, [] => none
  | _, _, [e] => some e.node
  | 0, _, _ :: _ :: _ => none
  | n + 1, seq, x :: y :: q =>
    mergeLoop n (seq + 1) (queueInsert { seq := seq, node := mergeNodes x.node y.node } q)

/-- `build(F)` (R143), a function of `F` alone (R147): EmptyInputError when every count is 0 (R145). -/
def buildTree (F : Table Word) : Except CmdError Node :=
  match mergeLoop (initialQueue F).length (initialQueue F).length (initialQueue F) with
  | none => .error .emptyInput
  | some t => .ok t

/-- TBUILD's pseudocode: ARENA <- build(FREQ), CODE all invalid (R140, R352). -/
def tbuildBody : Body := fun _ s => do
  let T ← buildTree s.freq
  .ok { arena := some (some T), code := some (Table.const none) }

/-- TBUILD (R140). -/
def execTbuild (v : Bool) (s : State) : Host.Outcome State Fault Refusal :=
  runCommand (rowOf (.tbuild v)) tbuildBody s

end Sys2Proof.Machine
end

