-- ==== Sys2Proof/Machine/TreeCodec.lean ====
section
/-!
DEFINITION. The TreeCodec (TSER, TDES): 43_tree_codec.md.
-/

namespace Sys2Proof.Machine

/-- `ser` of a node: pre-order, the tag byte 0x01 with symbol and frequency as u32 little-endian for a
leaf, the tag byte 0x00 and the two subtrees for an internal node (R221, R224).  An internal frequency is
not stored (R223). -/
def serNode : Node → List Byte
  | .leaf s f => [0x01] ++ u32le (s.zeroExtend 32) ++ u32le f
  | .internal _ l r => [0x00] ++ serNode l ++ serNode r

/-- `ser(T)`: the null tree is the empty byte string (R221). -/
def serTree : Arena → List Byte
  | none => []
  | some t => serNode t

/-- TSER's pseudocode (R220). -/
def tserBody : Body := fun P s => fitOutput P { out := serTree s.arena }

/-- TSER (R220). -/
def execTser (v : Bool) (s : State) : Host.Outcome State Fault Refusal :=
  runCommand (rowOf (.tser v)) tserBody s

/-- The leaf whose symbol and frequency fields the bytes after its tag hold: MalformedTreeError when they
end inside the leaf or the symbol field is above 0xFF (R231, R235). -/
def desLeaf (bytes : List Byte) : Except CmdError Node :=
  if bytes.length < 8 then .error .malformedTree
  else if 0xFF < rdU32le bytes 0 then .error .malformedTree
  else .ok (.leaf (BitVec.ofNat 8 (rdU32le bytes 0)) (BitVec.ofNat 32 (rdU32le bytes 4)))

/-- `node()` of `des`: from the node counter and the bytes that remain to a node, the counter and the bytes
after it (R231).  The first argument bounds the depth; each level consumes a byte, so the number of bytes is
enough.  Internal frequencies are sums modulo 2^32 (R232). -/
def desNode (cap : Nat) : Nat → Nat → List Byte → Except CmdError (Node × Nat × List Byte)
  | _, _, [] => .error .malformedTree
  | 0, _, _ :: _ => .error .malformedTree
  | fuel + 1, cnt, tag :: rest =>
    if 0x01 < tag.toNat then .error .malformedTree
    else if cnt = cap then .error .capacity
    else if tag = 0x01 then do
      let leaf ← desLeaf rest
      .ok (leaf, cnt + 1, rest.drop 8)
    else do
      let (l, cntL, restL) ← desNode cap fuel (cnt + 1) rest
      let (r, cntR, restR) ← desNode cap fuel cntL restL
      .ok (.internal (l.freq + r.freq) l r, cntR, restR)

/-- `des(buf)`: the empty buffer is the null tree; trailing bytes are MalformedTreeError (R231, R234). -/
def desTree (cap : Nat) (buf : List Byte) : Except CmdError Arena :=
  if buf.length = 0 then .ok none
  else do
    let (t, _, rest) ← desNode cap buf.length 0 buf
    if rest.length ≠ 0 then .error .malformedTree else .ok (some t)

/-- TDES's pseudocode: ARENA <- des(src), CODE all invalid (R230, R352). -/
def tdesBody : Body := fun P s => do
  let T ← desTree s.params.nodeCap (s.sourceBytes P)
  .ok { arena := some T, code := some (Table.const none) }

/-- TDES (R230). -/
def execTdes (v : Bool) (s : State) : Host.Outcome State Fault Refusal :=
  runCommand (rowOf (.tdes v)) tdesBody s

end Sys2Proof.Machine
end

