-- ==== Sys2Proof/Machine/Container.lean ====
section
/-!
DEFINITION. The container formatter (CENC, CDEC): 44_container.md.
-/

namespace Sys2Proof.Machine

/-- The container layout: treeLength, tree, bitLength, payload (R251). -/
def containerOf (treeBytes : List Byte) (bits : Bits) : List Byte :=
  u32le (BitVec.ofNat 32 treeBytes.length) ++ treeBytes
    ++ u32le (BitVec.ofNat 32 bits.length) ++ pack bits

/-- CENC's pseudocode: EmptyContentError for an empty source, else count, build, codes, ser, encode and
the container (R250). -/
def cencBody : Body := fun P s =>
  if P.srcLen.toNat = 0 then .error .emptyContent
  else do
    let F ← countSymbols (s.sourceBytes P)
    let T ← buildTree F
    let C := codesOf (some T)
    let bits ← encodeBits C (s.sourceBytes P)
    fitOutput P
      { out := containerOf (serNode T) bits
        freq := some F
        arena := some (some T)
        code := some C
        bitlen := some (BitVec.ofNat 32 bits.length) }

/-- CENC (R250). -/
def execCenc (v : Bool) (s : State) : Host.Outcome State Fault Refusal :=
  runCommand (rowOf (.cenc v)) cencBody s

/-- The parse and decode of a container: the tree, the bit length and the content (R260).  The header
errors come first (R261), then those of `des`, then those of `decode`. -/
def readContainer (cap : Nat) (src : List Byte) : Except CmdError (Arena × Nat × List Byte) :=
  if src.length < 8 then .error .truncatedHeader
  else if src.length < rdU32le src 0 + 8 then .error .inconsistentLength
  else do
    let len := rdU32le src 0
    let T ← desTree cap (byteSlice src 4 (4 + len))
    let B := rdU32le src (4 + len)
    let out ← decodePayload T (byteSlice src (8 + len) src.length) B
    .ok (T, B, out)

/-- CDEC's pseudocode (R260). -/
def cdecBody : Body := fun P s => do
  let (T, B, out) ← readContainer s.params.nodeCap (s.sourceBytes P)
  fitOutput P
    { out := out
      arena := some T
      code := some (Table.const none)
      bitlen := some (BitVec.ofNat 32 B) }

/-- CDEC (R260). -/
def execCdec (v : Bool) (s : State) : Host.Outcome State Fault Refusal :=
  runCommand (rowOf (.cdec v)) cdecBody s

end Sys2Proof.Machine
end

