-- ==== Sys2Proof/Machine/Control.lean ====
section
/-!
DEFINITION. The control command NOP and the illegal command word (45_control.md).
-/

namespace Sys2Proof.Machine

/-- NOP writes RESULT_LEN <- 0 and completes (R280). -/
def nopBody : Body := fun _ _ => .ok {}

/-- NOP (R280). -/
def execNop (v : Bool) (s : State) : Host.Outcome State Fault Refusal :=
  runCommand (rowOf (.nop v)) nopBody s

/-- An illegal command word runs no command: `raise IllegalCommandError` (R285). -/
def illegalBody : Body := fun _ _ => .error .illegalCommand

/-- The completion of an illegal command word: an error completion with IllegalCommandError, in which
nothing else changes (R285, R105); corrupted as any other command (R304). -/
def execIllegal (s : State) : Host.Outcome State Fault Refusal :=
  runCommand CommandRow.illegal illegalBody s

end Sys2Proof.Machine
end

