-- ==== Sys2Proof/Machine/Dispatch.lean ====
section
/-!
DEFINITION. The dispatch: one arm per command, each a direct call of its meaning.
-/

namespace Sys2Proof.Machine

def exec (i : Instr) (s : State) : Host.Outcome State Fault Refusal :=
  match i with
  | .nop v => Sys2Proof.Machine.execNop v s
  | .fcount v => Sys2Proof.Machine.execFcount v s
  | .tbuild v => Sys2Proof.Machine.execTbuild v s
  | .cgen v => Sys2Proof.Machine.execCgen v s
  | .tser v => Sys2Proof.Machine.execTser v s
  | .tdes v => Sys2Proof.Machine.execTdes v s
  | .benc v => Sys2Proof.Machine.execBenc v s
  | .bdec v => Sys2Proof.Machine.execBdec v s
  | .bpack v => Sys2Proof.Machine.execBpack v s
  | .bunpack v => Sys2Proof.Machine.execBunpack v s
  | .cenc v => Sys2Proof.Machine.execCenc v s
  | .cdec v => Sys2Proof.Machine.execCdec v s

end Sys2Proof.Machine
end

