-- ==== Sys2Proof/WellFormed.lean ====
section
/-!
DEFINITION. Well-formedness: of a command, of the parameters of an implementation (00_scope.md rules R10
to R12), and of a tree as ARENA may hold it (10_state.md rules R53, R59).
-/

namespace Sys2Proof

/-- Every command is well formed: its one field V is accepted on every opcode (R102) and there is no
other field (R101).  The reserved encodings are no `Instr` at all; the decoder refuses them. -/
def Instr.wellFormed : Instr → Bool
  | .nop _ | .fcount _ | .tbuild _ | .cgen _ | .tser _ | .tdes _
  | .benc _ | .bdec _ | .bpack _ | .bunpack _ | .cenc _ | .cdec _ => true

/-- The bounds on the parameters: 1 <= BUF_SIZE <= 2^32 - 1 (R10), BUF_OFFSET a multiple of 0x1000 and at
least 0x1000 (R11), NODE_CAP at least 511 (R12).  That NODE_CAP is below 2^32 is DEDUCED: the 32-bit
register PARAM0 reads it (R33), log entry 2. -/
def Config.Params.wellFormed (p : Config.Params) : Bool :=
  decide (1 ≤ p.bufSize) && decide (p.bufSize < 2 ^ 32)
    && decide (0x1000 ≤ p.bufOffset) && decide (p.bufOffset % 0x1000 = 0)
    && decide (511 ≤ p.nodeCap) && decide (p.nodeCap < 2 ^ 32)

end Sys2Proof
end

