-- ==== Sys2Proof/Decode.lean ====
section
/-!
DEFINITION. The decoder and the encoder of command words (30_encoding.md rules R100 to R107).
-/

namespace Sys2Proof

/-- Why a command word or a byte string is no command. -/
inductive DecodeError where
  /-- `w[31:9] != 0` (R105): the word completes with IllegalCommandError. -/
  | reservedBits
  /-- `w[7:0]` in 0x0C to 0xFF (R105): the word completes with IllegalCommandError. -/
  | reservedOpcode
  /-- Fewer than the four bytes of a command word (R107). -/
  | truncated
deriving DecidableEq, Repr

/-- Field OPC, bits 7:0 (R100). -/
def opcField (w : Word) : Byte := w.extractLsb' 0 8

/-- Field V, bit 8 (R100, R102). -/
def verboseField (w : Word) : Bool := w.getLsbD 8

/-- Field RSVD, bits 31:9 (R100, R105). -/
def reservedField (w : Word) : BitVec 23 := w.extractLsb' 9 23

/-- The command of an opcode (R104). -/
def instrOfOpcode (opc : Byte) (v : Bool) : Option Instr :=
  match opc.toNat with
  | 0x00 => some (.nop v)
  | 0x01 => some (.fcount v)
  | 0x02 => some (.tbuild v)
  | 0x03 => some (.cgen v)
  | 0x04 => some (.tser v)
  | 0x05 => some (.tdes v)
  | 0x06 => some (.benc v)
  | 0x07 => some (.bdec v)
  | 0x08 => some (.bpack v)
  | 0x09 => some (.bunpack v)
  | 0x0A => some (.cenc v)
  | 0x0B => some (.cdec v)
  | _ => none

/-- Decoding a command word is total (R106): one of the twelve commands, or a named refusal. -/
def decode (w : Word) : Except DecodeError Instr :=
  if reservedField w = 0 then
    match instrOfOpcode (opcField w) (verboseField w) with
    | some i => .ok i
    | none => .error .reservedOpcode
  else .error .reservedBits

/-- The word whose four bytes are given, bits [7:0] in byte lane 0 (R76). -/
def wordOfBytes (b0 b1 b2 b3 : Byte) : Word :=
  BitVec.ofNat 32 (b0.toNat + 256 * b1.toNat + 65536 * b2.toNat + 16777216 * b3.toNat)

/-- Decoding any byte string: the command of its first four bytes and the bytes after them. -/
def decodeBytes : List Byte → Except DecodeError (Instr × List Byte)
  | b0 :: b1 :: b2 :: b3 :: rest =>
    match decode (wordOfBytes b0 b1 b2 b3) with
    | .ok i => .ok (i, rest)
    | .error e => .error e
  | _ => .error .truncated

/-- Opcode of a command (R104). -/
def Instr.opcode : Instr → Byte
  | .nop _ => 0x00
  | .fcount _ => 0x01
  | .tbuild _ => 0x02
  | .cgen _ => 0x03
  | .tser _ => 0x04
  | .tdes _ => 0x05
  | .benc _ => 0x06
  | .bdec _ => 0x07
  | .bpack _ => 0x08
  | .bunpack _ => 0x09
  | .cenc _ => 0x0A
  | .cdec _ => 0x0B

/-- The VERBOSE flag of a command (R102). -/
def Instr.verbose : Instr → Bool
  | .nop v | .fcount v | .tbuild v | .cgen v | .tser v | .tdes v
  | .benc v | .bdec v | .bpack v | .bunpack v | .cenc v | .cdec v => v

/-- The same command with its VERBOSE flag set to `v`. -/
def Instr.withVerbose (v : Bool) : Instr → Instr
  | .nop _ => .nop v
  | .fcount _ => .fcount v
  | .tbuild _ => .tbuild v
  | .cgen _ => .cgen v
  | .tser _ => .tser v
  | .tdes _ => .tdes v
  | .benc _ => .benc v
  | .bdec _ => .bdec v
  | .bpack _ => .bpack v
  | .bunpack _ => .bunpack v
  | .cenc _ => .cenc v
  | .cdec _ => .cdec v

/-- The command word of a command: `w = (V << 8) | OPC` (R100). -/
def encode (i : Instr) : Word :=
  ((BitVec.ofBool i.verbose).zeroExtend 32 <<< 8) ||| i.opcode.zeroExtend 32

/-- The four bytes of a command word, byte lane 0 first (R76). -/
def encodeBytes (i : Instr) : List Byte :=
  [(encode i).extractLsb' 0 8, (encode i).extractLsb' 8 8,
   (encode i).extractLsb' 16 8, (encode i).extractLsb' 24 8]

/-- The command word of an opcode-table row given as a number with bit 0 its least significant; bits
above `nbits` are 0. -/
def tableWord (nbits w : Nat) : Word := BitVec.ofNat 32 (w % 2 ^ nbits)

/-- What the decoder reads from an opcode-table row's bits.  A command word is the data of a 32-bit
register write (R103), with no byte order of its own beyond R76's lanes. -/
def decodeTableWord (nbits w : Nat) : Option Instr :=
  let word := tableWord nbits w
  match decodeBytes [word.extractLsb' 0 8, word.extractLsb' 8 8,
                     word.extractLsb' 16 8, word.extractLsb' 24 8] with
  | .ok (i, _) => some i
  | .error _ => none

end Sys2Proof
end

