-- ==== Sys2Proof/Machine/Host.lean ====
section
/-!
DEFINITION. The host's side of the core: the register map, register and buffer accesses, and the order of
host and engine (10_state.md section 2, R60; 20_memory.md).
-/

namespace Sys2Proof.Machine

/-! ### The host window -/

/-- The number of bytes of an access (R70). -/
def Width.bytes : Width → Nat
  | .byte => 1
  | .half => 2
  | .word => 4

/-- What an offset of the host window addresses (R72, R78). -/
inductive Region where
  /-- The register space, offsets 0x000 to 0xFFF. -/
  | register
  /-- The reserved offsets 0x1000 to BUF_OFFSET - 1. -/
  | gap
  /-- The byte of the buffer at this buffer offset. -/
  | buffer (a : Nat)
  /-- At or beyond BUF_OFFSET + BUF_SIZE: not the core (R50, U20). -/
  | outside
deriving DecidableEq, Repr

/-- The region an access belongs to, by its first byte (R78; log entry 8 for an access that crosses). -/
def regionOf (p : Config.Params) (offset : Nat) : Region :=
  if offset < 0x1000 then .register
  else if offset < p.bufOffset then .gap
  else if offset < p.bufOffset + p.bufSize then .buffer (offset - p.bufOffset)
  else .outside

/-- The register at an aligned offset of the register space (the map of 10_state.md section 2). -/
def regAt (offset : Nat) : Reg :=
  match offset with
  | 0x000 => .id
  | 0x004 => .version
  | 0x008 => .param0
  | 0x00C => .param1
  | 0x010 => .ctrl
  | 0x014 => .cmd
  | 0x018 => .status
  | 0x01C => .errcode
  | 0x020 => .srcAddr
  | 0x024 => .srcLen
  | 0x028 => .dstAddr
  | 0x02C => .dstCap
  | 0x030 => .bitlen
  | 0x034 => .resultLen
  | 0x038 => .nodeCount
  | 0x03C => .leafCount
  | n =>
    if 0x400 ≤ n ∧ n < 0x800 then .freqWin (BitVec.ofNat 8 ((n - 0x400) / 4))
    else if 0x800 ≤ n ∧ n < 0xC00 then .codelenWin (BitVec.ofNat 8 ((n - 0x800) / 4))
    else .reserved

/-- The offset of a register; the reserved offsets have no register of their own and are given by their
first, 0x040. -/
def regOffset : Reg → Nat
  | .id => 0x000
  | .version => 0x004
  | .param0 => 0x008
  | .param1 => 0x00C
  | .ctrl => 0x010
  | .cmd => 0x014
  | .status => 0x018
  | .errcode => 0x01C
  | .srcAddr => 0x020
  | .srcLen => 0x024
  | .dstAddr => 0x028
  | .dstCap => 0x02C
  | .bitlen => 0x030
  | .resultLen => 0x034
  | .nodeCount => 0x038
  | .leafCount => 0x03C
  | .freqWin s => 0x400 + 4 * s.toNat
  | .codelenWin s => 0x800 + 4 * s.toNat
  | .reserved => 0x040

/-! ### Register reads -/

/-- CODELEN_WIN[s]: the length of CODE[s], or 0 when it is invalid (R49). -/
def State.codeLen (s : State) (b : Byte) : Nat :=
  match s.code.get b with
  | none => 0
  | some c => c.length

/-- The current value of a register (R31 to R50).  CMD reads 0 (R36), reserved offsets read 0 (R50). -/
def State.readReg (s : State) : Reg → Word
  | .id => 0x48554631
  | .version => 0x00000007
  | .param0 => BitVec.ofNat 32 s.params.nodeCap
  | .param1 => BitVec.ofNat 32 s.params.bufSize
  | .ctrl => s.ctrlWord
  | .cmd => 0
  | .status => s.statusWord
  | .errcode => s.errcodeWord
  | .srcAddr => s.srcAddr
  | .srcLen => s.srcLen
  | .dstAddr => s.dstAddr
  | .dstCap => s.dstCap
  | .bitlen => s.bitlen
  | .resultLen => s.resultLen
  | .nodeCount => BitVec.ofNat 32 (Arena.nodeCount s.arena)
  | .leafCount => BitVec.ofNat 32 (Arena.leafCount s.arena)
  | .freqWin b => s.freq.get b
  | .codelenWin b => BitVec.ofNat 32 (s.codeLen b)
  | .reserved => 0

/-- The registers whose reads are unspecified while a command runs (R60). -/
def unspecifiedWhileBusy : Reg → Bool
  | .bitlen | .resultLen | .nodeCount | .leafCount | .freqWin _ | .codelenWin _ => true
  | _ => false

/-- The low bits of a word, as wide as the access. -/
def ReadData.ofWord (w : Width) (v : Word) : ReadData :=
  match w with
  | .byte => .byte (v.extractLsb' 0 8)
  | .half => .half (v.extractLsb' 0 16)
  | .word => .word v

/-- A register-space access has the width and alignment every register access must have (R75). -/
def regAccessOk (w : Width) (offset : Nat) : Bool :=
  decide (w = .word) && decide (offset % 4 = 0)

/-- The data of a register-space read: the register's value, or a free draw where the access is narrow or
misaligned (R75), where the reset input is asserted (R340), and where a command runs and the register is
one of those R60 leaves unspecified. -/
def State.registerRead (w : Width) (offset : Nat) (s : State) : ReadData :=
  if regAccessOk w offset && !s.inReset && !(s.busy && unspecifiedWhileBusy (regAt offset)) then
    .word (s.readReg (regAt offset))
  else ReadData.ofWord w (Config.freeRead s.draws)

/-- The data of a read at a reserved offset above the register space: a 32-bit read returns 0 (R50).  The
spec gives no value to a narrow read there, to one that runs into the buffer, or during reset (R340). -/
def State.gapRead (w : Width) (offset : Nat) (s : State) : ReadData :=
  if decide (w = .word) && !s.inReset && decide (offset + 4 ≤ s.params.bufOffset) then .word 0
  else ReadData.ofWord w (Config.freeRead s.draws)

/-! ### Buffer reads -/

/-- Lane `j` of a buffer read at `a`: the byte's current value, or a free draw where the byte lies outside
the buffer (R76, R50), in the running command's destination range (R80), or where the reset input is
asserted (R340). -/
def State.lane (s : State) (a j : Nat) : Byte :=
  if s.inReset || decide (s.params.bufSize ≤ a + j)
      || (s.pending.any fun P => P.dst.contains (a + j)) then
    Config.freeLane s.draws j
  else s.readByte (a + j)

/-- The data of a buffer read, little-endian: `Buf[a]` is bits [7:0], `Buf[a + 1]` bits [15:8] (R76). -/
def State.bufferRead (w : Width) (a : Nat) (s : State) : ReadData :=
  match w with
  | .byte => .byte (s.lane a 0)
  | .half => .half (s.lane a 1 ++ s.lane a 0)
  | .word => .word (s.lane a 3 ++ s.lane a 2 ++ s.lane a 1 ++ s.lane a 0)

/-- A read returns its data and changes nothing of the core (R77). -/
def State.returnRead (d : ReadData) (s : State) : State :=
  { s with readData := some d, draws := s.draws + 1 }

/-! ### Writes -/

/-- An operand register takes a write only while no command runs (R39 to R43, R60, R351). -/
def State.writeOperand (s : State) (idle : State) : State := if s.busy then s else idle

/-- A 32-bit aligned register write (R35 to R50, R60, R103). -/
def State.writeReg (r : Reg) (v : Word) (s : State) : State :=
  match r with
  | .ctrl => { s with ie := v.getLsbD 0 }
  | .cmd => if s.busy then s else s.issue v
  | .status => if v.getLsbD 1 then { s with done := false } else s
  | .srcAddr => s.writeOperand { s with srcAddr := v }
  | .srcLen => s.writeOperand { s with srcLen := v }
  | .dstAddr => s.writeOperand { s with dstAddr := v }
  | .dstCap => s.writeOperand { s with dstCap := v }
  | .bitlen => s.writeOperand { s with bitlen := v }
  | .id | .version | .param0 | .param1 | .errcode | .resultLen | .nodeCount | .leafCount
  | .freqWin _ | .codelenWin _ | .reserved => s

/-- A register-space write: ignored where it is narrow or misaligned (R75) or the reset input is asserted
(R340). -/
def State.registerWrite (w : Width) (offset : Nat) (v : Word) (s : State) : State :=
  if regAccessOk w offset && !s.inReset then s.writeReg (regAt offset) v else s

/-- The bytes of a buffer write that lie in the buffer: the low bytes of the data, little-endian (R76). -/
def writtenBytes (p : Config.Params) (w : Width) (a : Nat) (v : Word) : List Byte :=
  (u32le v).take (min w.bytes (p.bufSize - a))

/-- The record after host writes of `n` bytes at `a`: corrupt when one of them lies in a latched range
(R80). -/
def Pending.disturb (a n : Nat) (P : Pending) : Pending :=
  { P with corrupt := P.corrupt || (List.range' a n).any P.touches }

/-- A buffer write: every byte in the buffer takes effect, and a byte in a latched range of the running
command corrupts it (R71, R76, R80); ignored where the reset input is asserted (R340). -/
def State.bufferWrite (w : Width) (a : Nat) (v : Word) (s : State) : State :=
  if s.inReset then s
  else
    { s with
      mem := s.mem.writeBytes a (writtenBytes s.params w a v)
      pending := s.pending.map (Pending.disturb a (writtenBytes s.params w a v).length) }

/-- One host access (R70, R75 to R77, R80). -/
def hostAccess (access : HostAccess) (s : State) : Host.Outcome State Fault Refusal :=
  match access with
  | .read w offset =>
    match regionOf s.params offset with
    | .register => .next (s.returnRead (s.registerRead w offset))
    | .gap => .next (s.returnRead (s.gapRead w offset))
    | .buffer a => .next (s.returnRead (s.bufferRead w a))
    | .outside => .fault .outsideWindow
  | .write w offset v =>
    match regionOf s.params offset with
    | .register => .next (s.registerWrite w offset v)
    | .gap => .next s
    | .buffer a => .next (s.bufferWrite w a v)
    | .outside => .fault .outsideWindow

end Sys2Proof.Machine
end

