-- ==== Sys2Proof/Machine/Engine.lean ====
section
/-!
DEFINITION. The engine's step, the reset input and the events of the core (20_memory.md R81, R89;
70_reset_and_hazards.md R340, R361).
-/

namespace Sys2Proof.Machine

/-- The engine completes the running command: it decodes the latched command word and runs the command, or
completes the illegal word in error (R81, R106, R285).  When no command runs it does nothing (R317). -/
def engineStep (s : State) : Host.Outcome State Fault Refusal :=
  match s.pending with
  | none => .next s
  | some P =>
    match decode P.word with
    | .ok i => exec i s
    | .error _ => execIllegal s

/-- The reset input at a level: asserted, the core takes its reset values; released after it was asserted,
it takes them and runs from there; otherwise nothing happens (R340, D38). -/
def State.resetLevel (level : Bool) (s : State) : State :=
  if level = s.params.resetActiveLevel then s.takeReset true
  else if s.inReset then s.takeReset false
  else s

/-- One event.  Every order of host accesses, completions and reset is the order of some list of events
(R307, R361). -/
def applyEvent (e : Event) (s : State) : Host.Outcome State Fault Refusal :=
  match e with
  | .host access => hostAccess access s
  | .engine => engineStep s
  | .resetInput level => .next (s.resetLevel level)

end Sys2Proof.Machine
end

