-- ==== Sys2Proof/Machine/Step.lean ====
section
/-!
DEFINITION. One step of the core, and how a command word comes to be the next one run.
-/

namespace Sys2Proof.Machine

/-- One step: the next event of the inputs; when none is left the engine moves, so a running command
completes (R362). -/
def step (s : State) : Host.Outcome State Fault Refusal :=
  match s.inputs with
  | [] => engineStep s
  | e :: rest => applyEvent e { s with inputs := rest }

/-- The state in which the command word `w` has just been issued and the engine moves next.  The core
fetches nothing (R84): a command comes from a host write to CMD (R103), and this is that write, with the
completion of the command before any other input. -/
def State.withFetchWord (s : State) (nbits w : Nat) : State :=
  { s.issue (tableWord nbits w) with
    inReset := false
    inputs := match s.inputs with
      | [] => []
      | e :: rest => .engine :: e :: rest }

end Sys2Proof.Machine
end

