-- ==== Sys2Proof/Safety.lean ====
section
/-!
DEFINITION. The predicates claims are stated in: the invariant of the core, what a completion leaves
unchanged, and the properties of trees.
-/

namespace Sys2Proof

/-! ### Trees -/

/-- The leaves of a node in pre-order, as (symbol, frequency). -/
def Node.leaves : Node → List (Byte × Word)
  | .leaf s f => [(s, f)]
  | .internal _ l r => l.leaves ++ r.leaves

/-- Every internal frequency is the sum of its children's, as numbers (R59, R146). -/
def Node.exactSums : Node → Prop
  | .leaf _ _ => True
  | .internal f l r => f.toNat = l.freq.toNat + r.freq.toNat ∧ l.exactSums ∧ r.exactSums

/-- Every internal frequency is the sum of its children's modulo 2^32 (R232). -/
def Node.moduloSums : Node → Prop
  | .leaf _ _ => True
  | .internal f l r => f = l.freq + r.freq ∧ l.moduloSums ∧ r.moduloSums

/-- The tree of an ARENA has internal frequencies that are sums modulo 2^32; the null tree has none. -/
def Arena.moduloSums : Arena → Prop
  | none => True
  | some t => t.moduloSums

/-- No two leaves hold the same symbol. -/
def Node.distinctSymbols (t : Node) : Prop := (t.leaves.map Prod.fst).Nodup

/-- The paths from the root to the leaves, in pre-order: 0 is left, 1 is right (R161). -/
def Node.paths : Node → List (Byte × Bits)
  | .leaf s _ => [(s, [])]
  | .internal _ l r =>
    (l.paths.map fun p => (p.1, false :: p.2)) ++ (r.paths.map fun p => (p.1, true :: p.2))

/-- The number of edges on the longest path from the root to a leaf. -/
def Node.depth : Node → Nat
  | .leaf _ _ => 0
  | .internal _ l r => 1 + max l.depth r.depth

namespace Machine

/-! ### The stream of a serialized tree -/

/-- The bytes a parse in stream order has read when it comes to a node: on the way down from the root an
internal tag at each level (`none`, to the left), and behind it the whole left subtree where the way goes to
the right (R224, R231). -/
def streamBefore : List (Option Node) → List Byte
  | [] => []
  | none :: way => 0x00 :: streamBefore way
  | some l :: way => 0x00 :: (serNode l ++ streamBefore way)

/-- The nodes the parse has counted by then: the internal nodes of the way and the subtrees left of it. -/
def nodesBefore : List (Option Node) → Nat
  | [] => 0
  | none :: way => 1 + nodesBefore way
  | some l :: way => 1 + l.nodeCount + nodesBefore way

/-! ### The invariant -/

/-- A CODE entry is invalid or a bit string of length 1 to `(NODE_CAP - 1) div 2` (R52). -/
def codeEntryOk (nodeCap : Nat) : Option Bits → Prop
  | none => True
  | some c => 1 ≤ c.length ∧ c.length ≤ maxCodeLen nodeCap

/-- The record holds what the operand registers hold: their writes are ignored while it exists (R60). -/
def Pending.matches (P : Pending) (s : State) : Prop :=
  P.srcAddr = s.srcAddr ∧ P.srcLen = s.srcLen ∧ P.dstAddr = s.dstAddr ∧ P.dstCap = s.dstCap
    ∧ P.bitlen = s.bitlen

/-- The state an asserted reset input holds the core in (R340, R58). -/
def State.atResetValues (s : State) : Prop :=
  s.ie = false ∧ s.done = false ∧ s.errcode = none ∧ s.srcAddr = 0 ∧ s.srcLen = 0 ∧ s.dstAddr = 0
    ∧ s.dstCap = 0 ∧ s.bitlen = 0 ∧ s.resultLen = 0 ∧ (∀ b, s.freq.get b = 0)
    ∧ (∀ b, s.code.get b = none) ∧ s.arena = none ∧ s.pending = none ∧ s.mem = []

/-- What holds of the core in every state a run reaches: legal parameters (R10 to R12), a canonical buffer,
ARENA within NODE_CAP (R53), CODE entries of legal length (R52), BUSY and DONE never both 1 (R37), ERRCODE
0x00 while BUSY (R60), a record that agrees with the operand registers (R45, R60), reset values while the
reset input is asserted (R340), and a draw counter ahead of the buffer's draw (the model's own). -/
structure State.Inv (s : State) : Prop where
  params : s.params.wellFormed = true
  memory : s.mem.wf s.params.bufSize
  arena : Arena.nodeCount s.arena ≤ s.params.nodeCap
  code : ∀ b, codeEntryOk s.params.nodeCap (s.code.get b)
  busyNotDone : s.busy = true → s.done = false
  busyNoError : s.busy = true → s.errcode = none
  latched : ∀ P, s.pending = some P → P.matches s
  held : s.inReset = true → s.atResetValues
  fresh : s.memDraw < s.draws

/-- The code table describes the tree in ARENA, or it is all invalid (R352). -/
def State.codeMatchesTree (s : State) : Prop :=
  s.code = codesOf s.arena ∨ s.code = Table.const none

/-! ### Frames -/

/-- Unchanged by every completion: the parameters, CTRL, the operand registers but BITLEN, the reset
input, the inputs still to come and the last read's data. -/
def SameRegisters (s t : State) : Prop :=
  t.params = s.params ∧ t.ie = s.ie ∧ t.srcAddr = s.srcAddr ∧ t.srcLen = s.srcLen
    ∧ t.dstAddr = s.dstAddr ∧ t.dstCap = s.dstCap ∧ t.inReset = s.inReset ∧ t.inputs = s.inputs
    ∧ t.readData = s.readData

/-- The command has completed: idle, DONE = 1, ERRCODE as given (R302, R303). -/
def Completed (e : Option CmdError) (t : State) : Prop :=
  t.busy = false ∧ t.done = true ∧ t.errcode = e

/-- Completed successfully: BUSY = 0, DONE = 1, ERRCODE = 0x00, RESULT_LEN as given, and the registers of
`SameRegisters` unchanged (R302, R44). -/
def Succeeded (n : Nat) (s t : State) : Prop :=
  Completed none t ∧ t.resultLen = BitVec.ofNat 32 n ∧ SameRegisters s t

/-- The three tables are unchanged. -/
def SameTables (s t : State) : Prop := t.freq = s.freq ∧ t.code = s.code ∧ t.arena = s.arena

/-- Every buffer byte is unchanged. -/
def SameBuffer (s t : State) : Prop := ∀ a, t.readByte a = s.readByte a

/-- The buffer holds `out` from `a` on and every other byte is unchanged (R87). -/
def WroteBytes (a : Nat) (out : List Byte) (s t : State) : Prop :=
  (∀ j, j < out.length → t.readByte (a + j) = byteAt out j)
    ∧ (∀ b, b < a ∨ a + out.length ≤ b → t.readByte b = s.readByte b)

/-- The command passes the common checks and its record is not corrupted (R306, R302). -/
def Ready (i : Instr) (s : State) : Prop :=
  s.operands.corrupt = false
    ∧ ((rowOf i).readsSrc = true → s.operands.src.addr + s.operands.src.len ≤ s.params.bufSize)
    ∧ ((rowOf i).writesDst = true → s.operands.dst.addr + s.operands.dst.len ≤ s.params.bufSize)
    ∧ ((rowOf i).readsSrc = true → (rowOf i).writesDst = true →
        s.operands.src.overlaps s.operands.dst = false)

/-- The source bytes of the running command (R20). -/
def State.src (s : State) : List Byte := s.sourceBytes s.operands

/-- The data bits of a write or of a register, bits `8 j + 7` to `8 j` (R76). -/
def laneOf (v : Word) (j : Nat) : Byte := v.extractLsb' (8 * j) 8

/-- The next event is this host access. -/
def NextAccess (access : HostAccess) (rest : List Event) (s : State) : Prop :=
  s.inputs = .host access :: rest

/-- The same state with the first event taken off its inputs. -/
def State.after (rest : List Event) (s : State) : State := { s with inputs := rest }

/-- The errors a command can report (R308). -/
def errorsOf : Instr → List CmdError
  | .nop _ => []
  | .fcount _ => [.bounds, .emptyInput]
  | .tbuild _ => [.emptyInput]
  | .cgen _ => []
  | .tser _ => [.bounds, .capacity]
  | .tdes _ => [.bounds, .malformedTree, .capacity]
  | .benc _ => [.bounds, .overlap, .symbolNotInTable, .capacity]
  | .bdec _ => [.bounds, .overlap, .truncatedPayload, .malformedTree, .invalidCode, .capacity]
  | .bpack _ => [.bounds, .overlap, .invalidBit, .capacity]
  | .bunpack _ => [.bounds, .overlap, .truncatedPayload, .capacity]
  | .cenc _ => [.bounds, .overlap, .emptyContent, .capacity]
  | .cdec _ =>
    [.bounds, .overlap, .truncatedHeader, .inconsistentLength, .malformedTree, .capacity,
      .truncatedPayload, .invalidCode]

/-- The access addresses the core: its first byte lies in the core's window (R50, R78). -/
def inWindow (p : Config.Params) : HostAccess → Bool
  | .read _ offset => decide (offset < p.bufOffset + p.bufSize)
  | .write _ offset _ => decide (offset < p.bufOffset + p.bufSize)

end Machine

end Sys2Proof
end

