-- ==== Sys2Proof/Certificates/Slice0/Obligations.lean ====
section
/-!
DEFINITION. The statements about the core, for the provers.  Each docstring names the rules of spec/ it
formalises.
-/

open Sys2Proof Sys2Proof.Machine

/-! ### Command words -/

/-- The command word of every mnemonic, with V = 0 and V = 1, and what it decodes to (R110). -/
def Obligations.CommandWordOfEveryMnemonic : Prop :=
  (encode (.nop false) = 0x00000000 ∧ decode 0x00000000 = .ok (.nop false))
  ∧ (encode (.fcount false) = 0x00000001 ∧ decode 0x00000001 = .ok (.fcount false))
  ∧ (encode (.tbuild false) = 0x00000002 ∧ decode 0x00000002 = .ok (.tbuild false))
  ∧ (encode (.cgen false) = 0x00000003 ∧ decode 0x00000003 = .ok (.cgen false))
  ∧ (encode (.tser false) = 0x00000004 ∧ decode 0x00000004 = .ok (.tser false))
  ∧ (encode (.tdes false) = 0x00000005 ∧ decode 0x00000005 = .ok (.tdes false))
  ∧ (encode (.benc false) = 0x00000006 ∧ decode 0x00000006 = .ok (.benc false))
  ∧ (encode (.bdec false) = 0x00000007 ∧ decode 0x00000007 = .ok (.bdec false))
  ∧ (encode (.bpack false) = 0x00000008 ∧ decode 0x00000008 = .ok (.bpack false))
  ∧ (encode (.bunpack false) = 0x00000009 ∧ decode 0x00000009 = .ok (.bunpack false))
  ∧ (encode (.cenc false) = 0x0000000A ∧ decode 0x0000000A = .ok (.cenc false))
  ∧ (encode (.cdec false) = 0x0000000B ∧ decode 0x0000000B = .ok (.cdec false))
  ∧ (encode (.cenc true) = 0x0000010A ∧ decode 0x0000010A = .ok (.cenc true))
  ∧ ∀ i : Instr, encode (i.withVerbose true) = encode (i.withVerbose false) + 0x00000100
      ∧ decode (encode (i.withVerbose false) + 0x00000100) = .ok (i.withVerbose true)

/-- Decoder and encoder agree in both directions, over all 2^32 words and every command: a word decodes to
a command exactly when it is that command's word (R100, R104, R106). -/
def Obligations.DecodeEncodeAgree : Prop :=
  ∀ (w : Word) (i : Instr), decode w = .ok i ↔ encode i = w

/-- Decoding is total: a word is the command whose opcode it matches under the mask, with V its bit 8, or
it is illegal, exactly when a reserved bit is set or its opcode is above 0x0B (R106 with R105's words). -/
def Obligations.DecodingIsTotalByMaskAndMatch : Prop :=
  (∀ (w : Word) (i : Instr), decode w = .ok i ↔
    (w &&& 0xFFFFFEFF#32) = i.opcode.zeroExtend 32 ∧ w.getLsbD 8 = i.verbose)
  ∧ (∀ w : Word, (∃ e, decode w = .error e) ↔
      w.extractLsb' 9 23 ≠ 0#23 ∨ 0x0B < (w.extractLsb' 0 8).toNat)

/-- An illegal command word is issued like any command and completes with IllegalCommandError (0x10): no
buffer byte, no table, no BITLEN and no RESULT_LEN changes (R285). -/
def Obligations.IllegalWordCompletesInError : Prop :=
  ∀ (s : State) (w : Word) (rest : List Event),
    NextAccess (.write .word 0x014 w) (.engine :: rest) s → s.inReset = false → s.pending = none →
    (w.extractLsb' 9 23 ≠ 0#23 ∨ 0x0B < (w.extractLsb' 0 8).toNat) →
    ∃ u t, step s = .next u ∧ u.busy = true ∧ step u = .next t
      ∧ Completed (some .illegalCommand) t ∧ t.errcodeWord = 0x00000010
      ∧ SameTables s t ∧ t.bitlen = s.bitlen ∧ t.resultLen = s.resultLen ∧ SameBuffer s t
      ∧ SameRegisters (s.after rest) t

/-- VERBOSE has no effect on any state, output or error: the two commands have one meaning; a running command
completes alike whether bit 8 of its latched word is 1 or 0, in every state, also corrupted and for illegal
words; and the issue of a command with V = 1 followed by its completion leads to the same state as with V = 0,
so V is accepted on every opcode (R102). -/
def Obligations.VerboseHasNoEffect : Prop :=
  (∀ (i : Instr) (s : State), exec (i.withVerbose true) s = exec (i.withVerbose false) s)
  ∧ (∀ (s : State) (P : Pending) (rest : List Event),
      step { s with pending := some { P with word := P.word ||| 0x00000100 }, inputs := .engine :: rest } =
        step { s with pending := some { P with word := P.word &&& 0xFFFFFEFF }, inputs := .engine :: rest })
  ∧ (∀ (i : Instr) (s : State) (rest : List Event), s.inReset = false → s.pending = none →
      ∃ u u' t,
        step { s with
          inputs := .host (.write .word 0x014 (encode (i.withVerbose true))) :: .engine :: rest } = .next u
        ∧ step { s with
          inputs := .host (.write .word 0x014 (encode (i.withVerbose false))) :: .engine :: rest } = .next u'
        ∧ u.busy = true ∧ u'.busy = true ∧ step u = .next t ∧ step u' = .next t
        ∧ t.errcode ≠ some .illegalCommand)

/-! ### Steps -/

/-- A step runs the decoded command: with a running command whose word decodes to `i`, the engine's step,
whether it is the next event or no event is left, is `exec i` (R81, R106).  That the engine moves when no event
is left is the model's choice, log entry 7. -/
def Obligations.EngineRunsDecodedCommand : Prop :=
  ∀ (s : State) (P : Pending) (i : Instr), s.pending = some P → decode P.word = .ok i →
    (s.inputs = [] → step s = exec i s)
    ∧ (∀ rest, s.inputs = .engine :: rest → step s = exec i (s.after rest))

/-- Every issued command completes: whatever the host does in the core's window meanwhile, once its
accesses are done the next step leaves the core idle with DONE = 1 (R362).  That it completes in that very step
is the model's choice, log entry 7 (the engine moves when no event is left); R361 and R362 leave the time
open. -/
def Obligations.IssuedCommandCompletes : Prop :=
  ∀ (s : State) (P : Pending) (l : List HostAccess), s.pending = some P →
    s.inputs = l.map Event.host → (∀ a ∈ l, inWindow s.params a = true) →
    ∃ t, Host.Core.run Sys2Proof.core (l.length + 1) s = .next t ∧ t.busy = false ∧ t.done = true
      ∧ t.inputs = []

/-- Only commands change FREQ, CODE, ARENA and RESULT_LEN: no host access does (R85, R72). -/
def Obligations.HostAccessLeavesTables : Prop :=
  ∀ (s t : State) (access : HostAccess) (rest : List Event), NextAccess access rest s →
    step s = .next t → SameTables s t ∧ t.resultLen = s.resultLen ∧ t.params = s.params

/-! ### Registers -/

/-- CMD: a 32-bit write while idle issues, latching the word and the operand registers, with BUSY = 1,
DONE = 0 and ERRCODE = 0x00; while a command runs it changes nothing; a read returns 0 (R36, R45, R103). -/
def Obligations.CmdWriteIssuesWhileIdle : Prop :=
  (∀ (s : State) (w : Word) (rest : List Event), NextAccess (.write .word 0x014 w) rest s →
    s.inReset = false →
    (s.pending = none →
      step s = .next { s with
        inputs := rest
        pending := some
          { word := w, srcAddr := s.srcAddr, srcLen := s.srcLen, dstAddr := s.dstAddr
            dstCap := s.dstCap, bitlen := s.bitlen, corrupt := false }
        done := false
        errcode := none })
    ∧ (s.busy = true → step s = .next (s.after rest)))
  ∧ (∀ (s : State) (rest : List Event), NextAccess (.read .word 0x014) rest s → s.inReset = false →
      step s = .next { s with inputs := rest, readData := some (.word 0), draws := s.draws + 1 })

/-- A write to SRC_ADDR, SRC_LEN, DST_ADDR, DST_CAP or BITLEN sets that register alone while no command
runs, and is ignored while one runs (R39 to R43, R351). -/
def Obligations.OperandWritesTakeEffectOnlyWhileIdle : Prop :=
  ∀ (s : State) (v : Word) (rest : List Event), s.inReset = false →
    (NextAccess (.write .word 0x020 v) rest s →
      step s = .next (if s.busy then s.after rest else { s.after rest with srcAddr := v }))
    ∧ (NextAccess (.write .word 0x024 v) rest s →
      step s = .next (if s.busy then s.after rest else { s.after rest with srcLen := v }))
    ∧ (NextAccess (.write .word 0x028 v) rest s →
      step s = .next (if s.busy then s.after rest else { s.after rest with dstAddr := v }))
    ∧ (NextAccess (.write .word 0x02C v) rest s →
      step s = .next (if s.busy then s.after rest else { s.after rest with dstCap := v }))
    ∧ (NextAccess (.write .word 0x030 v) rest s →
      step s = .next (if s.busy then s.after rest else { s.after rest with bitlen := v }))

/-- CTRL: bit 0 is IE; a write takes effect at once, also while a command runs; bits [31:1] read 0 and
their writes are ignored; the reset value is 0 (R35). -/
def Obligations.CtrlHoldsInterruptEnable : Prop :=
  (∀ (s : State) (v : Word) (rest : List Event), NextAccess (.write .word 0x010 v) rest s →
    s.inReset = false → step s = .next { s with inputs := rest, ie := v.getLsbD 0 })
  ∧ (∀ (s : State) (rest : List Event), NextAccess (.read .word 0x010) rest s → s.inReset = false →
      ∃ v : Word, step s =
          .next { s with inputs := rest, readData := some (.word v), draws := s.draws + 1 }
        ∧ v.getLsbD 0 = s.ie ∧ ∀ k, 1 ≤ k → v.getLsbD k = false)
  ∧ ∀ p, (State.resetWith p).ctrlWord = 0

/-- STATUS: a read returns BUSY, DONE and ERR in bits 0 to 2 and 0 above; a write with bit 1 set clears
DONE and a write without it does nothing (R37). -/
def Obligations.StatusReadsFlagsAndClearsDone : Prop :=
  (∀ (s : State) (rest : List Event), NextAccess (.read .word 0x018) rest s → s.inReset = false →
    ∃ v : Word, step s =
        .next { s with inputs := rest, readData := some (.word v), draws := s.draws + 1 }
      ∧ v.getLsbD 0 = s.pending.isSome ∧ v.getLsbD 1 = s.done ∧ v.getLsbD 2 = decide (s.errcodeWord ≠ 0)
      ∧ ∀ k, 3 ≤ k → v.getLsbD k = false)
  ∧ (∀ (s : State) (v : Word) (rest : List Event), NextAccess (.write .word 0x018 v) rest s →
      s.inReset = false →
      step s = .next { s with inputs := rest, done := if v.getLsbD 1 then false else s.done })

/-- The codes of ERRCODE: 0x00 for no error and the thirteen values of the table, all different; bits
[31:8] read 0 (R300, R38). -/
def Obligations.ErrorCodesOfTheTable : Prop :=
  (∀ s : State, s.errcode = none → s.errcodeWord = 0)
  ∧ (∀ (s : State) (e : CmdError), s.errcode = some e → s.errcodeWord =
      match e with
      | .emptyContent => 0x01 | .emptyInput => 0x02 | .truncatedHeader => 0x03
      | .inconsistentLength => 0x04 | .truncatedPayload => 0x05 | .malformedTree => 0x06
      | .illegalCommand => 0x10 | .bounds => 0x11 | .overlap => 0x12 | .capacity => 0x13
      | .symbolNotInTable => 0x14 | .invalidBit => 0x15 | .invalidCode => 0x16)
  ∧ (∀ e f : CmdError, errorCode e = errorCode f → e = f)

/-- Writes to the read-only registers, the windows and the reserved offsets change nothing (R31 to R34,
R38, R44, R46 to R50).  That a write which begins in the last reserved offsets and runs into the buffer is
dropped whole is the model's choice, log entry 8; no rule says what it does. -/
def Obligations.ReadOnlyOffsetsIgnoreWrites : Prop :=
  ∀ (s : State) (w : Width) (offset : Nat) (v : Word) (rest : List Event),
    NextAccess (.write w offset v) rest s → 0x1000 ≤ s.params.bufOffset →
    (offset ∈ [0x000, 0x004, 0x008, 0x00C, 0x01C, 0x034, 0x038, 0x03C]
      ∨ (0x040 ≤ offset ∧ offset < s.params.bufOffset)) →
    step s = .next (s.after rest)

/-- What a 32-bit aligned read returns while no command runs: the constants ID and VERSION, PARAM0 =
NODE_CAP, PARAM1 = BUF_SIZE, the operand and result registers, ERRCODE, the node and leaf counts, the
windows, and 0 at reserved offsets (R31 to R34, R38 to R44, R46 to R50). -/
def Obligations.IdleReadsReturnRegisters : Prop :=
  ∀ (s : State) (offset : Nat) (rest : List Event), NextAccess (.read .word offset) rest s →
    s.inReset = false → s.pending = none → s.params.wellFormed = true →
    ∀ v : Word,
      (offset = 0x000 ∧ v = 0x48554631)
      ∨ (offset = 0x004 ∧ v = 0x00000007)
      ∨ (offset = 0x008 ∧ v = BitVec.ofNat 32 s.params.nodeCap)
      ∨ (offset = 0x00C ∧ v = BitVec.ofNat 32 s.params.bufSize)
      ∨ (offset = 0x01C ∧ v = s.errcodeWord)
      ∨ (offset = 0x020 ∧ v = s.srcAddr)
      ∨ (offset = 0x024 ∧ v = s.srcLen)
      ∨ (offset = 0x028 ∧ v = s.dstAddr)
      ∨ (offset = 0x02C ∧ v = s.dstCap)
      ∨ (offset = 0x030 ∧ v = s.bitlen)
      ∨ (offset = 0x034 ∧ v = s.resultLen)
      ∨ (offset = 0x038 ∧ v = BitVec.ofNat 32 (Arena.nodeCount s.arena))
      ∨ (offset = 0x03C ∧ v = BitVec.ofNat 32 (Arena.leafCount s.arena))
      ∨ (∃ b : Byte, offset = 0x400 + 4 * b.toNat ∧ v = s.freq.get b)
      ∨ (∃ b : Byte, offset = 0x800 + 4 * b.toNat
          ∧ v = match s.code.get b with | none => 0 | some c => BitVec.ofNat 32 c.length)
      ∨ (offset % 4 = 0 ∧ (0x040 ≤ offset ∧ offset < 0x400
          ∨ 0xC00 ≤ offset ∧ offset < s.params.bufOffset) ∧ v = 0) →
      step s = .next { s with inputs := rest, readData := some (.word v), draws := s.draws + 1 }

/-- What a 32-bit read returns while a command runs, of the registers whose reads R60 specifies: the
constants and parameters, CTRL, STATUS, the four range registers, and 0 for ERRCODE (R60). -/
def Obligations.BusyReadsReturnStableRegisters : Prop :=
  ∀ (s : State) (offset : Nat) (rest : List Event), NextAccess (.read .word offset) rest s →
    s.Inv → s.busy = true →
    ∀ v : Word,
      (offset = 0x000 ∧ v = 0x48554631)
      ∨ (offset = 0x004 ∧ v = 0x00000007)
      ∨ (offset = 0x008 ∧ v = BitVec.ofNat 32 s.params.nodeCap)
      ∨ (offset = 0x00C ∧ v = BitVec.ofNat 32 s.params.bufSize)
      ∨ (offset = 0x010 ∧ v = if s.ie then 1 else 0)
      ∨ (offset = 0x018 ∧ v = 0x00000001)
      ∨ (offset = 0x01C ∧ v = 0)
      ∨ (offset = 0x020 ∧ v = s.srcAddr)
      ∨ (offset = 0x024 ∧ v = s.srcLen)
      ∨ (offset = 0x028 ∧ v = s.dstAddr)
      ∨ (offset = 0x02C ∧ v = s.dstCap) →
      step s = .next { s with inputs := rest, readData := some (.word v), draws := s.draws + 1 }

/-- No read has a side effect: a read of any width at any offset of the window changes nothing but what
the model itself keeps of reads (R77). -/
def Obligations.ReadsChangeNothing : Prop :=
  ∀ (s : State) (w : Width) (offset : Nat) (rest : List Event), NextAccess (.read w offset) rest s →
    offset < s.params.bufOffset + s.params.bufSize →
    ∃ d, step s = .next { s with inputs := rest, readData := some d, draws := s.draws + 1 }

/-- A register-space access of another width than 32 bits, or at a misaligned offset: a write is ignored,
a read returns some value of its width and changes no state (R75).  That an access which begins below 0x1000 and
runs past it is a register-space access whole is the model's choice, log entry 8. -/
def Obligations.NarrowOrMisalignedRegisterAccess : Prop :=
  ∀ (s : State) (w : Width) (offset : Nat) (rest : List Event), offset < 0x1000 →
    (w ≠ .word ∨ offset % 4 ≠ 0) →
    (∀ v, NextAccess (.write w offset v) rest s → step s = .next (s.after rest))
    ∧ (NextAccess (.read w offset) rest s →
        ∃ x : Word, step s = .next { s with
          inputs := rest
          readData := some (match w with
            | .byte => .byte (x.extractLsb' 0 8)
            | .half => .half (x.extractLsb' 0 16)
            | .word => .word x)
          draws := s.draws + 1 })

/-! ### The buffer as the host reaches it -/

/-- A buffer read of 1, 2 or 4 bytes at buffer offset `a` is little-endian and needs no alignment: lane `j`
is Buf[a + j], for bytes in the buffer and outside the running command's destination (R76, R80). -/
def Obligations.BufferReadIsLittleEndian : Prop :=
  ∀ (s : State) (a : Nat) (rest : List Event), s.params.wellFormed = true → s.inReset = false →
    (NextAccess (.read .word (s.params.bufOffset + a)) rest s → a + 4 ≤ s.params.bufSize →
      (∀ P, s.pending = some P → ∀ j, j < 4 → P.dst.contains (a + j) = false) →
      ∃ v : BitVec 32, step s =
          .next { s with inputs := rest, readData := some (.word v), draws := s.draws + 1 }
        ∧ ∀ j, j < 4 → v.extractLsb' (8 * j) 8 = s.readByte (a + j))
    ∧ (NextAccess (.read .half (s.params.bufOffset + a)) rest s → a + 2 ≤ s.params.bufSize →
      (∀ P, s.pending = some P → ∀ j, j < 2 → P.dst.contains (a + j) = false) →
      ∃ v : BitVec 16, step s =
          .next { s with inputs := rest, readData := some (.half v), draws := s.draws + 1 }
        ∧ ∀ j, j < 2 → v.extractLsb' (8 * j) 8 = s.readByte (a + j))
    ∧ (NextAccess (.read .byte (s.params.bufOffset + a)) rest s → a < s.params.bufSize →
      (∀ P, s.pending = some P → P.dst.contains a = false) →
      step s = .next { s with
        inputs := rest, readData := some (.byte (s.readByte a)), draws := s.draws + 1 })

/-- A buffer write of 1, 2 or 4 bytes at buffer offset `a` puts the data's byte `j` at Buf[a + j], for the
bytes in the buffer, and changes no other byte, register or table (R71, R76). -/
def Obligations.BufferWriteIsLittleEndian : Prop :=
  ∀ (s : State) (w : Width) (a : Nat) (v : Word) (rest : List Event),
    NextAccess (.write w (s.params.bufOffset + a) v) rest s → s.params.wellFormed = true →
    s.inReset = false → a < s.params.bufSize →
    ∃ t, step s = .next t
      ∧ (∀ j, j < w.bytes → a + j < s.params.bufSize → t.readByte (a + j) = laneOf v j)
      ∧ (∀ b, b < a ∨ a + w.bytes ≤ b ∨ s.params.bufSize ≤ b → t.readByte b = s.readByte b)
      ∧ t.pending.isSome = s.pending.isSome
      ∧ t = { s with inputs := rest, mem := t.mem, pending := t.pending }

/-- A host write while a command runs marks its record corrupt exactly when one of the written bytes lies
in a latched range; otherwise the record is unchanged (R80, R45). -/
def Obligations.WriteInLatchedRangeCorrupts : Prop :=
  ∀ (s : State) (P : Pending) (w : Width) (a : Nat) (v : Word) (rest : List Event),
    NextAccess (.write w (s.params.bufOffset + a) v) rest s → s.params.wellFormed = true →
    s.inReset = false → a < s.params.bufSize → s.pending = some P →
    ∃ t, step s = .next t
      ∧ ((∃ j, j < w.bytes ∧ a + j < s.params.bufSize
            ∧ (P.src.addr ≤ a + j ∧ a + j < P.src.addr + P.src.len
              ∨ P.dst.addr ≤ a + j ∧ a + j < P.dst.addr + P.dst.len)) →
          t.pending = some { P with corrupt := true })
      ∧ ((∀ j, j < w.bytes → a + j < s.params.bufSize →
            ¬ (P.src.addr ≤ a + j ∧ a + j < P.src.addr + P.src.len)
            ∧ ¬ (P.dst.addr ≤ a + j ∧ a + j < P.dst.addr + P.dst.len)) →
          t.pending = some P)

/-! ### The interrupt -/

/-- The interrupt: every completion, success or error, corrupted or not, of a command or of an illegal word,
raises IRQ exactly when IE = 1; a write to STATUS
with bit 1 set, an issue and a reset clear it; with IE = 0 it is 0 (R310, R56). -/
def Obligations.InterruptPendsFromCompletionToAcknowledge : Prop :=
  (∀ (i : Instr) (s : State), ∃ t, exec i s = .next t ∧ t.done = true ∧ t.irq = s.ie)
  ∧ (∀ s : State, s.busy = true →
      ∃ t, engineStep s = .next t ∧ t.busy = false ∧ t.done = true ∧ t.irq = s.ie)
  ∧ (∀ (s : State) (v : Word) (rest : List Event), NextAccess (.write .word 0x018 v) rest s →
      s.inReset = false → v.getLsbD 1 = true → ∃ t, step s = .next t ∧ t.irq = false)
  ∧ (∀ (s : State) (w : Word) (rest : List Event), NextAccess (.write .word 0x014 w) rest s →
      s.inReset = false → s.pending = none → ∃ t, step s = .next t ∧ t.irq = false)
  ∧ (∀ (s : State) (rest : List Event), s.inputs = .resetInput s.params.resetActiveLevel :: rest →
      ∃ t, step s = .next t ∧ t.irq = false)
  ∧ (∀ s : State, s.ie = false → s.irq = false)

/-! ### Reset -/

/-- The values after reset, whatever the parameters: registers, tables, record and IRQ as the table gives
them, and no byte of the buffer with a value of its own (R58). -/
def Obligations.ResetLeavesTableValues : Prop :=
  ∀ p : Config.Params,
    (State.resetWith p).readReg .id = 0x48554631 ∧ (State.resetWith p).readReg .version = 0x00000007
    ∧ (State.resetWith p).readReg .param0 = BitVec.ofNat 32 p.nodeCap
    ∧ (State.resetWith p).readReg .param1 = BitVec.ofNat 32 p.bufSize
    ∧ (State.resetWith p).ctrlWord = 0 ∧ (State.resetWith p).statusWord = 0
    ∧ (State.resetWith p).errcodeWord = 0
    ∧ (State.resetWith p).srcAddr = 0 ∧ (State.resetWith p).srcLen = 0
    ∧ (State.resetWith p).dstAddr = 0 ∧ (State.resetWith p).dstCap = 0
    ∧ (State.resetWith p).bitlen = 0 ∧ (State.resetWith p).resultLen = 0
    ∧ (State.resetWith p).readReg .nodeCount = 0 ∧ (State.resetWith p).readReg .leafCount = 0
    ∧ (∀ b, (State.resetWith p).freq.get b = 0)
    ∧ (∀ b, (State.resetWith p).code.get b = none ∧ (State.resetWith p).readReg (.codelenWin b) = 0)
    ∧ (State.resetWith p).arena = none ∧ (State.resetWith p).pending = none
    ∧ (State.resetWith p).irq = false ∧ (∀ a, (State.resetWith p).mem.lookup a = none)

/-- The reset input: while it is asserted, and at its release, the core is at its reset values, a running
command is abandoned with DONE = 0 and IRQ = 0, and host writes are ignored (R340). -/
def Obligations.ResetInputAbandonsCommand : Prop :=
  (∀ (s : State) (rest : List Event), s.inputs = .resetInput s.params.resetActiveLevel :: rest →
    ∃ t, step s = .next t ∧ t.inReset = true ∧ t.atResetValues ∧ t.irq = false
      ∧ t.params = s.params ∧ t.inputs = rest)
  ∧ (∀ (s : State) (rest : List Event), s.inReset = true →
      s.inputs = .resetInput (!s.params.resetActiveLevel) :: rest →
      ∃ t, step s = .next t ∧ t.inReset = false ∧ t.atResetValues ∧ t.params = s.params
        ∧ t.inputs = rest)
  ∧ (∀ (s : State) (w : Width) (offset : Nat) (v : Word) (rest : List Event), s.inReset = true →
      NextAccess (.write w offset v) rest s → offset < s.params.bufOffset + s.params.bufSize →
      step s = .next (s.after rest))

/-- The invariant holds after reset, for every legal choice of parameters. -/
def Obligations.InvariantHoldsAfterReset : Prop :=
  (∀ p : Config.Params, p.wellFormed = true → (State.resetWith p).Inv) ∧ State.reset.Inv

/-- Every step keeps the invariant: legal parameters, a canonical buffer, ARENA within NODE_CAP, CODE
entries of legal length, BUSY and DONE never both 1, ERRCODE 0x00 while BUSY, a record that agrees with the
operand registers, reset values while reset is asserted (R37, R45, R52, R53, R60, R340). -/
def Obligations.StepKeepsInvariant : Prop :=
  ∀ s t : State, s.Inv → step s = .next t → t.Inv

/-- Right after reset the component commands see the reset tables: TBUILD raises EmptyInputError, CGEN
writes an all-invalid CODE, TSER writes nothing, BENC of a non-empty source raises SymbolNotInTableError,
BDEC with 0 < BITLEN <= 8 * SRC_LEN raises MalformedTreeError (R342). -/
def Obligations.ComponentCommandsAfterReset : Prop :=
  ∀ (v : Bool) (s : State), (∀ b, s.freq.get b = 0) → (∀ b, s.code.get b = none) → s.arena = none →
    (Ready (.tbuild v) s → ∃ t, exec (.tbuild v) s = .next t ∧ Completed (some .emptyInput) t)
    ∧ (Ready (.cgen v) s →
        ∃ t, exec (.cgen v) s = .next t ∧ Completed none t ∧ ∀ b, t.code.get b = none)
    ∧ (Ready (.tser v) s →
        ∃ t, exec (.tser v) s = .next t ∧ Succeeded 0 s t ∧ SameBuffer s t)
    ∧ (Ready (.benc v) s → 0 < s.operands.src.len →
        ∃ t, exec (.benc v) s = .next t ∧ Completed (some .symbolNotInTable) t)
    ∧ (Ready (.bdec v) s → 0 < s.operands.bitlen.toNat →
        s.operands.bitlen.toNat ≤ 8 * s.operands.src.len →
        ∃ t, exec (.bdec v) s = .next t ∧ Completed (some .malformedTree) t)

/-! ### NOP, FCOUNT, TBUILD -/

/-- NOP writes RESULT_LEN = 0 and completes: STATUS reads 0x00000002, ERRCODE 0x00, IRQ follows IE, and no
table, BITLEN or buffer byte changes (R280). -/
def Obligations.NopOnlyCompletes : Prop :=
  ∀ (v : Bool) (s : State), s.operands.corrupt = false →
    ∃ t, exec (.nop v) s = .next t ∧ Succeeded 0 s t ∧ t.statusWord = 0x00000002 ∧ t.irq = s.ie
      ∧ SameTables s t ∧ t.bitlen = s.bitlen ∧ SameBuffer s t

/-- FCOUNT counts the symbols of a non-empty source without wrap-around and changes nothing else but
RESULT_LEN = 0; an empty source is EmptyInputError with FREQ unchanged (R130, R131). -/
def Obligations.FcountCountsSourceBytes : Prop :=
  ∀ (v : Bool) (s : State), Ready (.fcount v) s →
    (0 < s.operands.src.len →
      ∃ t, exec (.fcount v) s = .next t ∧ Succeeded 0 s t
        ∧ (∀ b, (t.freq.get b).toNat = s.src.count b)
        ∧ t.code = s.code ∧ t.arena = s.arena ∧ t.bitlen = s.bitlen ∧ SameBuffer s t)
    ∧ (s.operands.src.len = 0 →
      ∃ t, exec (.fcount v) s = .next t ∧ Completed (some .emptyInput) t ∧ SameTables s t
        ∧ SameBuffer s t)

/-- TBUILD with some count above 0 completes (first clause): ARENA holds `build(FREQ)`, a tree with one leaf per present symbol, of its
count, hence 2k - 1 nodes and at most 511; CODE is all invalid; RESULT_LEN = 0; FREQ, BITLEN and the buffer
are unchanged; every internal frequency is the sum of its children's modulo 2^32 (the modulo is DEDUCED, log
entry 6), and when the counts sum to less than 2^32 every internal frequency is the sum of its children's
and the root's is the total (R140, R143, R146, R59).  Second clause: TBUILDs of the same FREQ report the same
error or build the same tree, whatever came before (R147). -/
def Obligations.TbuildBuildsTreeOfPresentSymbols : Prop :=
  (∀ (v : Bool) (s : State), s.operands.corrupt = false → (∃ b, s.freq.get b ≠ 0) →
    ∃ t T, buildTree s.freq = .ok T
      ∧ exec (.tbuild v) s = .next t ∧ Succeeded 0 s t ∧ t.arena = some T
      ∧ T.leaves.Perm ((symbols.filter fun b => decide (s.freq.get b ≠ 0)).map
          fun b => (b, s.freq.get b))
      ∧ T.leafCount = (symbols.filter fun b => decide (s.freq.get b ≠ 0)).length
      ∧ T.nodeCount = 2 * T.leafCount - 1 ∧ T.nodeCount ≤ 511
      ∧ T.moduloSums
      ∧ ((symbols.map fun b => (s.freq.get b).toNat).sum < 2 ^ 32 →
          T.exactSums ∧ T.freq.toNat = (symbols.map fun b => (s.freq.get b).toNat).sum)
      ∧ (∀ b, t.code.get b = none) ∧ t.freq = s.freq ∧ t.bitlen = s.bitlen ∧ SameBuffer s t)
  ∧ (∀ (v v' : Bool) (s u t t' : State), s.operands.corrupt = false → u.operands.corrupt = false →
      s.freq = u.freq → exec (.tbuild v) s = .next t → exec (.tbuild v') u = .next t' →
      t.errcode = t'.errcode ∧ (t.errcode = none → t.arena = t'.arena ∧ t.code = t'.code))

/-- The priority queue and `build`.  Keys (freq, seq) compare lexicographically.  The first queue holds the
leaves of the k present symbols, numbered 0 to k - 1 in ascending symbol order, in strictly ascending key order.
A merge removes the two entries that precede all others and inserts their parent, of the 32-bit sum, first
removed on the left, under the next sequence number; it keeps the order and every number below the next one.
`build(F)` is what k such merges at most, numbered from k, leave of the first queue; for k = 0 it is
EmptyInputError (R141, R142, R143, R145). -/
def Obligations.QueueKeepsKeyOrder : Prop :=
  (∀ a b : QEntry, a.before b = true ↔
      a.node.freq.toNat < b.node.freq.toNat
      ∨ a.node.freq.toNat = b.node.freq.toNat ∧ a.seq < b.seq)
  ∧ (∀ F : Table Word, (initialQueue F).Pairwise (fun a b => a.before b = true)
      ∧ (initialQueue F).Perm ((symbols.filter fun b => decide (F.get b ≠ 0)).zipIdx.map
          fun p => { seq := p.2, node := .leaf p.1 (F.get p.1) })
      ∧ ∀ a ∈ initialQueue F, a.seq < (symbols.filter fun b => decide (F.get b ≠ 0)).length)
  ∧ (∀ (q : List QEntry) (e : QEntry), q.Pairwise (fun a b => a.before b = true) →
      (∀ a ∈ q, a.seq ≠ e.seq) →
      (queueInsert e q).Pairwise (fun a b => a.before b = true) ∧ (queueInsert e q).Perm (e :: q))
  ∧ (∀ (n seq : Nat) (x y : QEntry) (q : List QEntry),
      mergeLoop (n + 1) seq (x :: y :: q) =
        mergeLoop n (seq + 1) (queueInsert
          { seq := seq, node := .internal (x.node.freq + y.node.freq) x.node y.node } q)
      ∧ mergeLoop n seq [x] = some x.node)
  ∧ (∀ (seq : Nat) (x y : QEntry) (q : List QEntry),
      (x :: y :: q).Pairwise (fun a b => a.before b = true) → (∀ a ∈ x :: y :: q, a.seq < seq) →
      (∀ a ∈ y :: q, x.before a = true) ∧ (∀ a ∈ q, y.before a = true)
      ∧ (queueInsert { seq := seq, node := .internal (x.node.freq + y.node.freq) x.node y.node }
          q).Pairwise (fun a b => a.before b = true)
      ∧ ∀ a ∈ queueInsert { seq := seq, node := .internal (x.node.freq + y.node.freq) x.node y.node } q,
          a.seq < seq + 1)
  ∧ (∀ (F : Table Word) (k : Nat), k = (symbols.filter fun b => decide (F.get b ≠ 0)).length →
      (∀ T, buildTree F = .ok T ↔ mergeLoop k k (initialQueue F) = some T)
      ∧ (buildTree F = .error .emptyInput ↔ k = 0))

/-- TBUILD while every count is 0 raises EmptyInputError and leaves ARENA, CODE, FREQ, BITLEN, RESULT_LEN
and the buffer unchanged (R145, R140, R303). -/
def Obligations.TbuildOfEmptyTableFails : Prop :=
  ∀ (v : Bool) (s : State), s.operands.corrupt = false → (∀ b, s.freq.get b = 0) →
    ∃ t, exec (.tbuild v) s = .next t ∧ Completed (some .emptyInput) t ∧ SameTables s t
      ∧ t.bitlen = s.bitlen ∧ t.resultLen = s.resultLen ∧ SameBuffer s t ∧ SameRegisters s t

/-- When exactly one symbol is present, TBUILD makes its leaf the tree, with no merge (R144). -/
def Obligations.TbuildOfOneSymbolIsLeaf : Prop :=
  ∀ (v : Bool) (s : State) (b : Byte), s.operands.corrupt = false → s.freq.get b ≠ 0 →
    (∀ c, c ≠ b → s.freq.get c = 0) →
    ∃ t, exec (.tbuild v) s = .next t ∧ Succeeded 0 s t ∧ t.arena = some (.leaf b (s.freq.get b))

/-! ### CGEN -/

/-- CGEN writes codes(ARENA): all invalid for the null tree; the one code 0 for a single leaf; else for each
symbol the path to its last leaf in pre-order, 0 for left and 1 for right, and invalid where it has none.
FREQ, ARENA, BITLEN and the buffer are unchanged, RESULT_LEN = 0 (R160 to R164). -/
def Obligations.CgenWritesLeafPaths : Prop :=
  ∀ (v : Bool) (s : State), s.operands.corrupt = false →
    ∃ t, exec (.cgen v) s = .next t ∧ Succeeded 0 s t ∧ t.freq = s.freq ∧ t.arena = s.arena
      ∧ t.bitlen = s.bitlen ∧ SameBuffer s t
      ∧ ∀ b, t.code.get b =
          match s.arena with
          | none => none
          | some (.leaf c _) => if b = c then some [false] else none
          | some (.internal f l r) =>
            (((Node.internal f l r).paths.filter fun p => decide (p.1 = b)).getLast?).map Prod.snd

/-- For a tree with at least two leaves and distinct symbols no valid code is a prefix of another, and
every valid code has length between 1 and the depth of the tree (R165). -/
def Obligations.CodesArePrefixFree : Prop :=
  ∀ (f : Word) (l r : Node), (Node.internal f l r).distinctSymbols →
    ∀ (a : Byte) (c : Bits), (codesOf (some (.internal f l r))).get a = some c →
      1 ≤ c.length ∧ c.length ≤ (Node.internal f l r).depth
      ∧ ∀ (b : Byte) (d : Bits), a ≠ b →
          (codesOf (some (.internal f l r))).get b = some d → ¬ c <+: d

/-! ### The tree codec -/

/-- The serialized form: nothing for the null tree, tag, symbol and frequency for a leaf, tag and subtrees
for an internal node; `10k - 1` bytes for k leaves (R221). -/
def Obligations.SerializedTreeFormat : Prop :=
  serTree none = []
  ∧ (∀ (b : Byte) (f : Word), serTree (some (.leaf b f)) =
      [0x01, b, 0x00, 0x00, 0x00, laneOf f 0, laneOf f 1, laneOf f 2, laneOf f 3])
  ∧ (∀ (f : Word) (l r : Node), serTree (some (.internal f l r)) =
      0x00 :: (serTree (some l) ++ serTree (some r)))
  ∧ (∀ T : Node, (serTree (some T)).length = 10 * T.leafCount - 1)

/-- TSER writes ser(ARENA) at DST_ADDR when it fits DST_CAP, with RESULT_LEN its length, and changes nothing
else; when it does not fit it raises CapacityError (R220). -/
def Obligations.TserWritesSerializedTree : Prop :=
  ∀ (v : Bool) (s : State), Ready (.tser v) s →
    ((serTree s.arena).length ≤ s.operands.dstCap.toNat →
      ∃ t, exec (.tser v) s = .next t ∧ Succeeded (serTree s.arena).length s t
        ∧ WroteBytes s.operands.dst.addr (serTree s.arena) s t ∧ SameTables s t
        ∧ t.bitlen = s.bitlen)
    ∧ (s.operands.dstCap.toNat < (serTree s.arena).length →
      ∃ t, exec (.tser v) s = .next t ∧ Completed (some .capacity) t)

/-- Deserialize and serialize agree in both directions: `des` accepts a byte string with tree `T` exactly
when it is `ser(T)`, `T` has at most NODE_CAP nodes, and its internal frequencies are the sums modulo 2^32
of their children's; and every tree that a command which writes ARENA (TBUILD, TDES, CENC, CDEC) leaves there on
success is read back from its serialized form (R237, R231, R232). -/
def Obligations.DeserializeInvertsSerialize : Prop :=
  (∀ (cap : Nat) (buf : List Byte) (T : Arena),
    desTree cap buf = .ok T ↔ serTree T = buf ∧ Arena.nodeCount T ≤ cap ∧ T.moduloSums)
  ∧ (∀ (i : Instr) (s t : State), i.opcode ∈ [0x02, 0x05, 0x0A, 0x0B] → 511 ≤ s.params.nodeCap →
      s.operands.corrupt = false → exec i s = .next t → t.errcode = none →
      desTree s.params.nodeCap (serTree t.arena) = .ok t.arena)

/-- What `des` refuses: bytes after the root's subtree (MalformedTreeError), a tree of more than NODE_CAP
nodes whatever follows it (CapacityError); and wherever the parse, within NODE_CAP nodes, comes to the next
node: the end of a non-empty buffer, a tag above 0x01, a leaf cut short and a symbol field above 0xFF are
MalformedTreeError, a legal tag after NODE_CAP nodes is CapacityError; no other error is possible (R231, R234,
R235, R236). -/
def Obligations.DeserializeRefusals : Prop :=
  (∀ (cap : Nat) (T : Node) (x : Byte) (xs : List Byte), T.nodeCount ≤ cap →
    desTree cap (serNode T ++ x :: xs) = .error .malformedTree)
  ∧ (∀ (cap : Nat) (T : Node) (rest : List Byte), cap < T.nodeCount →
      desTree cap (serNode T ++ rest) = .error .capacity)
  ∧ (∀ (cap : Nat) (way : List (Option Node)), nodesBefore way ≤ cap →
      (way ≠ [] → desTree cap (streamBefore way) = .error .malformedTree)
      ∧ (∀ (tag : Byte) (rest : List Byte), 0x01 < tag.toNat →
          desTree cap (streamBefore way ++ tag :: rest) = .error .malformedTree)
      ∧ (∀ (tag : Byte) (rest : List Byte), tag.toNat ≤ 0x01 → nodesBefore way = cap →
          desTree cap (streamBefore way ++ tag :: rest) = .error .capacity)
      ∧ (∀ rest : List Byte, nodesBefore way < cap → rest.length < 8 →
          desTree cap (streamBefore way ++ 0x01 :: rest) = .error .malformedTree)
      ∧ (∀ (sym : Word) (rest : List Byte), nodesBefore way < cap → 0xFF < sym.toNat →
          desTree cap (streamBefore way ++ 0x01 :: (u32le sym ++ rest)) = .error .malformedTree))
  ∧ (∀ (cap : Nat) (buf : List Byte) (e : CmdError), desTree cap buf = .error e →
      e = .malformedTree ∨ e = .capacity)

/-- TDES of the serialized form of a tree that fits the arena, or of any source that `des` accepts, puts that
tree in ARENA and makes CODE all invalid, with RESULT_LEN = 0; FREQ, BITLEN and the buffer are unchanged.  A
source that `des` refuses completes with its error, ARENA, CODE and all else unchanged (R230, R237, R231). -/
def Obligations.TdesLoadsSerializedTree : Prop :=
  ∀ (v : Bool) (s : State), Ready (.tdes v) s →
    (∀ T : Arena,
      (s.src = serTree T ∧ Arena.nodeCount T ≤ s.params.nodeCap ∧ T.moduloSums
        ∨ desTree s.params.nodeCap s.src = .ok T) →
      ∃ t, exec (.tdes v) s = .next t ∧ Succeeded 0 s t ∧ t.arena = T ∧ (∀ b, t.code.get b = none)
        ∧ t.freq = s.freq ∧ t.bitlen = s.bitlen ∧ SameBuffer s t)
    ∧ ∀ e, desTree s.params.nodeCap s.src = .error e →
        ∃ t, exec (.tdes v) s = .next t ∧ Completed (some e) t ∧ SameTables s t ∧ t.bitlen = s.bitlen
          ∧ t.resultLen = s.resultLen ∧ SameBuffer s t ∧ SameRegisters s t

/-! ### Packing -/

/-- The packed form: `ceil(n / 8)` bytes, bit `i` of the sequence in bit `7 - (i mod 8)` of byte `i div 8`,
and the low-order bits of the last byte beyond `n` 0 (R181, R74). -/
def Obligations.PackPutsFirstBitHighest : Prop :=
  ∀ bits : Bits, (pack bits).length = (bits.length + 7) / 8
    ∧ ∀ i, i < 8 * ((bits.length + 7) / 8) →
        (byteAt (pack bits) (i / 8)).getLsbD (7 - i % 8) = bits.getD i false

/-- The unpacked form: TruncatedPayloadError when more bits are asked for than the bytes hold, else `n` bits,
bit `i` being bit `7 - (i mod 8)` of byte `i div 8`; nothing beyond bit `n` matters (R182). -/
def Obligations.UnpackReadsFirstBitHighest : Prop :=
  ∀ (buf : List Byte) (n : Nat),
    (8 * buf.length < n → unpack buf n = .error .truncatedPayload)
    ∧ (n ≤ 8 * buf.length → ∃ bits, unpack buf n = .ok bits ∧ bits.length = n
        ∧ ∀ i, i < n → bits.getD i false = (byteAt buf (i / 8)).getLsbD (7 - i % 8))

/-- Packing round trip: unpacking `len(bits)` bits of the packed form, whatever bytes follow it, gives the
bits back (R183, R182). -/
def Obligations.UnpackInvertsPack : Prop :=
  ∀ (bits : Bits) (extra : List Byte), unpack (pack bits ++ extra) bits.length = .ok bits

/-- BPACK of a source of 0x00 and 0x01 bytes writes the packed bits at DST_ADDR, BITLEN = SRC_LEN and
RESULT_LEN = ceil(SRC_LEN / 8), and leaves the tables and every other byte alone; another byte is
InvalidBitError, and otherwise too small a DST_CAP is CapacityError (R180, R184). -/
def Obligations.BpackPacksBitPerByteSource : Prop :=
  ∀ (v : Bool) (s : State), Ready (.bpack v) s →
    ((∀ b ∈ s.src, b = 0x00 ∨ b = 0x01) →
      ((s.operands.src.len + 7) / 8 ≤ s.operands.dstCap.toNat →
        ∃ t, exec (.bpack v) s = .next t ∧ Succeeded ((s.operands.src.len + 7) / 8) s t
          ∧ WroteBytes s.operands.dst.addr (pack (s.src.map fun b => decide (b = 0x01))) s t
          ∧ t.bitlen = s.operands.srcLen ∧ SameTables s t)
      ∧ (s.operands.dstCap.toNat < (s.operands.src.len + 7) / 8 →
        ∃ t, exec (.bpack v) s = .next t ∧ Completed (some .capacity) t))
    ∧ ((∃ b ∈ s.src, b ≠ 0x00 ∧ b ≠ 0x01) →
        ∃ t, exec (.bpack v) s = .next t ∧ Completed (some .invalidBit) t)

/-- BUNPACK writes BITLEN bits at DST_ADDR, one per byte, bit `i` from bit `7 - (i mod 8)` of source byte
`i div 8`, RESULT_LEN = BITLEN, and leaves BITLEN, the tables and every other byte alone; more bits than the
source holds is TruncatedPayloadError, and otherwise too small a DST_CAP is CapacityError (R185). -/
def Obligations.BunpackUnpacksOneBitPerByte : Prop :=
  ∀ (v : Bool) (s : State), Ready (.bunpack v) s →
    (s.operands.bitlen.toNat ≤ 8 * s.operands.src.len →
      (s.operands.bitlen.toNat ≤ s.operands.dstCap.toNat →
        ∃ t out, exec (.bunpack v) s = .next t ∧ Succeeded s.operands.bitlen.toNat s t
          ∧ out.length = s.operands.bitlen.toNat
          ∧ (∀ i, i < s.operands.bitlen.toNat → byteAt out i =
              if (byteAt s.src (i / 8)).getLsbD (7 - i % 8) then 0x01 else 0x00)
          ∧ WroteBytes s.operands.dst.addr out s t ∧ SameTables s t ∧ t.bitlen = s.bitlen)
      ∧ (s.operands.dstCap.toNat < s.operands.bitlen.toNat →
        ∃ t, exec (.bunpack v) s = .next t ∧ Completed (some .capacity) t))
    ∧ (8 * s.operands.src.len < s.operands.bitlen.toNat →
        ∃ t, exec (.bunpack v) s = .next t ∧ Completed (some .truncatedPayload) t)

/-! ### Encoding and decoding through the tree -/

/-- BENC: when every source byte has a code, the codes one after the other are packed at DST_ADDR, BITLEN is
their bit count, RESULT_LEN the byte count, and the tables and every other byte are unchanged; a bit count
above 2^32 - 1 or an output above DST_CAP is CapacityError; a source byte without a code is
SymbolNotInTableError (R190, R191). -/
def Obligations.BencPacksCodesOfSource : Prop :=
  ∀ (v : Bool) (s : State), Ready (.benc v) s →
    (∀ code : Byte → Bits, (∀ b ∈ s.src, s.code.get b = some (code b)) →
      ((s.src.flatMap code).length ≤ 2 ^ 32 - 1 →
        ((s.src.flatMap code).length + 7) / 8 ≤ s.operands.dstCap.toNat →
        ∃ t, exec (.benc v) s = .next t
          ∧ Succeeded (((s.src.flatMap code).length + 7) / 8) s t
          ∧ WroteBytes s.operands.dst.addr (pack (s.src.flatMap code)) s t
          ∧ t.bitlen.toNat = (s.src.flatMap code).length ∧ SameTables s t)
      ∧ (2 ^ 32 - 1 < (s.src.flatMap code).length
          ∨ s.operands.dstCap.toNat < ((s.src.flatMap code).length + 7) / 8 →
        ∃ t, exec (.benc v) s = .next t ∧ Completed (some .capacity) t))
    ∧ ((∃ b ∈ s.src, s.code.get b = none) →
        ∃ t, exec (.benc v) s = .next t ∧ Completed (some .symbolNotInTable) t)

/-- The decode walk: for a tree of at least two leaves, bits decode to `out` exactly when they are the paths
of leaves, one after the other, and `out` their symbols; bits that end inside a code are
TruncatedPayloadError and nothing else goes wrong.  A single leaf takes one 0 bit per symbol and refuses a
1 bit; the null tree decodes no bits to nothing and refuses any bit (R201 to R205). -/
def Obligations.DecodeWalkInvertsPaths : Prop :=
  (∀ (f : Word) (l r : Node) (bits : Bits) (out : List Byte),
    decodeTree (some (.internal f l r)) bits = .ok out ↔
      ∃ ps : List (Byte × Bits), (∀ p ∈ ps, p ∈ (Node.internal f l r).paths)
        ∧ ps.flatMap Prod.snd = bits ∧ ps.map Prod.fst = out)
  ∧ (∀ (f : Word) (l r : Node) (bits : Bits) (e : CmdError),
      decodeTree (some (.internal f l r)) bits = .error e → e = .truncatedPayload)
  ∧ (∀ (b : Byte) (f : Word) (bits : Bits),
      ((∀ x ∈ bits, x = false) →
        decodeTree (some (.leaf b f)) bits = .ok (List.replicate bits.length b))
      ∧ ((∃ x ∈ bits, x = true) → decodeTree (some (.leaf b f)) bits = .error .invalidCode))
  ∧ decodeTree none [] = .ok []
  ∧ ∀ (x : Bool) (bits : Bits), decodeTree none (x :: bits) = .error .malformedTree

/-- BDEC: the unpack check comes first (TruncatedPayloadError), then the walk of ARENA over the first BITLEN
bits decides: its output is written at DST_ADDR when it fits DST_CAP, with RESULT_LEN its length and BITLEN,
the tables and every other byte unchanged, is CapacityError when it does not, and its error is reported
when it has one (R200). -/
def Obligations.BdecWritesDecodedBytes : Prop :=
  ∀ (v : Bool) (s : State), Ready (.bdec v) s →
    (8 * s.operands.src.len < s.operands.bitlen.toNat →
      ∃ t, exec (.bdec v) s = .next t ∧ Completed (some .truncatedPayload) t)
    ∧ ∀ bits, unpack s.src s.operands.bitlen.toNat = .ok bits →
      (∀ out, decodeTree s.arena bits = .ok out →
        (out.length ≤ s.operands.dstCap.toNat →
          ∃ t, exec (.bdec v) s = .next t ∧ Succeeded out.length s t
            ∧ WroteBytes s.operands.dst.addr out s t ∧ SameTables s t ∧ t.bitlen = s.bitlen)
        ∧ (s.operands.dstCap.toNat < out.length →
          ∃ t, exec (.bdec v) s = .next t ∧ Completed (some .capacity) t))
      ∧ ∀ e, decodeTree s.arena bits = .error e →
          ∃ t, exec (.bdec v) s = .next t ∧ Completed (some e) t

/-! ### The container -/

/-- CENC of a non-empty source: with the counts of the source, the tree built from them, its codes and the
encoded bits, the container is written at DST_ADDR when it fits, FREQ, ARENA, CODE, BITLEN and RESULT_LEN
are set, and every other byte is unchanged; a bit count above 2^32 - 1 or a container that does not fit is
CapacityError; an empty source is EmptyContentError (R250, R251). -/
def Obligations.CencWritesContainer : Prop :=
  ∀ (v : Bool) (s : State), Ready (.cenc v) s →
    (s.operands.src.len = 0 →
      ∃ t, exec (.cenc v) s = .next t ∧ Completed (some .emptyContent) t)
    ∧ (0 < s.operands.src.len → ∀ (F : Table Word) (T : Node),
        countSymbols s.src = .ok F → buildTree F = .ok T →
        (encodeBits (codesOf (some T)) s.src = .error .capacity →
          ∃ t, exec (.cenc v) s = .next t ∧ Completed (some .capacity) t)
        ∧ ∀ bits : Bits, encodeBits (codesOf (some T)) s.src = .ok bits →
        (8 + (serNode T).length + (bits.length + 7) / 8 ≤ s.operands.dstCap.toNat →
          ∃ t, exec (.cenc v) s = .next t
            ∧ Succeeded (8 + (serNode T).length + (bits.length + 7) / 8) s t
            ∧ WroteBytes s.operands.dst.addr
                (u32le (BitVec.ofNat 32 (serNode T).length) ++ serNode T
                  ++ u32le (BitVec.ofNat 32 bits.length) ++ pack bits) s t
            ∧ t.freq = F ∧ t.arena = some T ∧ t.code = codesOf (some T)
            ∧ t.bitlen.toNat = bits.length)
        ∧ (s.operands.dstCap.toNat < 8 + (serNode T).length + (bits.length + 7) / 8 →
          ∃ t, exec (.cenc v) s = .next t ∧ Completed (some .capacity) t))

/-- The steps of CENC before its capacity checks cannot fail on a non-empty source of at most 2^32 - 1 bytes: the counts are exact,
the tree exists with exact sums, distinct symbols and the source's length at its root, and every source byte
has a code; so only the bit count can exceed 2^32 - 1 (R250, R146, R131). -/
def Obligations.CencEncodesEverySource : Prop :=
  ∀ src : List Byte, src ≠ [] → src.length < 2 ^ 32 →
    ∃ F T, countSymbols src = .ok F ∧ (∀ b, (F.get b).toNat = src.count b)
      ∧ buildTree F = .ok T ∧ T.exactSums ∧ T.distinctSymbols ∧ T.freq.toNat = src.length
      ∧ (∀ b ∈ src, ∃ c, (codesOf (some T)).get b = some c)
      ∧ ((∃ bits, encodeBits (codesOf (some T)) src = .ok bits)
          ∨ encodeBits (codesOf (some T)) src = .error .capacity)

/-- CDEC: a source below 8 bytes is TruncatedHeaderError; a treeLength above SRC_LEN - 8 is
InconsistentLengthError; an error of `des` on the tree slice, then of `decode` on the rest of the source, is
reported; else the content is written at DST_ADDR when it fits, ARENA, CODE (all invalid), BITLEN and
RESULT_LEN are set, FREQ and every other byte are unchanged; when it does not fit it is CapacityError
(R260, R261). -/
def Obligations.CdecReadsContainer : Prop :=
  ∀ (v : Bool) (s : State), Ready (.cdec v) s →
    (s.operands.src.len < 8 →
      ∃ t, exec (.cdec v) s = .next t ∧ Completed (some .truncatedHeader) t)
    ∧ (8 ≤ s.operands.src.len → s.operands.src.len < rdU32le s.src 0 + 8 →
      ∃ t, exec (.cdec v) s = .next t ∧ Completed (some .inconsistentLength) t)
    ∧ (rdU32le s.src 0 + 8 ≤ s.operands.src.len →
      (∀ e, desTree s.params.nodeCap (byteSlice s.src 4 (4 + rdU32le s.src 0)) = .error e →
        ∃ t, exec (.cdec v) s = .next t ∧ Completed (some e) t)
      ∧ ∀ T, desTree s.params.nodeCap (byteSlice s.src 4 (4 + rdU32le s.src 0)) = .ok T →
        (∀ e, decodePayload T (s.src.drop (8 + rdU32le s.src 0))
            (rdU32le s.src (4 + rdU32le s.src 0)) = .error e →
          ∃ t, exec (.cdec v) s = .next t ∧ Completed (some e) t)
        ∧ ∀ out, decodePayload T (s.src.drop (8 + rdU32le s.src 0))
            (rdU32le s.src (4 + rdU32le s.src 0)) = .ok out →
          (out.length ≤ s.operands.dstCap.toNat →
            ∃ t, exec (.cdec v) s = .next t ∧ Succeeded out.length s t
              ∧ WroteBytes s.operands.dst.addr out s t ∧ t.arena = T ∧ (∀ b, t.code.get b = none)
              ∧ t.bitlen.toNat = rdU32le s.src (4 + rdU32le s.src 0) ∧ t.freq = s.freq)
          ∧ (s.operands.dstCap.toNat < out.length →
            ∃ t, exec (.cdec v) s = .next t ∧ Completed (some .capacity) t))

/-- Container round trip: when CENC of a content succeeds, CDEC of the bytes it wrote, on any core with
enough DST_CAP, succeeds and writes exactly that content (R262). -/
def Obligations.CdecInvertsCenc : Prop :=
  ∀ (v v' : Bool) (s t u : State), Ready (.cenc v) s → exec (.cenc v) s = .next t → t.errcode = none →
    Ready (.cdec v') u → u.src = t.memRead s.operands.dst.addr t.resultLen.toNat →
    511 ≤ u.params.nodeCap → s.src.length ≤ u.operands.dstCap.toNat →
    ∃ t', exec (.cdec v') u = .next t' ∧ Succeeded s.src.length u t'
      ∧ WroteBytes u.operands.dst.addr s.src u t' ∧ t'.bitlen = t.bitlen ∧ t'.arena = t.arena

/-- Statelessness: the error of CENC or CDEC, and on success the bytes it writes, BITLEN and RESULT_LEN,
depend on the source bytes and DST_CAP alone, not on FREQ, CODE, ARENA or anything before (R253), for commands
that pass the common checks, on cores of equal NODE_CAP. -/
def Obligations.ContainerCommandsAreStateless : Prop :=
  ∀ (v v' : Bool) (s u t t' : State), s.src = u.src → s.operands.dstCap = u.operands.dstCap →
    s.params.nodeCap = u.params.nodeCap →
    (Ready (.cenc v) s ∧ Ready (.cenc v') u ∧ exec (.cenc v) s = .next t ∧ exec (.cenc v') u = .next t'
      ∨ Ready (.cdec v) s ∧ Ready (.cdec v') u ∧ exec (.cdec v) s = .next t
        ∧ exec (.cdec v') u = .next t') →
    t.errcode = t'.errcode
      ∧ (t.errcode = none → t.bitlen = t'.bitlen ∧ t.resultLen = t'.resultLen
        ∧ t.memRead s.operands.dst.addr t.resultLen.toNat
            = t'.memRead u.operands.dst.addr t'.resultLen.toNat)

/-! ### Completions of every command -/

/-- The common checks, for every command: a source range past BUF_SIZE is BoundsError, else a destination
range past BUF_SIZE is BoundsError, else two non-empty ranges that share a byte are OverlapError, each only
where the command uses the range; no buffer byte, table, BITLEN or RESULT_LEN changes (R306, R86, R88).  FCOUNT,
TDES, BENC, BDEC, BPACK, BUNPACK, CENC and CDEC read the source; TSER, BENC, BDEC, BPACK, BUNPACK, CENC and
CDEC write the destination; NOP, TBUILD and CGEN raise neither error whatever their operands (R104, R300). -/
def Obligations.CommonChecksComeFirst : Prop :=
  ∀ (i : Instr) (s : State), s.operands.corrupt = false →
    (i.opcode ∈ [0x00, 0x02, 0x03] → ∀ t, exec i s = .next t →
      t.errcode ≠ some .bounds ∧ t.errcode ≠ some .overlap)
    ∧ (i.opcode ∈ [0x01, 0x05, 0x06, 0x07, 0x08, 0x09, 0x0A, 0x0B]
        ∧ s.params.bufSize < s.operands.src.addr + s.operands.src.len
      ∨ i.opcode ∈ [0x04, 0x06, 0x07, 0x08, 0x09, 0x0A, 0x0B]
        ∧ s.params.bufSize < s.operands.dst.addr + s.operands.dst.len →
      ∃ t, exec i s = .next t ∧ Completed (some .bounds) t ∧ SameTables s t ∧ t.bitlen = s.bitlen
        ∧ t.resultLen = s.resultLen ∧ SameBuffer s t ∧ SameRegisters s t)
    ∧ (i.opcode ∈ [0x06, 0x07, 0x08, 0x09, 0x0A, 0x0B] →
      s.operands.src.addr + s.operands.src.len ≤ s.params.bufSize →
      s.operands.dst.addr + s.operands.dst.len ≤ s.params.bufSize →
      0 < s.operands.src.len → 0 < s.operands.dst.len →
      s.operands.src.addr < s.operands.dst.addr + s.operands.dst.len →
      s.operands.dst.addr < s.operands.src.addr + s.operands.src.len →
      ∃ t, exec i s = .next t ∧ Completed (some .overlap) t ∧ SameTables s t ∧ t.bitlen = s.bitlen
        ∧ t.resultLen = s.resultLen ∧ SameBuffer s t ∧ SameRegisters s t)

/-- An error is precise: it sets ERRCODE and DONE and clears BUSY; FREQ, CODE, ARENA, BITLEN, RESULT_LEN and
every buffer byte outside the destination range keep their values, and every buffer byte does after a bounds
or overlap error or when the command does not write the destination (R303). -/
def Obligations.ErrorCompletionIsPrecise : Prop :=
  ∀ (i : Instr) (s t : State) (e : CmdError), s.operands.corrupt = false → exec i s = .next t →
    t.errcode = some e →
    Completed (some e) t ∧ SameTables s t ∧ t.bitlen = s.bitlen ∧ t.resultLen = s.resultLen
      ∧ SameRegisters s t
      ∧ (∀ a, a < s.operands.dst.addr ∨ s.operands.dst.addr + s.operands.dst.len ≤ a →
          t.readByte a = s.readByte a)
      ∧ (e = .bounds ∨ e = .overlap ∨ (rowOf i).writesDst = false → SameBuffer s t)

/-- A success writes only what the opcode map lists: tables and BITLEN outside the command's row are
unchanged, the buffer changes at most in the RESULT_LEN bytes from DST_ADDR, which fit DST_CAP, and not at all for a command
that writes no destination, whose RESULT_LEN is 0 (R302, R87, R104, R44). -/
def Obligations.SuccessWritesOnlyItsRow : Prop :=
  ∀ (i : Instr) (s t : State), s.operands.corrupt = false → exec i s = .next t → t.errcode = none →
    Completed none t ∧ SameRegisters s t
      ∧ ((rowOf i).writesFreq = false → t.freq = s.freq)
      ∧ ((rowOf i).writesArena = false → t.arena = s.arena)
      ∧ ((rowOf i).writesCode = false → t.code = s.code)
      ∧ ((rowOf i).writesBitlen = false → t.bitlen = s.bitlen)
      ∧ ((rowOf i).writesDst = false → t.resultLen = 0 ∧ SameBuffer s t)
      ∧ ((rowOf i).writesDst = true → t.resultLen.toNat ≤ s.operands.dst.len)
      ∧ (∀ a, a < s.operands.dst.addr ∨ s.operands.dst.addr + t.resultLen.toNat ≤ a →
          t.readByte a = s.readByte a)

/-- The error matrix: a command that is not corrupted reports only errors of its row of the matrix (R308). -/
def Obligations.CommandsReportOnlyTheirErrors : Prop :=
  ∀ (i : Instr) (s t : State) (e : CmdError), s.operands.corrupt = false → exec i s = .next t →
    t.errcode = some e → e ∈ errorsOf i

/-- A corrupted completion still completes: BUSY = 0, DONE = 1; whatever its row does not list is unchanged,
so is every byte outside the destination range, and all bytes for a command that does not write it; ARENA
stays within NODE_CAP (R304).  An illegal word has no row, so its corrupted completion changes no table, no
BITLEN, no RESULT_LEN and no buffer byte (R304 with R285; DEDUCED, log entry 9). -/
def Obligations.CorruptedCompletionIsConfined : Prop :=
  (∀ (i : Instr) (s : State), s.operands.corrupt = true →
    ∃ t, exec i s = .next t ∧ t.busy = false ∧ t.done = true ∧ SameRegisters s t
      ∧ ((rowOf i).writesFreq = false → t.freq = s.freq)
      ∧ ((rowOf i).writesArena = false → t.arena = s.arena)
      ∧ ((rowOf i).writesArena = true → Arena.nodeCount t.arena ≤ s.params.nodeCap)
      ∧ ((rowOf i).writesCode = false → t.code = s.code)
      ∧ ((rowOf i).writesBitlen = false → t.bitlen = s.bitlen)
      ∧ ((rowOf i).writesDst = false → SameBuffer s t)
      ∧ (∀ a, a < s.operands.dst.addr ∨ s.operands.dst.addr + s.operands.dst.len ≤ a →
          t.readByte a = s.readByte a))
  ∧ (∀ (s : State) (P : Pending) (e : DecodeError), s.pending = some P → P.corrupt = true →
      decode P.word = .error e →
      ∃ t, engineStep s = .next t ∧ t.busy = false ∧ t.done = true ∧ SameRegisters s t ∧ SameTables s t
        ∧ t.bitlen = s.bitlen ∧ t.resultLen = s.resultLen ∧ SameBuffer s t)

/-- The code table never describes another tree than the one in ARENA: a step that completes no corrupted
command keeps CODE equal to codes(ARENA) or all invalid, and it is so after reset (R352). -/
def Obligations.CodeTableFollowsTree : Prop :=
  (∀ p, (State.resetWith p).codeMatchesTree)
  ∧ (∀ s t : State, s.codeMatchesTree → (∀ P, s.pending = some P → P.corrupt = false) →
      step s = .next t → t.codeMatchesTree)

/-- The rows of the opcode map: for every command, whether it reads the source and writes the destination, and
which of FREQ, ARENA, CODE, BITLEN and RESULT_LEN it writes on success (R104). -/
def Obligations.RowsAreTheOpcodeMap : Prop :=
  ∀ v : Bool,
    rowOf (.nop v) = ⟨false, false, false, false, false, false, true⟩
    ∧ rowOf (.fcount v) = ⟨true, false, true, false, false, false, true⟩
    ∧ rowOf (.tbuild v) = ⟨false, false, false, true, true, false, true⟩
    ∧ rowOf (.cgen v) = ⟨false, false, false, false, true, false, true⟩
    ∧ rowOf (.tser v) = ⟨false, true, false, false, false, false, true⟩
    ∧ rowOf (.tdes v) = ⟨true, false, false, true, true, false, true⟩
    ∧ rowOf (.benc v) = ⟨true, true, false, false, false, true, true⟩
    ∧ rowOf (.bdec v) = ⟨true, true, false, false, false, false, true⟩
    ∧ rowOf (.bpack v) = ⟨true, true, false, false, false, true, true⟩
    ∧ rowOf (.bunpack v) = ⟨true, true, false, false, false, false, true⟩
    ∧ rowOf (.cenc v) = ⟨true, true, true, true, true, true, true⟩
    ∧ rowOf (.cdec v) = ⟨true, true, false, true, true, true, true⟩
end

