-- ==== Sys2Proof/Laws/Tables.lean ====
section
/-!
SUPPORT. The small lemmas of tables, byte strings and computations that can raise an error.
-/

namespace Sys2Proof

@[simp] theorem Table.get_ofFun {α : Type} (f : Byte → α) (s : Byte) : (Table.ofFun f).get s = f s := by
  simp [Table.get, Table.ofFun, symbols]

@[simp] theorem Table.get_const {α : Type} (v : α) (s : Byte) : (Table.const v).get s = v := by
  simp [Table.get, Table.const]

@[simp] theorem Table.get_set_same {α : Type} (t : Table α) (s : Byte) (v : α) :
    (t.set s v).get s = v := by
  simp [Table.get, Table.set]

theorem Table.get_set_of_ne {α : Type} (t : Table α) {s r : Byte} (v : α) (h : s ≠ r) :
    (t.set s v).get r = t.get r := by
  have hn : s.toNat ≠ r.toNat := fun e => h (BitVec.eq_of_toNat_eq e)
  simp [Table.get, Table.set, Vector.getElem_set_ne, hn]

theorem Table.get_set {α : Type} (t : Table α) (s r : Byte) (v : α) :
    (t.set s v).get r = if s = r then v else t.get r := by
  by_cases h : s = r
  · subst h; simp
  · simp [h, Table.get_set_of_ne]

/-- Two tables that agree at every symbol are equal. -/
theorem Table.ext_get {α : Type} {t u : Table α} (h : ∀ s, t.get s = u.get s) : t = u := by
  apply Vector.ext
  intro i hi
  have := h (BitVec.ofNat 8 i)
  simpa [Table.get, Nat.mod_eq_of_lt hi] using this

theorem mem_symbols (s : Byte) : s ∈ symbols := by
  simp only [symbols, List.mem_map, List.mem_range]
  exact ⟨s.toNat, s.isLt, by simp⟩

theorem symbols_nodup : symbols.Nodup := by
  unfold symbols
  refine (List.nodup_map_iff_inj_on List.nodup_range).2 fun a ha b hb h => ?_
  have := congrArg BitVec.toNat h
  simpa [Nat.mod_eq_of_lt (List.mem_range.1 ha), Nat.mod_eq_of_lt (List.mem_range.1 hb)] using this

theorem symbols_length : symbols.length = 256 := by simp [symbols]

@[simp] theorem u32le_length (v : Word) : (u32le v).length = 4 := rfl

/-- Reading back the four bytes of a word gives its value (R17). -/
theorem rdU32le_u32le (v : Word) (rest : List Byte) : rdU32le (u32le v ++ rest) 0 = v.toNat := by
  have h := v.isLt
  simp [rdU32le, u32le, byteAt, BitVec.extractLsb'_toNat, Nat.shiftRight_eq_div_pow]
  omega

/-! ### Computations that can raise an error -/

@[simp] theorem except_bind_ok {α β : Type} (a : α) (f : α → Except CmdError β) :
    ((Except.ok a : Except CmdError α) >>= f) = f a := rfl

@[simp] theorem except_bind_error {α β : Type} (e : CmdError) (f : α → Except CmdError β) :
    ((Except.error e : Except CmdError α) >>= f) = Except.error e := rfl

/-- A sequence of two computations succeeds exactly when both do. -/
theorem except_bind_eq_ok {α β : Type} {x : Except CmdError α} {f : α → Except CmdError β} {b : β} :
    (x >>= f) = .ok b ↔ ∃ a, x = .ok a ∧ f a = .ok b := by
  cases x <;> simp

/-- A sequence of two computations raises the first error. -/
theorem except_bind_eq_error {α β : Type} {x : Except CmdError α} {f : α → Except CmdError β}
    {e : CmdError} :
    (x >>= f) = .error e ↔ x = .error e ∨ ∃ a, x = .ok a ∧ f a = .error e := by
  cases x <;> simp

end Sys2Proof
end

