-- ==== Sys2Proof/Laws/Memory.lean ====
section
/-!
SUPPORT. The buffer: reading what was written, leaving the rest alone, and keeping the canonical form.
-/

namespace Sys2Proof.Machine

@[simp] theorem Memory.writeBytes_nil (m : Memory) (a : Nat) : m.writeBytes a [] = m := rfl

theorem Memory.writeBytes_eq (m : Memory) (a : Nat) {bytes : List Byte} (h : bytes ≠ []) :
    m.writeBytes a bytes =
      m.filter (fun c => decide (c.1 < a)) ++ (List.range' a bytes.length).zip bytes
        ++ m.filter (fun c => decide (a + bytes.length ≤ c.1)) := by
  cases bytes with
  | nil => exact absurd rfl h
  | cons b bs => rfl

theorem Memory.lookup_append (m n : Memory) (k : Nat) :
    Memory.lookup (m ++ n) k = (m.lookup k).or (n.lookup k) := by
  simp only [Memory.lookup, List.find?_append]
  cases List.find? (fun c => c.1 == k) m <;> simp

/-- A filter by offset keeps the listed byte of an offset it lets through and hides the others. -/
theorem Memory.lookup_filter (m : Memory) (p : Nat → Bool) (k : Nat) :
    Memory.lookup (m.filter fun c => p c.1) k = if p k then m.lookup k else none := by
  induction m with
  | nil => simp [Memory.lookup]
  | cons c m ih =>
    simp only [Memory.lookup, List.filter_cons] at ih ⊢
    by_cases hk : c.1 = k
    · by_cases hp : p c.1 <;> simp_all
    · by_cases hp : p c.1 <;> simp_all

/-- The listed bytes of a consecutive run. -/
theorem Memory.lookup_run (bytes : List Byte) (a k : Nat) :
    Memory.lookup ((List.range' a bytes.length).zip bytes) k =
      if a ≤ k then bytes[k - a]? else none := by
  induction bytes generalizing a with
  | nil => simp [Memory.lookup]
  | cons b bs ih =>
    have h := ih (a + 1)
    simp only [Memory.lookup] at h ⊢
    simp only [List.length_cons, List.range'_succ, List.zip_cons_cons, List.find?_cons]
    by_cases hak : a = k
    · subst hak; simp
    · simp only [beq_eq_false_iff_ne.2 hak, h]
      by_cases hle : a + 1 ≤ k
      · have h1 : k - a = (k - (a + 1)) + 1 := by omega
        simp [hle, show a ≤ k by omega, h1]
      · simp [hle, show ¬ a ≤ k by omega]

/-- What a write lists: its own bytes at its offsets, and what stood elsewhere. -/
theorem Memory.lookup_writeBytes (m : Memory) (a k : Nat) (bytes : List Byte) :
    (m.writeBytes a bytes).lookup k =
      if a ≤ k ∧ k < a + bytes.length then bytes[k - a]? else m.lookup k := by
  by_cases h : bytes = []
  · subst h
    simp only [Memory.writeBytes_nil, List.length_nil]
    rw [if_neg (by omega)]
  · rw [Memory.writeBytes_eq m a h, Memory.lookup_append, Memory.lookup_append, Memory.lookup_run,
      Memory.lookup_filter m (fun x => decide (x < a)),
      Memory.lookup_filter m (fun x => decide (a + bytes.length ≤ x))]
    by_cases h1 : k < a
    · simp [h1, show ¬ a ≤ k by omega, show ¬ a + bytes.length ≤ k by omega]
    · by_cases h2 : k < a + bytes.length
      · have h3 : k - a < bytes.length := by omega
        simp [h1, h2, show a ≤ k by omega, h3]
      · have h3 : bytes[k - a]? = none := by simp; omega
        simp [h1, h2, show a ≤ k by omega, show a + bytes.length ≤ k by omega, h3]

/-- A listed offset is inside the run. -/
theorem Memory.mem_run {bytes : List Byte} {a : Nat} {c : Host.Cell}
    (h : c ∈ (List.range' a bytes.length).zip bytes) : a ≤ c.1 ∧ c.1 < a + bytes.length := by
  have := List.of_mem_zip (a := c.1) (b := c.2) h
  simpa [List.mem_range'_1] using this.1

theorem Memory.run_sorted (bytes : List Byte) (a : Nat) :
    ((List.range' a bytes.length).zip bytes).Pairwise fun c d => c.1 < d.1 := by
  induction bytes generalizing a with
  | nil => simp
  | cons b bs ih =>
    simp only [List.length_cons, List.range'_succ, List.zip_cons_cons, List.pairwise_cons]
    refine ⟨fun c hc => ?_, ih (a + 1)⟩
    have := Memory.mem_run hc
    show a < c.1
    omega

/-- A write inside the buffer keeps the canonical form. -/
theorem Memory.writeBytes_wf {m : Memory} {size a : Nat} {bytes : List Byte} (hm : m.wf size)
    (h : a + bytes.length ≤ size) : (m.writeBytes a bytes).wf size := by
  by_cases hb : bytes = []
  · subst hb; simpa using hm
  · rw [Memory.writeBytes_eq m a hb]
    refine ⟨?_, fun c hc => ?_⟩
    · refine List.pairwise_append.2 ⟨List.pairwise_append.2 ⟨hm.1.filter _, Memory.run_sorted _ _, ?_⟩,
        hm.1.filter _, ?_⟩
      · intro c hc d hd
        have h1 := Memory.mem_run hd
        simp only [List.mem_filter, decide_eq_true_eq] at hc
        omega
      · intro c hc d hd
        simp only [List.mem_filter, decide_eq_true_eq] at hd
        rcases List.mem_append.1 hc with hc | hc
        · simp only [List.mem_filter, decide_eq_true_eq] at hc
          omega
        · have h1 := Memory.mem_run hc
          omega
    · rcases List.mem_append.1 hc with hc | hc
      · rcases List.mem_append.1 hc with hc | hc
        · exact hm.2 c (List.mem_filter.1 hc).1
        · have h1 := Memory.mem_run hc
          omega
      · exact hm.2 c (List.mem_filter.1 hc).1

/-- Canonical buffers that list the same byte everywhere are equal lists. -/
theorem Memory.ext_lookup {size : Nat} {m n : Memory} (hm : m.wf size) (hn : n.wf size)
    (h : ∀ k, m.lookup k = n.lookup k) : m = n := by
  have key : ∀ {l : Memory}, l.Pairwise (fun c d => c.1 < d.1) → ∀ c : Host.Cell,
      c ∈ l ↔ l.lookup c.1 = some c.2 := by
    intro l hl
    induction l with
    | nil => simp [Memory.lookup]
    | cons d l ih =>
      intro c
      have ⟨h1, h2⟩ := List.pairwise_cons.1 hl
      have ih := ih h2 c
      simp only [Memory.lookup] at ih ⊢
      simp only [List.mem_cons, List.find?_cons]
      by_cases hd : d.1 = c.1
      · simp only [hd, beq_self_eq_true, Option.map_some, Option.some.injEq]
        constructor
        · rintro (rfl | hc)
          · rfl
          · have := h1 c hc; omega
        · intro e; exact .inl (Prod.ext hd.symm e.symm)
      · simp only [beq_eq_false_iff_ne.2 hd, ← ih]
        constructor
        · rintro (rfl | hc)
          · exact absurd rfl hd
          · exact hc
        · exact .inr
  have hmem : ∀ c, c ∈ m ↔ c ∈ n := fun c => by rw [key hm.1, key hn.1, h]
  have nodup : ∀ {l : Memory}, l.Pairwise (fun c d => c.1 < d.1) → l.Nodup := fun hl =>
    hl.imp fun {c d} hcd e => by subst e; omega
  have hperm : m.Perm n := (List.perm_ext_iff_of_nodup (nodup hm.1) (nodup hn.1)).2 hmem
  exact hperm.eq_of_pairwise (fun _ _ _ _ hab hba => absurd hab (by omega)) hm.1 hn.1

@[simp] theorem freeBytes_length (d : Nat) (r : Range) : (freeBytes d r).length = r.len := by
  simp [freeBytes]

theorem Memory.scramble_wf {m : Memory} {size d : Nat} {r : Range} (hm : m.wf size)
    (h : r.addr + r.len ≤ size) : (m.scramble d r).wf size :=
  Memory.writeBytes_wf hm (by simpa using h)

/-- A scrambled buffer lists what it listed outside the range. -/
theorem Memory.lookup_scramble_outside (m : Memory) (d : Nat) {r : Range} {k : Nat}
    (h : r.contains k = false) : (m.scramble d r).lookup k = m.lookup k := by
  simp only [Range.contains, Bool.and_eq_false_iff, decide_eq_false_iff_not] at h
  rw [Memory.scramble, Memory.lookup_writeBytes, if_neg]
  simp only [freeBytes_length]
  omega

/-- The part of a range in the buffer ends in the buffer; a range that starts beyond it is empty. -/
theorem Range.clip_end (r : Range) (size : Nat) :
    (r.clip size).addr + (r.clip size).len ≤ size ∨ (r.clip size).len = 0 := by
  simp only [Range.clip]
  omega

theorem Memory.scramble_clip_wf {m : Memory} {size d : Nat} (r : Range) (hm : m.wf size) :
    (m.scramble d (r.clip size)).wf size := by
  rcases r.clip_end size with h | h
  · exact Memory.scramble_wf hm h
  · have : freeBytes d (r.clip size) = [] := List.eq_nil_of_length_eq_zero (by simpa using h)
    simpa [Memory.scramble, this] using hm

/-! ### Reads of one byte -/

/-- The byte at an offset depends on the buffer and its draw alone. -/
theorem State.readByte_congr {s t : State} {a : Nat} (hm : t.mem.lookup a = s.mem.lookup a)
    (hd : t.memDraw = s.memDraw) : t.readByte a = s.readByte a := by
  simp [State.readByte, hm, hd]

/-- A completion that writes `bytes` at `a` leaves every other byte, and the bytes read back. -/
theorem State.readByte_writeBytes {s t : State} {a : Nat} {bytes : List Byte}
    (hm : t.mem = s.mem.writeBytes a bytes) (hd : t.memDraw = s.memDraw) (k : Nat) :
    t.readByte k = if a ≤ k ∧ k < a + bytes.length then byteAt bytes (k - a) else s.readByte k := by
  simp only [State.readByte, hm, hd, Memory.lookup_writeBytes]
  split
  · next h =>
    have : k - a < bytes.length := by omega
    simp [byteAt, this]
  · rfl

@[simp] theorem State.memRead_length (s : State) (a n : Nat) : (s.memRead a n).length = n := by
  simp [State.memRead]

/-- Byte `j` of `MemRead(a, n)` (R19). -/
theorem State.memRead_getElem? (s : State) (a n j : Nat) :
    (s.memRead a n)[j]? = if j < n then some (s.readByte (a + j)) else none := by
  by_cases h : j < n <;> simp [State.memRead, h]

theorem reset_memory_wf (p : Config.Params) : (State.resetWith p).mem.wf p.bufSize := by
  simp [State.resetWith, Memory.wf]

end Sys2Proof.Machine
end

