-- ==== Sys2Proof/Laws/State.lean ====
section
/-!
SUPPORT. One lemma per field per update of State, true by rfl, so that no later proof unfolds a record
update; and the bits of STATUS, ERR and IRQ after each update.
-/

namespace Sys2Proof.Machine

/-! ### `State.issue` -/

@[simp] theorem State.issue_params (w : Word) (s : State) :
    (s.issue w).params = s.params := rfl

@[simp] theorem State.issue_ie (w : Word) (s : State) :
    (s.issue w).ie = s.ie := rfl

@[simp] theorem State.issue_done (w : Word) (s : State) :
    (s.issue w).done = false := rfl

@[simp] theorem State.issue_errcode (w : Word) (s : State) :
    (s.issue w).errcode = none := rfl

@[simp] theorem State.issue_srcAddr (w : Word) (s : State) :
    (s.issue w).srcAddr = s.srcAddr := rfl

@[simp] theorem State.issue_srcLen (w : Word) (s : State) :
    (s.issue w).srcLen = s.srcLen := rfl

@[simp] theorem State.issue_dstAddr (w : Word) (s : State) :
    (s.issue w).dstAddr = s.dstAddr := rfl

@[simp] theorem State.issue_dstCap (w : Word) (s : State) :
    (s.issue w).dstCap = s.dstCap := rfl

@[simp] theorem State.issue_bitlen (w : Word) (s : State) :
    (s.issue w).bitlen = s.bitlen := rfl

@[simp] theorem State.issue_resultLen (w : Word) (s : State) :
    (s.issue w).resultLen = s.resultLen := rfl

@[simp] theorem State.issue_freq (w : Word) (s : State) :
    (s.issue w).freq = s.freq := rfl

@[simp] theorem State.issue_code (w : Word) (s : State) :
    (s.issue w).code = s.code := rfl

@[simp] theorem State.issue_arena (w : Word) (s : State) :
    (s.issue w).arena = s.arena := rfl

@[simp] theorem State.issue_pending (w : Word) (s : State) :
    (s.issue w).pending = some (s.latch w) := rfl

@[simp] theorem State.issue_mem (w : Word) (s : State) :
    (s.issue w).mem = s.mem := rfl

@[simp] theorem State.issue_inReset (w : Word) (s : State) :
    (s.issue w).inReset = s.inReset := rfl

@[simp] theorem State.issue_memDraw (w : Word) (s : State) :
    (s.issue w).memDraw = s.memDraw := rfl

@[simp] theorem State.issue_draws (w : Word) (s : State) :
    (s.issue w).draws = s.draws := rfl

@[simp] theorem State.issue_readData (w : Word) (s : State) :
    (s.issue w).readData = s.readData := rfl

@[simp] theorem State.issue_inputs (w : Word) (s : State) :
    (s.issue w).inputs = s.inputs := rfl

/-! ### `State.completeOk` -/

@[simp] theorem State.completeOk_params (P : Pending) (fx : Effects) (s : State) :
    (s.completeOk P fx).params = s.params := rfl

@[simp] theorem State.completeOk_ie (P : Pending) (fx : Effects) (s : State) :
    (s.completeOk P fx).ie = s.ie := rfl

@[simp] theorem State.completeOk_done (P : Pending) (fx : Effects) (s : State) :
    (s.completeOk P fx).done = true := rfl

@[simp] theorem State.completeOk_errcode (P : Pending) (fx : Effects) (s : State) :
    (s.completeOk P fx).errcode = none := rfl

@[simp] theorem State.completeOk_srcAddr (P : Pending) (fx : Effects) (s : State) :
    (s.completeOk P fx).srcAddr = s.srcAddr := rfl

@[simp] theorem State.completeOk_srcLen (P : Pending) (fx : Effects) (s : State) :
    (s.completeOk P fx).srcLen = s.srcLen := rfl

@[simp] theorem State.completeOk_dstAddr (P : Pending) (fx : Effects) (s : State) :
    (s.completeOk P fx).dstAddr = s.dstAddr := rfl

@[simp] theorem State.completeOk_dstCap (P : Pending) (fx : Effects) (s : State) :
    (s.completeOk P fx).dstCap = s.dstCap := rfl

@[simp] theorem State.completeOk_bitlen (P : Pending) (fx : Effects) (s : State) :
    (s.completeOk P fx).bitlen = fx.bitlen.getD s.bitlen := rfl

@[simp] theorem State.completeOk_resultLen (P : Pending) (fx : Effects) (s : State) :
    (s.completeOk P fx).resultLen = BitVec.ofNat 32 fx.out.length := rfl

@[simp] theorem State.completeOk_freq (P : Pending) (fx : Effects) (s : State) :
    (s.completeOk P fx).freq = fx.freq.getD s.freq := rfl

@[simp] theorem State.completeOk_code (P : Pending) (fx : Effects) (s : State) :
    (s.completeOk P fx).code = fx.code.getD s.code := rfl

@[simp] theorem State.completeOk_arena (P : Pending) (fx : Effects) (s : State) :
    (s.completeOk P fx).arena = fx.arena.getD s.arena := rfl

@[simp] theorem State.completeOk_pending (P : Pending) (fx : Effects) (s : State) :
    (s.completeOk P fx).pending = none := rfl

@[simp] theorem State.completeOk_mem (P : Pending) (fx : Effects) (s : State) :
    (s.completeOk P fx).mem = s.mem.writeBytes P.dst.addr fx.out := rfl

@[simp] theorem State.completeOk_inReset (P : Pending) (fx : Effects) (s : State) :
    (s.completeOk P fx).inReset = s.inReset := rfl

@[simp] theorem State.completeOk_memDraw (P : Pending) (fx : Effects) (s : State) :
    (s.completeOk P fx).memDraw = s.memDraw := rfl

@[simp] theorem State.completeOk_draws (P : Pending) (fx : Effects) (s : State) :
    (s.completeOk P fx).draws = s.draws + 1 := rfl

@[simp] theorem State.completeOk_readData (P : Pending) (fx : Effects) (s : State) :
    (s.completeOk P fx).readData = s.readData := rfl

@[simp] theorem State.completeOk_inputs (P : Pending) (fx : Effects) (s : State) :
    (s.completeOk P fx).inputs = s.inputs := rfl

/-! ### `State.completeError` -/

@[simp] theorem State.completeError_params (row : CommandRow) (P : Pending) (e : CmdError) (s : State) :
    (s.completeError row P e).params = s.params := rfl

@[simp] theorem State.completeError_ie (row : CommandRow) (P : Pending) (e : CmdError) (s : State) :
    (s.completeError row P e).ie = s.ie := rfl

@[simp] theorem State.completeError_done (row : CommandRow) (P : Pending) (e : CmdError) (s : State) :
    (s.completeError row P e).done = true := rfl

@[simp] theorem State.completeError_errcode (row : CommandRow) (P : Pending) (e : CmdError) (s : State) :
    (s.completeError row P e).errcode = some e := rfl

@[simp] theorem State.completeError_srcAddr (row : CommandRow) (P : Pending) (e : CmdError) (s : State) :
    (s.completeError row P e).srcAddr = s.srcAddr := rfl

@[simp] theorem State.completeError_srcLen (row : CommandRow) (P : Pending) (e : CmdError) (s : State) :
    (s.completeError row P e).srcLen = s.srcLen := rfl

@[simp] theorem State.completeError_dstAddr (row : CommandRow) (P : Pending) (e : CmdError) (s : State) :
    (s.completeError row P e).dstAddr = s.dstAddr := rfl

@[simp] theorem State.completeError_dstCap (row : CommandRow) (P : Pending) (e : CmdError) (s : State) :
    (s.completeError row P e).dstCap = s.dstCap := rfl

@[simp] theorem State.completeError_bitlen (row : CommandRow) (P : Pending) (e : CmdError) (s : State) :
    (s.completeError row P e).bitlen = s.bitlen := rfl

@[simp] theorem State.completeError_resultLen (row : CommandRow) (P : Pending) (e : CmdError) (s : State) :
    (s.completeError row P e).resultLen = s.resultLen := rfl

@[simp] theorem State.completeError_freq (row : CommandRow) (P : Pending) (e : CmdError) (s : State) :
    (s.completeError row P e).freq = s.freq := rfl

@[simp] theorem State.completeError_code (row : CommandRow) (P : Pending) (e : CmdError) (s : State) :
    (s.completeError row P e).code = s.code := rfl

@[simp] theorem State.completeError_arena (row : CommandRow) (P : Pending) (e : CmdError) (s : State) :
    (s.completeError row P e).arena = s.arena := rfl

@[simp] theorem State.completeError_pending (row : CommandRow) (P : Pending) (e : CmdError) (s : State) :
    (s.completeError row P e).pending = none := rfl

@[simp] theorem State.completeError_mem (row : CommandRow) (P : Pending) (e : CmdError) (s : State) :
    (s.completeError row P e).mem =
      if row.writesDst && !keepsBuffer e then s.mem.scramble s.draws P.dst else s.mem := rfl

@[simp] theorem State.completeError_inReset (row : CommandRow) (P : Pending) (e : CmdError) (s : State) :
    (s.completeError row P e).inReset = s.inReset := rfl

@[simp] theorem State.completeError_memDraw (row : CommandRow) (P : Pending) (e : CmdError) (s : State) :
    (s.completeError row P e).memDraw = s.memDraw := rfl

@[simp] theorem State.completeError_draws (row : CommandRow) (P : Pending) (e : CmdError) (s : State) :
    (s.completeError row P e).draws = s.draws + 1 := rfl

@[simp] theorem State.completeError_readData (row : CommandRow) (P : Pending) (e : CmdError) (s : State) :
    (s.completeError row P e).readData = s.readData := rfl

@[simp] theorem State.completeError_inputs (row : CommandRow) (P : Pending) (e : CmdError) (s : State) :
    (s.completeError row P e).inputs = s.inputs := rfl

/-! ### `State.completeCorrupt` -/

@[simp] theorem State.completeCorrupt_params (row : CommandRow) (P : Pending) (s : State) :
    (s.completeCorrupt row P).params = s.params := rfl

@[simp] theorem State.completeCorrupt_ie (row : CommandRow) (P : Pending) (s : State) :
    (s.completeCorrupt row P).ie = s.ie := rfl

@[simp] theorem State.completeCorrupt_done (row : CommandRow) (P : Pending) (s : State) :
    (s.completeCorrupt row P).done = true := rfl

@[simp] theorem State.completeCorrupt_errcode (row : CommandRow) (P : Pending) (s : State) :
    (s.completeCorrupt row P).errcode = Config.freeError s.draws := rfl

@[simp] theorem State.completeCorrupt_srcAddr (row : CommandRow) (P : Pending) (s : State) :
    (s.completeCorrupt row P).srcAddr = s.srcAddr := rfl

@[simp] theorem State.completeCorrupt_srcLen (row : CommandRow) (P : Pending) (s : State) :
    (s.completeCorrupt row P).srcLen = s.srcLen := rfl

@[simp] theorem State.completeCorrupt_dstAddr (row : CommandRow) (P : Pending) (s : State) :
    (s.completeCorrupt row P).dstAddr = s.dstAddr := rfl

@[simp] theorem State.completeCorrupt_dstCap (row : CommandRow) (P : Pending) (s : State) :
    (s.completeCorrupt row P).dstCap = s.dstCap := rfl

@[simp] theorem State.completeCorrupt_bitlen (row : CommandRow) (P : Pending) (s : State) :
    (s.completeCorrupt row P).bitlen =
      if row.writesBitlen then Config.freeBitlen s.draws else s.bitlen := rfl

@[simp] theorem State.completeCorrupt_resultLen (row : CommandRow) (P : Pending) (s : State) :
    (s.completeCorrupt row P).resultLen =
      if row.writesResultLen then Config.freeResultLen s.draws else s.resultLen := rfl

@[simp] theorem State.completeCorrupt_freq (row : CommandRow) (P : Pending) (s : State) :
    (s.completeCorrupt row P).freq =
      if row.writesFreq then Table.ofFun (Config.freeFreq s.draws) else s.freq := rfl

@[simp] theorem State.completeCorrupt_code (row : CommandRow) (P : Pending) (s : State) :
    (s.completeCorrupt row P).code =
      if row.writesCode then Table.ofFun (fun b => boundCode s.params.nodeCap (Config.freeCode s.draws b)) else s.code := rfl

@[simp] theorem State.completeCorrupt_arena (row : CommandRow) (P : Pending) (s : State) :
    (s.completeCorrupt row P).arena =
      if row.writesArena then boundArena s.params.nodeCap (Config.freeArena s.draws) else s.arena := rfl

@[simp] theorem State.completeCorrupt_pending (row : CommandRow) (P : Pending) (s : State) :
    (s.completeCorrupt row P).pending = none := rfl

@[simp] theorem State.completeCorrupt_mem (row : CommandRow) (P : Pending) (s : State) :
    (s.completeCorrupt row P).mem =
      if row.writesDst then s.mem.scramble s.draws (P.dst.clip s.params.bufSize) else s.mem := rfl

@[simp] theorem State.completeCorrupt_inReset (row : CommandRow) (P : Pending) (s : State) :
    (s.completeCorrupt row P).inReset = s.inReset := rfl

@[simp] theorem State.completeCorrupt_memDraw (row : CommandRow) (P : Pending) (s : State) :
    (s.completeCorrupt row P).memDraw = s.memDraw := rfl

@[simp] theorem State.completeCorrupt_draws (row : CommandRow) (P : Pending) (s : State) :
    (s.completeCorrupt row P).draws = s.draws + 1 := rfl

@[simp] theorem State.completeCorrupt_readData (row : CommandRow) (P : Pending) (s : State) :
    (s.completeCorrupt row P).readData = s.readData := rfl

@[simp] theorem State.completeCorrupt_inputs (row : CommandRow) (P : Pending) (s : State) :
    (s.completeCorrupt row P).inputs = s.inputs := rfl

/-! ### `State.returnRead` -/

@[simp] theorem State.returnRead_params (d : ReadData) (s : State) :
    (s.returnRead d).params = s.params := rfl

@[simp] theorem State.returnRead_ie (d : ReadData) (s : State) :
    (s.returnRead d).ie = s.ie := rfl

@[simp] theorem State.returnRead_done (d : ReadData) (s : State) :
    (s.returnRead d).done = s.done := rfl

@[simp] theorem State.returnRead_errcode (d : ReadData) (s : State) :
    (s.returnRead d).errcode = s.errcode := rfl

@[simp] theorem State.returnRead_srcAddr (d : ReadData) (s : State) :
    (s.returnRead d).srcAddr = s.srcAddr := rfl

@[simp] theorem State.returnRead_srcLen (d : ReadData) (s : State) :
    (s.returnRead d).srcLen = s.srcLen := rfl

@[simp] theorem State.returnRead_dstAddr (d : ReadData) (s : State) :
    (s.returnRead d).dstAddr = s.dstAddr := rfl

@[simp] theorem State.returnRead_dstCap (d : ReadData) (s : State) :
    (s.returnRead d).dstCap = s.dstCap := rfl

@[simp] theorem State.returnRead_bitlen (d : ReadData) (s : State) :
    (s.returnRead d).bitlen = s.bitlen := rfl

@[simp] theorem State.returnRead_resultLen (d : ReadData) (s : State) :
    (s.returnRead d).resultLen = s.resultLen := rfl

@[simp] theorem State.returnRead_freq (d : ReadData) (s : State) :
    (s.returnRead d).freq = s.freq := rfl

@[simp] theorem State.returnRead_code (d : ReadData) (s : State) :
    (s.returnRead d).code = s.code := rfl

@[simp] theorem State.returnRead_arena (d : ReadData) (s : State) :
    (s.returnRead d).arena = s.arena := rfl

@[simp] theorem State.returnRead_pending (d : ReadData) (s : State) :
    (s.returnRead d).pending = s.pending := rfl

@[simp] theorem State.returnRead_mem (d : ReadData) (s : State) :
    (s.returnRead d).mem = s.mem := rfl

@[simp] theorem State.returnRead_inReset (d : ReadData) (s : State) :
    (s.returnRead d).inReset = s.inReset := rfl

@[simp] theorem State.returnRead_memDraw (d : ReadData) (s : State) :
    (s.returnRead d).memDraw = s.memDraw := rfl

@[simp] theorem State.returnRead_draws (d : ReadData) (s : State) :
    (s.returnRead d).draws = s.draws + 1 := rfl

@[simp] theorem State.returnRead_readData (d : ReadData) (s : State) :
    (s.returnRead d).readData = some d := rfl

@[simp] theorem State.returnRead_inputs (d : ReadData) (s : State) :
    (s.returnRead d).inputs = s.inputs := rfl

/-! ### `State.takeReset` -/

@[simp] theorem State.takeReset_params (b : Bool) (s : State) :
    (s.takeReset b).params = s.params := rfl

@[simp] theorem State.takeReset_ie (b : Bool) (s : State) :
    (s.takeReset b).ie = false := rfl

@[simp] theorem State.takeReset_done (b : Bool) (s : State) :
    (s.takeReset b).done = false := rfl

@[simp] theorem State.takeReset_errcode (b : Bool) (s : State) :
    (s.takeReset b).errcode = none := rfl

@[simp] theorem State.takeReset_srcAddr (b : Bool) (s : State) :
    (s.takeReset b).srcAddr = 0 := rfl

@[simp] theorem State.takeReset_srcLen (b : Bool) (s : State) :
    (s.takeReset b).srcLen = 0 := rfl

@[simp] theorem State.takeReset_dstAddr (b : Bool) (s : State) :
    (s.takeReset b).dstAddr = 0 := rfl

@[simp] theorem State.takeReset_dstCap (b : Bool) (s : State) :
    (s.takeReset b).dstCap = 0 := rfl

@[simp] theorem State.takeReset_bitlen (b : Bool) (s : State) :
    (s.takeReset b).bitlen = 0 := rfl

@[simp] theorem State.takeReset_resultLen (b : Bool) (s : State) :
    (s.takeReset b).resultLen = 0 := rfl

@[simp] theorem State.takeReset_freq (b : Bool) (s : State) :
    (s.takeReset b).freq = Table.const 0 := rfl

@[simp] theorem State.takeReset_code (b : Bool) (s : State) :
    (s.takeReset b).code = Table.const none := rfl

@[simp] theorem State.takeReset_arena (b : Bool) (s : State) :
    (s.takeReset b).arena = none := rfl

@[simp] theorem State.takeReset_pending (b : Bool) (s : State) :
    (s.takeReset b).pending = none := rfl

@[simp] theorem State.takeReset_mem (b : Bool) (s : State) :
    (s.takeReset b).mem = [] := rfl

@[simp] theorem State.takeReset_inReset (b : Bool) (s : State) :
    (s.takeReset b).inReset = b := rfl

@[simp] theorem State.takeReset_memDraw (b : Bool) (s : State) :
    (s.takeReset b).memDraw = s.draws := rfl

@[simp] theorem State.takeReset_draws (b : Bool) (s : State) :
    (s.takeReset b).draws = s.draws + 1 := rfl

@[simp] theorem State.takeReset_readData (b : Bool) (s : State) :
    (s.takeReset b).readData = s.readData := rfl

@[simp] theorem State.takeReset_inputs (b : Bool) (s : State) :
    (s.takeReset b).inputs = s.inputs := rfl

/-! ### Taking the next event off the inputs -/

theorem State.setInputs_params (l : List Event) (s : State) :
    ({ s with inputs := l } : State).params = s.params := rfl

theorem State.setInputs_ie (l : List Event) (s : State) :
    ({ s with inputs := l } : State).ie = s.ie := rfl

theorem State.setInputs_done (l : List Event) (s : State) :
    ({ s with inputs := l } : State).done = s.done := rfl

theorem State.setInputs_errcode (l : List Event) (s : State) :
    ({ s with inputs := l } : State).errcode = s.errcode := rfl

theorem State.setInputs_srcAddr (l : List Event) (s : State) :
    ({ s with inputs := l } : State).srcAddr = s.srcAddr := rfl

theorem State.setInputs_srcLen (l : List Event) (s : State) :
    ({ s with inputs := l } : State).srcLen = s.srcLen := rfl

theorem State.setInputs_dstAddr (l : List Event) (s : State) :
    ({ s with inputs := l } : State).dstAddr = s.dstAddr := rfl

theorem State.setInputs_dstCap (l : List Event) (s : State) :
    ({ s with inputs := l } : State).dstCap = s.dstCap := rfl

theorem State.setInputs_bitlen (l : List Event) (s : State) :
    ({ s with inputs := l } : State).bitlen = s.bitlen := rfl

theorem State.setInputs_resultLen (l : List Event) (s : State) :
    ({ s with inputs := l } : State).resultLen = s.resultLen := rfl

theorem State.setInputs_freq (l : List Event) (s : State) :
    ({ s with inputs := l } : State).freq = s.freq := rfl

theorem State.setInputs_code (l : List Event) (s : State) :
    ({ s with inputs := l } : State).code = s.code := rfl

theorem State.setInputs_arena (l : List Event) (s : State) :
    ({ s with inputs := l } : State).arena = s.arena := rfl

theorem State.setInputs_pending (l : List Event) (s : State) :
    ({ s with inputs := l } : State).pending = s.pending := rfl

theorem State.setInputs_mem (l : List Event) (s : State) :
    ({ s with inputs := l } : State).mem = s.mem := rfl

theorem State.setInputs_inReset (l : List Event) (s : State) :
    ({ s with inputs := l } : State).inReset = s.inReset := rfl

theorem State.setInputs_memDraw (l : List Event) (s : State) :
    ({ s with inputs := l } : State).memDraw = s.memDraw := rfl

theorem State.setInputs_draws (l : List Event) (s : State) :
    ({ s with inputs := l } : State).draws = s.draws := rfl

theorem State.setInputs_readData (l : List Event) (s : State) :
    ({ s with inputs := l } : State).readData = s.readData := rfl

theorem State.setInputs_inputs (l : List Event) (s : State) :
    ({ s with inputs := l } : State).inputs = l := rfl

/-! ### Status bits -/

theorem State.busy_eq (s : State) : s.busy = s.pending.isSome := rfl

theorem State.err_eq (s : State) : s.err = s.errcode.isSome := rfl

theorem State.irq_eq (s : State) : s.irq = (s.ie && s.done) := rfl

@[simp] theorem State.issue_busy (w : Word) (s : State) : (s.issue w).busy = true := rfl

@[simp] theorem State.completeOk_busy (P : Pending) (fx : Effects) (s : State) :
    (s.completeOk P fx).busy = false := rfl

@[simp] theorem State.completeError_busy (row : CommandRow) (P : Pending) (e : CmdError) (s : State) :
    (s.completeError row P e).busy = false := rfl

@[simp] theorem State.completeCorrupt_busy (row : CommandRow) (P : Pending) (s : State) :
    (s.completeCorrupt row P).busy = false := rfl

@[simp] theorem State.takeReset_busy (b : Bool) (s : State) : (s.takeReset b).busy = false := rfl

/-! ### Operands -/

@[simp] theorem State.operands_of_pending (s : State) (P : Pending) (h : s.pending = some P) :
    s.operands = P := by simp [State.operands, h]

theorem State.operands_of_idle (s : State) (h : s.pending = none) : s.operands = s.latch 0 := by
  simp [State.operands, h]

end Sys2Proof.Machine
end

