-- ==== Sys2Proof/Laws/Exec.lean ====
section
/-!
SUPPORT. What a completion can do, said once: every command is `runCommand` of its row and its own
pseudocode, and a completion is corrupted, in error or successful.
-/

namespace Sys2Proof.Machine

/-- The own pseudocode of each command. -/
def bodyOf : Instr → Body
  | .nop _ => nopBody
  | .fcount _ => fcountBody
  | .tbuild _ => tbuildBody
  | .cgen _ => cgenBody
  | .tser _ => tserBody
  | .tdes _ => tdesBody
  | .benc _ => bencBody
  | .bdec _ => bdecBody
  | .bpack _ => bpackBody
  | .bunpack _ => bunpackBody
  | .cenc _ => cencBody
  | .cdec _ => cdecBody

theorem exec_eq_runCommand (i : Instr) (s : State) :
    exec i s = runCommand (rowOf i) (bodyOf i) s := by
  cases i <;> rfl

/-- The state a completion leads to. -/
def completion (row : CommandRow) (body : Body) (s : State) : State :=
  if s.operands.corrupt then s.completeCorrupt row s.operands
  else
    match commandResult row body s with
    | .error e => s.completeError row s.operands e
    | .ok fx => s.completeOk s.operands fx

/-- A command always completes: its completion is a next state. -/
theorem runCommand_eq_next (row : CommandRow) (body : Body) (s : State) :
    runCommand row body s = .next (completion row body s) := by
  unfold runCommand completion
  split
  · rfl
  · cases commandResult row body s <;> rfl

theorem exec_eq_next (i : Instr) (s : State) :
    exec i s = .next (completion (rowOf i) (bodyOf i) s) := by
  rw [exec_eq_runCommand, runCommand_eq_next]

theorem execIllegal_eq_next (s : State) :
    execIllegal s = .next (completion CommandRow.illegal illegalBody s) :=
  runCommand_eq_next _ _ _

/-- The three ways a command completes. -/
theorem completion_cases (row : CommandRow) (body : Body) (s : State) :
    (s.operands.corrupt = true ∧ completion row body s = s.completeCorrupt row s.operands)
    ∨ (∃ e, s.operands.corrupt = false ∧ commandResult row body s = .error e
        ∧ completion row body s = s.completeError row s.operands e)
    ∨ (∃ fx, s.operands.corrupt = false ∧ commandResult row body s = .ok fx
        ∧ completion row body s = s.completeOk s.operands fx) := by
  unfold completion
  cases hc : s.operands.corrupt
  · cases hr : commandResult row body s with
    | error e => exact .inr (.inl ⟨e, rfl, rfl, by simp⟩)
    | ok fx => exact .inr (.inr ⟨fx, rfl, rfl, by simp⟩)
  · exact .inl ⟨rfl, by simp⟩

theorem completion_corrupt {row : CommandRow} {body : Body} {s : State}
    (h : s.operands.corrupt = true) : completion row body s = s.completeCorrupt row s.operands := by
  simp [completion, h]

theorem completion_error {row : CommandRow} {body : Body} {s : State} {e : CmdError}
    (h : s.operands.corrupt = false) (hr : commandResult row body s = .error e) :
    completion row body s = s.completeError row s.operands e := by
  simp [completion, h, hr]

theorem completion_ok {row : CommandRow} {body : Body} {s : State} {fx : Effects}
    (h : s.operands.corrupt = false) (hr : commandResult row body s = .ok fx) :
    completion row body s = s.completeOk s.operands fx := by
  simp [completion, h, hr]

/-! ### The common checks -/

/-- When the common checks pass (R306). -/
theorem commonChecks_eq_ok {row : CommandRow} {P : Pending} {size : Nat} :
    commonChecks row P size = .ok () ↔
      (row.readsSrc = true → P.src.addr + P.src.len ≤ size)
      ∧ (row.writesDst = true → P.dst.addr + P.dst.len ≤ size)
      ∧ (row.readsSrc = true → row.writesDst = true → P.src.overlaps P.dst = false) := by
  unfold commonChecks Range.fits
  cases row.readsSrc <;> cases row.writesDst <;> cases P.src.overlaps P.dst <;>
    by_cases h1 : P.src.addr + P.src.len ≤ size <;>
    by_cases h2 : P.dst.addr + P.dst.len ≤ size <;> simp [h1, h2]

/-- The common checks raise bounds or overlap errors only (R306). -/
theorem commonChecks_error {row : CommandRow} {P : Pending} {size : Nat} {e : CmdError}
    (h : commonChecks row P size = .error e) :
    (e = .bounds ∧ (row.readsSrc = true ∨ row.writesDst = true))
    ∨ (e = .overlap ∧ row.readsSrc = true ∧ row.writesDst = true) := by
  unfold commonChecks at h
  split at h
  · next hc => simp_all
  · split at h
    · next hc => simp_all
    · split at h
      · next hc => simp_all
      · cases h

/-- A command that passes the common checks reports what its own pseudocode gives (R305). -/
theorem commandResult_of_checks {row : CommandRow} {body : Body} {s : State}
    (h : commonChecks row s.operands s.params.bufSize = .ok ()) :
    commandResult row body s = body s.operands s := by
  simp [commandResult, h]

/-- A command that is `Ready` completes as its own pseudocode says. -/
theorem ready_result {i : Instr} {s : State} (h : Ready i s) :
    s.operands.corrupt = false ∧ commandResult (rowOf i) (bodyOf i) s = bodyOf i s.operands s :=
  ⟨h.1, commandResult_of_checks (commonChecks_eq_ok.2 h.2)⟩

theorem ready_exec_ok {i : Instr} {s : State} {fx : Effects} (h : Ready i s)
    (hb : bodyOf i s.operands s = .ok fx) : exec i s = .next (s.completeOk s.operands fx) := by
  have ⟨h1, h2⟩ := ready_result h
  rw [exec_eq_next, completion_ok h1 (h2.trans hb)]

theorem ready_exec_error {i : Instr} {s : State} {e : CmdError} (h : Ready i s)
    (hb : bodyOf i s.operands s = .error e) :
    exec i s = .next (s.completeError (rowOf i) s.operands e) := by
  have ⟨h1, h2⟩ := ready_result h
  rw [exec_eq_next, completion_error h1 (h2.trans hb)]

theorem fitOutput_eq_ok {P : Pending} {fx gx : Effects} :
    fitOutput P fx = .ok gx ↔ fx.out.length ≤ P.dstCap.toNat ∧ gx = fx := by
  unfold fitOutput
  split
  · simp; omega
  · simp only [Except.ok.injEq]
    constructor
    · rintro rfl; exact ⟨by omega, rfl⟩
    · rintro ⟨-, rfl⟩; rfl

theorem fitOutput_eq_error {P : Pending} {fx : Effects} {e : CmdError} :
    fitOutput P fx = .error e ↔ P.dstCap.toNat < fx.out.length ∧ e = .capacity := by
  unfold fitOutput
  split
  · next h => simp [h, eq_comm]
  · next h => simp [h]

/-- Every completion leaves the registers of `SameRegisters` unchanged. -/
theorem completion_sameRegisters (row : CommandRow) (body : Body) (s : State) :
    SameRegisters s (completion row body s) := by
  rcases completion_cases row body s with ⟨-, h⟩ | ⟨e, -, -, h⟩ | ⟨fx, -, -, h⟩ <;> rw [h] <;>
    simp [SameRegisters]

/-- Every completion leaves the core idle with DONE = 1 (R302 to R304). -/
theorem completion_idle (row : CommandRow) (body : Body) (s : State) :
    (completion row body s).pending = none ∧ (completion row body s).done = true := by
  rcases completion_cases row body s with ⟨-, h⟩ | ⟨e, -, -, h⟩ | ⟨fx, -, -, h⟩ <;> rw [h] <;> simp

/-- Every completion takes one draw and leaves the buffer's draw alone. -/
theorem completion_draws (row : CommandRow) (body : Body) (s : State) :
    (completion row body s).draws = s.draws + 1 ∧ (completion row body s).memDraw = s.memDraw := by
  rcases completion_cases row body s with ⟨-, h⟩ | ⟨e, -, -, h⟩ | ⟨fx, -, -, h⟩ <;> rw [h] <;> simp

/-- A successful completion writes exactly its output bytes (R87). -/
theorem completeOk_wroteBytes (P : Pending) (fx : Effects) (s : State) :
    WroteBytes P.dst.addr fx.out s (s.completeOk P fx) := by
  constructor
  · intro j hj
    rw [State.readByte_writeBytes (s := s) (State.completeOk_mem P fx s) rfl]
    simp [hj]
  · intro b hb
    rw [State.readByte_writeBytes (s := s) (State.completeOk_mem P fx s) rfl, if_neg]
    omega

theorem completeOk_succeeded (P : Pending) (fx : Effects) (s : State) :
    Succeeded fx.out.length s (s.completeOk P fx) := by
  simp [Succeeded, Completed, SameRegisters]

theorem wroteBytes_nil {s t : State} {a : Nat} (h : WroteBytes a [] s t) : SameBuffer s t :=
  fun b => h.2 b (by simp; omega)

end Sys2Proof.Machine
end

