-- ==== Sys2Proof/Laws/PerInstr.lean ====
section
/-!
SUPPORT. Statements made for every command, one lemma per constructor.
-/

/-- The fields of the encoded word: OPC is the command's opcode, V its flag, the reserved bits are 0, and
the word is what R110 gives (R100). -/
def Sys2Proof.Laws.EncodedFields.Statement (i : Sys2Proof.Instr) : Prop :=
  i.wellFormed = true
    ∧ Sys2Proof.opcField (Sys2Proof.encode i) = i.opcode
    ∧ Sys2Proof.verboseField (Sys2Proof.encode i) = i.verbose
    ∧ Sys2Proof.reservedField (Sys2Proof.encode i) = 0
    ∧ (Sys2Proof.encode i).toNat = i.opcode.toNat + (if i.verbose then 0x100 else 0)

namespace Sys2Proof.Laws.EncodedFields

theorem nop (v : Bool) : Statement (.nop v) := by unfold Statement; cases v <;> decide
theorem fcount (v : Bool) : Statement (.fcount v) := by unfold Statement; cases v <;> decide
theorem tbuild (v : Bool) : Statement (.tbuild v) := by unfold Statement; cases v <;> decide
theorem cgen (v : Bool) : Statement (.cgen v) := by unfold Statement; cases v <;> decide
theorem tser (v : Bool) : Statement (.tser v) := by unfold Statement; cases v <;> decide
theorem tdes (v : Bool) : Statement (.tdes v) := by unfold Statement; cases v <;> decide
theorem benc (v : Bool) : Statement (.benc v) := by unfold Statement; cases v <;> decide
theorem bdec (v : Bool) : Statement (.bdec v) := by unfold Statement; cases v <;> decide
theorem bpack (v : Bool) : Statement (.bpack v) := by unfold Statement; cases v <;> decide
theorem bunpack (v : Bool) : Statement (.bunpack v) := by unfold Statement; cases v <;> decide
theorem cenc (v : Bool) : Statement (.cenc v) := by unfold Statement; cases v <;> decide
theorem cdec (v : Bool) : Statement (.cdec v) := by unfold Statement; cases v <;> decide

end Sys2Proof.Laws.EncodedFields
end

