-- ==== Sys2Proof/Laws/Step.lean ====
section
/-!
SUPPORT. What one step can do, said once.
-/

namespace Sys2Proof.Machine

theorem step_nil {s : State} (h : s.inputs = []) : step s = engineStep s := by
  simp [step, h]

theorem step_cons {s : State} {e : Event} {rest : List Event} (h : s.inputs = e :: rest) :
    step s = applyEvent e { s with inputs := rest } := by
  simp [step, h]

theorem engineStep_idle {s : State} (h : s.pending = none) : engineStep s = .next s := by
  simp [engineStep, h]

theorem engineStep_command {s : State} {P : Pending} {i : Instr} (h : s.pending = some P)
    (hd : decode P.word = .ok i) : engineStep s = exec i s := by
  simp [engineStep, h, hd]

theorem engineStep_illegal {s : State} {P : Pending} {e : DecodeError} (h : s.pending = some P)
    (hd : decode P.word = .error e) : engineStep s = execIllegal s := by
  simp [engineStep, h, hd]

/-- The engine's step: nothing when idle, else the completion of the decoded command or of an illegal
word. -/
theorem engineStep_cases (s : State) :
    (s.pending = none ∧ engineStep s = .next s)
    ∨ (∃ P i, s.pending = some P ∧ decode P.word = .ok i
        ∧ engineStep s = .next (completion (rowOf i) (bodyOf i) s))
    ∨ (∃ P e, s.pending = some P ∧ decode P.word = .error e
        ∧ engineStep s = .next (completion CommandRow.illegal illegalBody s)) := by
  cases hp : s.pending with
  | none => exact .inl ⟨rfl, engineStep_idle hp⟩
  | some P =>
    cases hd : decode P.word with
    | ok i => exact .inr (.inl ⟨P, i, rfl, hd, by rw [engineStep_command hp hd, exec_eq_next]⟩)
    | error e =>
      exact .inr (.inr ⟨P, e, rfl, hd, by rw [engineStep_illegal hp hd, execIllegal_eq_next]⟩)

/-- A host access: a read, a register write, an ignored write, a buffer write, or a fault outside the
window. -/
theorem hostAccess_cases (access : HostAccess) (s : State) :
    (∃ d, hostAccess access s = .next (s.returnRead d))
    ∨ (∃ r v, s.inReset = false ∧ hostAccess access s = .next (s.writeReg r v))
    ∨ hostAccess access s = .next s
    ∨ (∃ w a v, s.inReset = false ∧ a < s.params.bufSize
        ∧ hostAccess access s = .next (s.bufferWrite w a v))
    ∨ hostAccess access s = .fault .outsideWindow := by
  have hbuf : ∀ {offset a}, regionOf s.params offset = .buffer a → a < s.params.bufSize := by
    intro offset a h
    unfold regionOf at h
    split at h
    · cases h
    · split at h
      · cases h
      · split at h
        · injection h; omega
        · cases h
  cases access with
  | read w offset =>
    cases h : regionOf s.params offset with
    | register => exact .inl ⟨s.registerRead w offset, by simp only [hostAccess, h]⟩
    | gap => exact .inl ⟨s.gapRead w offset, by simp only [hostAccess, h]⟩
    | buffer a => exact .inl ⟨s.bufferRead w a, by simp only [hostAccess, h]⟩
    | outside => exact .inr (.inr (.inr (.inr (by simp only [hostAccess, h]))))
  | write w offset v =>
    cases h : regionOf s.params offset with
    | register =>
      by_cases hc : (regAccessOk w offset && !s.inReset) = true
      · refine .inr (.inl ⟨regAt offset, v, by simp_all, ?_⟩)
        simp only [hostAccess, h, State.registerWrite, hc, if_true]
      · refine .inr (.inr (.inl ?_))
        simp only [hostAccess, h, State.registerWrite, if_neg hc]
    | gap => exact .inr (.inr (.inl (by simp only [hostAccess, h])))
    | buffer a =>
      cases hr : s.inReset with
      | true => exact .inr (.inr (.inl (by simp [hostAccess, h, State.bufferWrite, hr])))
      | false =>
        exact .inr (.inr (.inr (.inl ⟨w, a, v, rfl, hbuf h, by simp only [hostAccess, h]⟩)))
    | outside => exact .inr (.inr (.inr (.inr (by simp only [hostAccess, h]))))

/-- A register write changes one register, clears DONE, issues a command, or does nothing. -/
theorem writeReg_cases (r : Reg) (v : Word) (s : State) :
    s.writeReg r v = s
    ∨ s.writeReg r v = { s with ie := v.getLsbD 0 }
    ∨ s.writeReg r v = { s with done := false }
    ∨ (s.pending = none ∧
        (s.writeReg r v = s.issue v ∨ s.writeReg r v = { s with srcAddr := v }
        ∨ s.writeReg r v = { s with srcLen := v } ∨ s.writeReg r v = { s with dstAddr := v }
        ∨ s.writeReg r v = { s with dstCap := v } ∨ s.writeReg r v = { s with bitlen := v })) := by
  have hop : ∀ t : State, s.writeOperand t = s ∨ (s.pending = none ∧ s.writeOperand t = t) := by
    intro t
    cases hp : s.pending <;> simp [State.writeOperand, State.busy, hp]
  cases r with
  | ctrl => exact .inr (.inl rfl)
  | cmd =>
    cases hp : s.pending with
    | none => exact .inr (.inr (.inr ⟨rfl, .inl (by simp [State.writeReg, State.busy, hp])⟩))
    | some P => exact .inl (by simp [State.writeReg, State.busy, hp])
  | status =>
    by_cases hv : v.getLsbD 1 = true
    · exact .inr (.inr (.inl (if_pos hv)))
    · exact .inl (if_neg hv)
  | srcAddr =>
    rcases hop { s with srcAddr := v } with h | h
    · exact .inl h
    · exact .inr (.inr (.inr ⟨h.1, .inr (.inl h.2)⟩))
  | srcLen =>
    rcases hop { s with srcLen := v } with h | h
    · exact .inl h
    · exact .inr (.inr (.inr ⟨h.1, .inr (.inr (.inl h.2))⟩))
  | dstAddr =>
    rcases hop { s with dstAddr := v } with h | h
    · exact .inl h
    · exact .inr (.inr (.inr ⟨h.1, .inr (.inr (.inr (.inl h.2)))⟩))
  | dstCap =>
    rcases hop { s with dstCap := v } with h | h
    · exact .inl h
    · exact .inr (.inr (.inr ⟨h.1, .inr (.inr (.inr (.inr (.inl h.2))))⟩))
  | bitlen =>
    rcases hop { s with bitlen := v } with h | h
    · exact .inl h
    · exact .inr (.inr (.inr ⟨h.1, .inr (.inr (.inr (.inr (.inr h.2))))⟩))
  | _ => exact .inl rfl

end Sys2Proof.Machine
end

