-- ==== Sys2Proof/Laws/TreeCodec.lean ====
section
/-!
SUPPORT. What `node()` of `des` does on the bytes of a serialized subtree, and what it does with an error
that lies further on in the stream.
-/

namespace Sys2Proof.Machine

/-- The bytes after a leaf's tag give the leaf back (R221, R231). -/
theorem desLeaf_serialized (s : Byte) (f : Word) (rest : List Byte) :
    desLeaf (u32le (s.zeroExtend 32) ++ (u32le f ++ rest)) = .ok (.leaf s f) := by
  have hs := s.isLt
  have hsym : rdU32le (u32le (s.zeroExtend 32) ++ (u32le f ++ rest)) 0 = s.toNat := by
    rw [rdU32le_u32le]; simp; omega
  have hfreq : rdU32le (u32le (s.zeroExtend 32) ++ (u32le f ++ rest)) 4 = f.toNat := by
    rw [← rdU32le_u32le f rest]; rfl
  unfold desLeaf
  rw [if_neg (by simp; omega), if_neg (by omega), hsym, hfreq]
  simp

/-- The same tree with the internal frequencies `des` gives it (R232). -/
def resum : Node → Node
  | .leaf s f => .leaf s f
  | .internal _ l r => .internal ((resum l).freq + (resum r).freq) (resum l) (resum r)

/-- Internal frequencies are not in the format (R223). -/
@[simp] theorem serNode_resum (n : Node) : serNode (resum n) = serNode n := by
  induction n <;> simp_all [resum, serNode]

@[simp] theorem nodeCount_resum (n : Node) : (resum n).nodeCount = n.nodeCount := by
  induction n <;> simp_all [resum, Node.nodeCount]

theorem moduloSums_resum (n : Node) : (resum n).moduloSums := by
  induction n <;> simp_all [resum, Node.moduloSums]

theorem resum_eq_self {n : Node} (h : n.moduloSums) : resum n = n := by
  induction n with
  | leaf => rfl
  | internal f l r ihl ihr => simp only [resum, ihl h.2.1, ihr h.2.2, ← h.1]

/-- `node()` reads exactly the bytes of a serialized subtree that the arena has room for (R231, R236). -/
theorem desNode_serNode (cap : Nat) (n : Node) (fuel cnt : Nat) (rest : List Byte)
    (hc : cnt + n.nodeCount ≤ cap) (hf : (serNode n ++ rest).length ≤ fuel) :
    desNode cap fuel cnt (serNode n ++ rest) = .ok (resum n, cnt + n.nodeCount, rest) := by
  induction n generalizing fuel cnt rest with
  | leaf s f =>
    cases fuel with
    | zero => simp [serNode] at hf
    | succ fuel =>
      simp only [serNode, List.append_assoc, List.cons_append, List.nil_append]
      unfold desNode
      simp only [Node.nodeCount] at hc ⊢
      rw [if_neg (by decide), if_neg (by omega), if_pos trivial, desLeaf_serialized]
      rfl
  | internal f l r ihl ihr =>
    cases fuel with
    | zero => simp [serNode] at hf
    | succ fuel =>
      simp only [serNode, List.cons_append, List.nil_append, List.append_assoc, List.length_cons,
        List.length_append] at hf ⊢
      unfold desNode
      simp only [Node.nodeCount] at hc ⊢
      rw [if_neg (by decide), if_neg (by omega), if_neg (by decide),
        ihl fuel (cnt + 1) _ (by omega) (by simp; omega), except_bind_ok]
      simp only []
      rw [ihr fuel _ rest (by omega) (by simp; omega), except_bind_ok]
      simp only [resum, Nat.add_assoc]

/-- An error at the next node of the stream is the error of the whole parse (R231: the first `raise`
reached decides). -/
theorem desNode_error_after (cap : Nat) (e : CmdError) (bytes : List Byte) (way : List (Option Node))
    (fuel cnt : Nat)
    (he : ∀ fuel, bytes.length ≤ fuel → desNode cap fuel (cnt + nodesBefore way) bytes = .error e)
    (hc : cnt + nodesBefore way ≤ cap) (hf : (streamBefore way ++ bytes).length ≤ fuel) :
    desNode cap fuel cnt (streamBefore way ++ bytes) = .error e := by
  induction way generalizing fuel cnt with
  | nil => exact he _ (by simpa [streamBefore] using hf)
  | cons o way ih =>
    cases fuel with
    | zero => cases o <;> simp [streamBefore] at hf
    | succ fuel =>
      cases o with
      | none =>
        simp only [streamBefore, nodesBefore, List.cons_append, List.length_cons] at hf hc he ⊢
        unfold desNode
        rw [if_neg (by decide), if_neg (by omega), if_neg (by decide),
          ih fuel (cnt + 1) (by simpa [Nat.add_assoc] using he) (by omega) (by omega)]
        rfl
      | some l =>
        simp only [streamBefore, nodesBefore, List.cons_append, List.append_assoc, List.length_cons,
          List.length_append] at hf hc he ⊢
        unfold desNode
        rw [if_neg (by decide), if_neg (by omega), if_neg (by decide),
          desNode_serNode cap l fuel (cnt + 1) _ (by omega) (by simp; omega), except_bind_ok]
        simp only []
        rw [ih fuel _ (by simpa [Nat.add_assoc] using he) (by omega) (by simp; omega)]
        rfl

end Sys2Proof.Machine
end

