-- ==== Sys2Proof/Machine/HostProgram.lean ====
section
/-!
DEFINITION. The notation of host programs: what each line means in host accesses, and the expansion of the
pseudo-instructions (30_encoding.md R108, R109).
-/

namespace Sys2Proof.Machine

/-- A line of a host program (R108) or a pseudo-instruction (R109).  A line that waits says how often the
host reads STATUS before the running command completes, since that number is open (R361, U21). -/
inductive HostLine where
  /-- `WR REG, v` -/
  | wr (r : Reg) (v : Word)
  /-- `RD REG` -/
  | rd (r : Reg)
  /-- `MEMW a, b0 b1 ...` -/
  | memw (a : Nat) (bytes : List Byte)
  /-- `MEMR a, n` -/
  | memr (a n : Nat)
  /-- `CMD MNEM` or `CMD MNEM.V` -/
  | cmd (i : Instr)
  /-- `WAIT` -/
  | wait (polls : Nat)
  /-- `ACK` -/
  | ack
  /-- `RUN MNEM[.V]` -/
  | run (i : Instr) (polls : Nat)
  /-- `SRC a, n` -/
  | src (a n : Word)
  /-- `DST a, c` -/
  | dst (a c : Word)
  /-- `ENCODE a, n, d, c` -/
  | encode (a n d c : Word) (polls : Nat)
  /-- `DECODE a, n, d, c` -/
  | decode (a n d c : Word) (polls : Nat)
deriving DecidableEq, Repr

/-- A 32-bit register write at the register's offset. -/
def writeRegEvent (r : Reg) (v : Word) : Event := .host (.write .word (regOffset r) v)

/-- A 32-bit register read at the register's offset. -/
def readRegEvent (r : Reg) : Event := .host (.read .word (regOffset r))

/-- Reads of STATUS until BUSY = 0: `polls` reads, the completion, and the read that sees it (R108). -/
def waitEvents (polls : Nat) : List Event :=
  List.replicate polls (readRegEvent .status) ++ [.engine, readRegEvent .status]

/-- The command word of a mnemonic, written to CMD (R108, R110). -/
def commandEvents (i : Instr) : List Event := [writeRegEvent .cmd (Sys2Proof.encode i)]

/-- Two operand-register writes (R109). -/
def pairEvents (ra rb : Reg) (a b : Word) : List Event := [writeRegEvent ra a, writeRegEvent rb b]

/-- The events of a host-program line, for a core whose buffer is at `p.bufOffset` (R108, R109). -/
def HostLine.events (p : Config.Params) : HostLine → List Event
  | .wr r v => [writeRegEvent r v]
  | .rd r => [readRegEvent r]
  | .memw a bytes =>
    bytes.zipIdx.map fun b => .host (.write .byte (p.bufOffset + a + b.2) (b.1.zeroExtend 32))
  | .memr a n => (List.range n).map fun j => .host (.read .byte (p.bufOffset + a + j))
  | .cmd i => commandEvents i
  | .wait polls => waitEvents polls
  | .ack => [writeRegEvent .status 0x00000002]
  | .run i polls => commandEvents i ++ waitEvents polls
  | .src a n => pairEvents .srcAddr .srcLen a n
  | .dst a c => pairEvents .dstAddr .dstCap a c
  | .encode a n d c polls =>
    pairEvents .srcAddr .srcLen a n ++ pairEvents .dstAddr .dstCap d c
      ++ commandEvents (.cenc false) ++ waitEvents polls
  | .decode a n d c polls =>
    pairEvents .srcAddr .srcLen a n ++ pairEvents .dstAddr .dstCap d c
      ++ commandEvents (.cdec false) ++ waitEvents polls

/-- The events of a host program, line after line. -/
def programEvents (p : Config.Params) (lines : List HostLine) : List Event :=
  lines.flatMap (HostLine.events p)

end Sys2Proof.Machine
end

