-- ==== Sys2Proof/Tests/Slice0.lean ====
section
/-!
SUPPORT. Small tests of the model: expected results come from spec/95_test_vectors.md (the section is named
at each) or are written out by hand from the rules; and one witness per statement that has hypotheses.
-/

set_option Elab.async false

namespace Sys2Proof.Tests

open Sys2Proof Sys2Proof.Machine

/-! ### Well-formedness: the check refuses each ill-formed term -/

/-- Parameters that meet every bound. -/
def goodParams : Config.Params := Config.resetParams

theorem test_params_good : goodParams.wellFormed = true := by decide

theorem test_params_at_bounds :
    ({ bufSize := 1, bufOffset := 0x1000, nodeCap := 511, resetActiveLevel := false }
      : Config.Params).wellFormed = true
    ∧ ({ goodParams with bufSize := 2 ^ 32 - 1 } : Config.Params).wellFormed = true := by decide

theorem test_params_refuse_bufSize_zero :
    ({ goodParams with bufSize := 0 } : Config.Params).wellFormed = false := by decide

theorem test_params_refuse_bufSize_above :
    ({ goodParams with bufSize := 2 ^ 32 } : Config.Params).wellFormed = false := by decide

theorem test_params_refuse_bufOffset_below :
    ({ goodParams with bufOffset := 0 } : Config.Params).wellFormed = false := by decide

theorem test_params_refuse_bufOffset_unaligned :
    ({ goodParams with bufOffset := 0x1800 } : Config.Params).wellFormed = false := by decide

theorem test_params_refuse_nodeCap_below :
    ({ goodParams with nodeCap := 510 } : Config.Params).wellFormed = false := by decide

theorem test_params_refuse_nodeCap_above :
    ({ goodParams with nodeCap := 2 ^ 32 } : Config.Params).wellFormed = false := by decide

theorem test_instr_wellFormed : (Instr.cdec true).wellFormed = true := by decide

/-! ### Decoding: words written out bit by bit from R100 and R104 -/

theorem test_decode_nop :
    decode 0b00000000000000000000000_0_00000000#32 = .ok (.nop false) := by decide
theorem test_decode_nop_verbose :
    decode 0b00000000000000000000000_1_00000000#32 = .ok (.nop true) := by decide
theorem test_decode_fcount :
    decode 0b00000000000000000000000_0_00000001#32 = .ok (.fcount false) := by decide
theorem test_decode_tbuild :
    decode 0b00000000000000000000000_1_00000010#32 = .ok (.tbuild true) := by decide
theorem test_decode_cgen :
    decode 0b00000000000000000000000_0_00000011#32 = .ok (.cgen false) := by decide
theorem test_decode_tser :
    decode 0b00000000000000000000000_0_00000100#32 = .ok (.tser false) := by decide
theorem test_decode_tdes :
    decode 0b00000000000000000000000_0_00000101#32 = .ok (.tdes false) := by decide
theorem test_decode_benc :
    decode 0b00000000000000000000000_0_00000110#32 = .ok (.benc false) := by decide
theorem test_decode_bdec :
    decode 0b00000000000000000000000_0_00000111#32 = .ok (.bdec false) := by decide
theorem test_decode_bpack :
    decode 0b00000000000000000000000_0_00001000#32 = .ok (.bpack false) := by decide
theorem test_decode_bunpack :
    decode 0b00000000000000000000000_0_00001001#32 = .ok (.bunpack false) := by decide
theorem test_decode_cenc :
    decode 0b00000000000000000000000_1_00001010#32 = .ok (.cenc true) := by decide
theorem test_decode_cdec :
    decode 0b00000000000000000000000_0_00001011#32 = .ok (.cdec false) := by decide

/-- The illegal words of 95_test_vectors.md section 2.11, and the last reserved opcode with V = 1. -/
theorem test_decode_refuses_by_name :
    decode 0x0000000C = .error .reservedOpcode ∧ decode 0x000000FF = .error .reservedOpcode
    ∧ decode 0x000001FF = .error .reservedOpcode ∧ decode 0x00000200 = .error .reservedBits
    ∧ decode 0x8000000A = .error .reservedBits := by decide

/-- Byte lane 0 holds bits [7:0] (R76). -/
theorem test_decodeBytes :
    decodeBytes [0x0A, 0x01, 0x00, 0x00, 0x5A] = .ok (.cenc true, [0x5A])
    ∧ decodeBytes [0x00, 0x00, 0x0A, 0x01] = .error .reservedBits
    ∧ decodeBytes [0x0A, 0x00, 0x00] = .error .truncated := by decide

theorem test_encodeBytes : encodeBytes (.cenc true) = [0x0A, 0x01, 0x00, 0x00] := by decide

theorem test_decodeTableWord :
    decodeTableWord 32 0x0000000B = some (.cdec false) ∧ decodeTableWord 32 0x0000010B = some (.cdec true)
    ∧ decodeTableWord 32 0x0000000C = none := by decide

/-! ### A small state and what a step makes of it -/

/-- The reset state with a source at 0, a destination of `cap` bytes at 0x100, and BITLEN. -/
def small (src : List Byte) (cap : Word) (bitlen : Word := 0) : State :=
  { State.reset with
    mem := (List.range src.length).zip src
    srcLen := BitVec.ofNat 32 src.length
    dstAddr := 0x100
    dstCap := cap
    bitlen := bitlen }

/-- ARENA and CODE of a state replaced. -/
def withTree (T : Arena) (C : Table (Option Bits)) (s : State) : State := { s with arena := T, code := C }

/-- The state a step or a command leads to; the state itself where it stops. -/
def after (s : State) : Host.Outcome State Fault Refusal → State
  | .next t => t
  | .fault _ | .refused _ => s

/-- ERRCODE, RESULT_LEN and BITLEN after the command `i`. -/
def summary (i : Instr) (s : State) : Option CmdError × Nat × Nat :=
  ((after s (exec i s)).errcode, (after s (exec i s)).resultLen.toNat, (after s (exec i s)).bitlen.toNat)

/-- The first `n` destination bytes after the command `i`. -/
def output (i : Instr) (s : State) (n : Nat) : List Byte := (after s (exec i s)).memRead 0x100 n

/-- "abracadabra". -/
def abra : List Byte := [0x61, 0x62, 0x72, 0x61, 0x63, 0x61, 0x64, 0x61, 0x62, 0x72, 0x61]

/-- The "abracadabra" tree of section 2.2. -/
def abraTree : Node :=
  .internal 11 (.leaf 0x61 5)
    (.internal 6 (.internal 2 (.leaf 0x63 1) (.leaf 0x64 1)) (.internal 4 (.leaf 0x62 2) (.leaf 0x72 2)))

/-- The "abracadabra" codes of section 2.3: a = 0, c = 100, d = 101, b = 110, r = 111. -/
def abraCode : Table (Option Bits) :=
  Table.ofFun fun b =>
    if b = 0x61 then some [false]
    else if b = 0x63 then some [true, false, false]
    else if b = 0x64 then some [true, false, true]
    else if b = 0x62 then some [true, true, false]
    else if b = 0x72 then some [true, true, true]
    else none

/-- The counts of "aabbc" (section 2.2). -/
def aabbcCount (b : Byte) : Word :=
  if b = 0x61 then 2 else if b = 0x62 then 2 else if b = 0x63 then 1 else 0

/-- The 18 bytes of "aaaa" (section 1.5). -/
def aaaaContainer : List Byte :=
  [0x09, 0, 0, 0, 0x01, 0x61, 0, 0, 0, 0x04, 0, 0, 0, 0x04, 0, 0, 0, 0x00]

/-! ### One command each (95_test_vectors.md sections 2.1 to 2.11) -/

/-- 4.3: NOP clears the error, and with IE = 1 raises IRQ. -/
theorem test_nop_clears_error :
    (after State.reset (exec (.nop true) { State.reset with errcode := some .bounds, ie := true })).statusWord
      = 0x00000002
    ∧ (after State.reset (exec (.nop true) { State.reset with errcode := some .bounds, ie := true })).irq
      = true := by decide +kernel

/-- 2.1: FREQ of "abracadabra". -/
theorem test_fcount_abracadabra :
    ((after State.reset (exec (.fcount false) (small abra 0))).freq.get 0x61,
     (after State.reset (exec (.fcount false) (small abra 0))).freq.get 0x72,
     (after State.reset (exec (.fcount false) (small abra 0))).freq.get 0x00) = (5, 2, 0) := by
  decide +kernel

/-- 2.12 and 2.1: SRC_ADDR = 0x3FF, SRC_LEN = 2 is out of bounds; 0x400 with length 0 is not, but empty. -/
theorem test_fcount_bounds :
    summary (.fcount false) { State.reset with srcAddr := 0x3FF, srcLen := 2 } = (some .bounds, 0, 0)
    ∧ summary (.fcount false) { State.reset with srcAddr := 0x400, srcLen := 0 }
      = (some .emptyInput, 0, 0) := by decide +kernel

/-- 2.2: "aabbc" (three leaves, so the first merge has sequence number 3): c first, then a before b. -/
theorem test_tbuild_tie_break :
    mergeLoop 3 3 [⟨2, .leaf 0x63 1⟩, ⟨0, .leaf 0x61 2⟩, ⟨1, .leaf 0x62 2⟩]
      = some (.internal 5 (.leaf 0x62 2) (.internal 3 (.leaf 0x63 1) (.leaf 0x61 2))) := by
  decide +kernel

/-- 2.2: the merges of "abracadabra", in which a leaf precedes an internal node of equal frequency. -/
theorem test_tbuild_leaf_before_internal :
    mergeLoop 5 5 [⟨2, .leaf 0x63 1⟩, ⟨3, .leaf 0x64 1⟩, ⟨1, .leaf 0x62 2⟩, ⟨4, .leaf 0x72 2⟩,
      ⟨0, .leaf 0x61 5⟩] = some abraTree := by
  decide +kernel

/-- 2.3: the codes of the "abracadabra" tree. -/
theorem test_cgen_abracadabra :
    (codesOf (some abraTree)).get 0x61 = some [false]
    ∧ (codesOf (some abraTree)).get 0x62 = some [true, true, false]
    ∧ (codesOf (some abraTree)).get 0x64 = some [true, false, true]
    ∧ (codesOf (some abraTree)).get 0x00 = none := by
  decide +kernel

/-- 2.3: a repeated symbol keeps the code of its last leaf; a single leaf has the code 0. -/
theorem test_cgen_repeated_and_single :
    (codesOf (some (.internal 3 (.leaf 0x61 1) (.leaf 0x61 2)))).get 0x61 = some [true]
    ∧ (codesOf (some (.leaf 0x61 4))).get 0x61 = some [false] := by decide +kernel

/-- 2.7: the 19 bytes of a two-leaf tree, and CapacityError at 18. -/
theorem test_tser :
    output (.tser false) { small [] 19 with arena := some (.internal 2 (.leaf 0x61 1) (.leaf 0x62 1)) } 19
      = [0x00, 0x01, 0x61, 0, 0, 0, 0x01, 0, 0, 0, 0x01, 0x62, 0, 0, 0, 0x01, 0, 0, 0]
    ∧ summary (.tser false) { small [] 18 with arena := some (.internal 2 (.leaf 0x61 1) (.leaf 0x62 1)) }
      = (some .capacity, 0, 0) := by decide +kernel

/-- 2.8: the internal frequency wraps modulo 2^32. -/
theorem test_tdes_sum_wraps :
    (after State.reset (exec (.tdes false)
      (small [0x00, 0x01, 0x61, 0, 0, 0, 0xFF, 0xFF, 0xFF, 0xFF, 0x01, 0x62, 0, 0, 0, 0x02, 0, 0, 0] 0))).arena
      = some (.internal 1 (.leaf 0x61 0xFFFFFFFF) (.leaf 0x62 2)) := by decide +kernel

/-- 2.8: trailing byte, tag above 0x01, exhausted leaf, symbol above 0xFF. -/
theorem test_tdes_malformed :
    desTree 511 [0x01, 0x61, 0, 0, 0, 0x04, 0, 0, 0, 0x00] = .error .malformedTree
    ∧ desTree 511 [0x00, 0x02] = .error .malformedTree
    ∧ desTree 511 [0x01, 0x61, 0x00] = .error .malformedTree
    ∧ desTree 511 [0x01, 0x00, 0x01, 0x00, 0x00, 0x01, 0x00, 0x00, 0x00] = .error .malformedTree := by
  decide +kernel

/-- 2.5: BENC of "abracadabra". -/
theorem test_benc_abracadabra :
    output (.benc false) (withTree (some abraTree) abraCode (small abra 3)) 3 = [0x6E, 0x8A, 0xDC]
    ∧ summary (.benc false) (withTree (some abraTree) abraCode (small abra 3)) = (none, 3, 23) := by
  decide +kernel

/-- 2.5: z has no code; DST_CAP = 2 is too small. -/
theorem test_benc_errors :
    summary (.benc false) (withTree (some abraTree) abraCode (small [0x61, 0x62, 0x7A] 3))
      = (some .symbolNotInTable, 0, 0)
    ∧ summary (.benc false) (withTree (some abraTree) abraCode (small abra 2)) = (some .capacity, 0, 0) := by
  decide +kernel

/-- 2.6: BDEC, with a padding bit of 1. -/
theorem test_bdec_abracadabra :
    output (.bdec false) (withTree (some abraTree) abraCode (small [0x6E, 0x8A, 0xDD] 11 23)) 11 = abra
    ∧ summary (.bdec false) (withTree (some abraTree) abraCode (small [0x6E, 0x8A, 0xDD] 11 23))
      = (none, 11, 23) := by decide +kernel

/-- 2.6 and 3: the errors of the walk, and their order. -/
theorem test_bdec_errors :
    summary (.bdec false) (withTree (some abraTree) abraCode (small [0x80] 8 1))
      = (some .truncatedPayload, 0, 1)
    ∧ summary (.bdec false) (withTree none abraCode (small [0x00] 8 9)) = (some .truncatedPayload, 0, 9)
    ∧ summary (.bdec false) (withTree none abraCode (small [0x00] 8 1)) = (some .malformedTree, 0, 1)
    ∧ summary (.bdec false) (withTree (some (.leaf 0x61 4)) abraCode (small [0x40] 0 2))
      = (some .invalidCode, 0, 2) := by decide +kernel

/-- 2.4: BPACK of nine bits. -/
theorem test_bpack :
    output (.bpack false) (small [1, 0, 1, 1, 0, 0, 1, 0, 1] 2) 2 = [0xB2, 0x80]
    ∧ summary (.bpack false) (small [1, 0, 1, 1, 0, 0, 1, 0, 1] 2) = (none, 2, 9) := by decide +kernel

/-- 2.4 and 2.12: InvalidBitError before CapacityError; overlapping ranges. -/
theorem test_bpack_errors :
    summary (.bpack false) (small [2, 2, 2, 2, 2, 2, 2, 2, 2] 0) = (some .invalidBit, 0, 0)
    ∧ summary (.bpack false) { small [1, 0, 1, 1, 0, 0, 1, 0, 1] 2 with dstAddr := 0x004 }
      = (some .overlap, 0, 0)
    ∧ summary (.bpack false) { small [1, 0, 1, 1, 0, 0, 1, 0, 1] 2 with dstAddr := 0x009 }
      = (none, 2, 9) := by decide +kernel

/-- 2.4: BUNPACK ignores padding bits of value 1. -/
theorem test_bunpack :
    output (.bunpack false) (small [0xB2, 0xFF] 9 9) 9 = [1, 0, 1, 1, 0, 0, 1, 0, 1]
    ∧ summary (.bunpack false) (small [0xB2, 0xFF] 9 9) = (none, 9, 9) := by decide +kernel

/-- 2.4: 17 bits of two bytes; DST_CAP = 8. -/
theorem test_bunpack_errors :
    summary (.bunpack false) (small [0xB2, 0x80] 32 17) = (some .truncatedPayload, 0, 17)
    ∧ summary (.bunpack false) (small [0xB2, 0x80] 8 9) = (some .capacity, 0, 9) := by decide +kernel

/-- 2.9 and 2.12: an empty content; bounds come before EmptyContentError. -/
theorem test_cenc_errors :
    summary (.cenc false) (small [] 18) = (some .emptyContent, 0, 0)
    ∧ summary (.cenc false) { State.reset with dstAddr := 0x3F0, dstCap := 0x20 } = (some .bounds, 0, 0) := by
  decide +kernel

/-- 2.10: CDEC of "aaaa", followed by an extra byte. -/
theorem test_cdec_aaaa :
    output (.cdec false) (small (aaaaContainer ++ [0xFF]) 4) 4 = [0x61, 0x61, 0x61, 0x61]
    ∧ summary (.cdec false) (small (aaaaContainer ++ [0xFF]) 4) = (none, 4, 4) := by decide +kernel

/-- 1.9, 1.10, 2.10 and 3: the header errors, the sum that does not wrap, and the tree's trailing byte. -/
theorem test_cdec_errors :
    summary (.cdec false) (small [0x09, 0, 0, 0] 4) = (some .truncatedHeader, 0, 0)
    ∧ summary (.cdec false) (small [0xF8, 0xFF, 0xFF, 0xFF, 0, 0, 0, 0] 4)
      = (some .inconsistentLength, 0, 0)
    ∧ summary (.cdec false) (small
        [0x0A, 0, 0, 0, 0x01, 0x61, 0, 0, 0, 0x04, 0, 0, 0, 0x00, 0x04, 0, 0, 0, 0x00] 4)
      = (some .malformedTree, 0, 0)
    ∧ summary (.cdec false) (small [0, 0, 0, 0, 0x01, 0, 0, 0] 4) = (some .truncatedPayload, 0, 0) := by
  decide +kernel

/-! ### Steps: issue, completion, fetch words, registers and the buffer -/

/-- The command word placed by `withFetchWord` is the one the next step runs. -/
theorem test_withFetchWord_runs :
    step (State.reset.withFetchWord 32 0x00000001)
        = exec (.fcount false) (State.reset.withFetchWord 32 0x00000001)
    ∧ (after State.reset (step (State.reset.withFetchWord 32 0x00000001))).errcode = some .emptyInput :=
  ⟨rfl, by decide +kernel⟩

/-- Reset with nothing placed: no input, no command, so a step changes nothing. -/
theorem test_reset_step_is_idle : step State.reset = .next State.reset := rfl

/-- 4.3: a reserved opcode is issued and completes in error: STATUS reads 0x6. -/
theorem test_illegal_word_status :
    (after State.reset (engineStep (State.reset.issue 0x0000000C))).statusWord = 0x00000006
    ∧ (after State.reset (engineStep (State.reset.issue 0x0000000C))).errcodeWord = 0x00000010 := by
  decide +kernel

/-- R35: reserved bits of CTRL read 0. -/
theorem test_ctrl_write :
    (after State.reset (hostAccess (.write .word 0x010 0xFFFFFFFF) State.reset)).ctrlWord = 1 := by
  decide +kernel

/-- R76: a 32-bit buffer write at an unaligned offset is little-endian; one at the end keeps its part in
the buffer. -/
theorem test_buffer_write :
    (after State.reset (hostAccess (.write .word 0x1001 0x44332211) State.reset)).mem
      = [(1, 0x11), (2, 0x22), (3, 0x33), (4, 0x44)]
    ∧ (after State.reset (hostAccess (.write .word 0x13FE 0x44332211) State.reset)).mem
      = [(0x3FE, 0x11), (0x3FF, 0x22)] := by decide +kernel

/-- R76: reading the two bytes back as one 16-bit value. -/
theorem test_buffer_read :
    (after State.reset (hostAccess (.read .half 0x1001)
      { State.reset with mem := [(1, 0x11), (2, 0x22)] })).readData = some (.half 0x2211) := by
  decide +kernel

/-- 4.2: FREQ_WIN[0x61] is at 0x584 and CODELEN_WIN[0x63] at 0x98C. -/
theorem test_windows :
    regAt 0x584 = .freqWin 0x61 ∧ regAt 0x98C = .codelenWin 0x63 ∧ regOffset (.freqWin 0x61) = 0x584
    ∧ regAt 0x7FC = .freqWin 0xFF ∧ regAt 0xBFC = .codelenWin 0xFF ∧ regAt 0xC00 = .reserved
    ∧ regAt 0x3FC = .reserved := by decide

/-- U20: an access at BUF_OFFSET + BUF_SIZE does not address the core. -/
theorem test_outside_window :
    hostAccess (.read .byte 0x1400) State.reset = .fault .outsideWindow := rfl

/-- 4.1, rows 10 to 15: the expansion of DECODE. -/
theorem test_decode_line_expansion :
    HostLine.events Config.resetParams (.decode 0x100 60 0x200 0x100 1) =
      [.host (.write .word 0x020 0x00000100), .host (.write .word 0x024 0x0000003C),
       .host (.write .word 0x028 0x00000200), .host (.write .word 0x02C 0x00000100),
       .host (.write .word 0x014 0x0000000B), .host (.read .word 0x018), .engine,
       .host (.read .word 0x018)] := by decide

/-- 4.1, row 1: the buffer writes of MEMW. -/
theorem test_memw_line_expansion :
    HostLine.events Config.resetParams (.memw 0x000 [0x61, 0x62]) =
      [.host (.write .byte 0x1000 0x61), .host (.write .byte 0x1001 0x62)] := by decide

/-! ### Witnesses: for each statement with hypotheses, states and operands that meet all of them, one for
each clause -/

/-- The reset state with one event to come. -/
def facing (e : Event) (rest : List Event) : State := { State.reset with inputs := e :: rest }

/-- A state in which the command word `w` has been issued, with the events `l` to come. -/
def running (w : Word) (l : List Event) : State := { (small abra 0x300).issue w with inputs := l }

theorem witness_IllegalWordCompletesInError :
    (NextAccess (.write .word 0x014 0x00000200) [.engine] (facing (.host (.write .word 0x014 0x00000200)) [.engine])
      ∧ (0x00000200#32).extractLsb' 9 23 ≠ 0#23)
    ∧ (NextAccess (.write .word 0x014 0x0000000C) [.engine] (facing (.host (.write .word 0x014 0x0000000C)) [.engine])
      ∧ 0x0B < ((0x0000000C#32).extractLsb' 0 8).toNat)
    ∧ State.reset.inReset = false ∧ State.reset.pending = none :=
  ⟨⟨rfl, by decide⟩, ⟨rfl, by decide⟩, rfl, rfl⟩

theorem witness_VerboseHasNoEffect :
    (running 0x00000001 []).inReset = false ∧ State.reset.inReset = false ∧ State.reset.pending = none :=
  ⟨rfl, rfl, rfl⟩

theorem witness_EngineRunsDecodedCommand :
    ∃ P, (running 0x0000010A []).pending = some P ∧ decode P.word = .ok (.cenc true)
      ∧ (running 0x0000010A []).inputs = [] ∧ (running 0x0000010A [.engine]).pending = some P
      ∧ (running 0x0000010A [.engine]).inputs = .engine :: [] :=
  ⟨_, rfl, by decide, rfl, rfl, rfl⟩

theorem witness_IssuedCommandCompletes :
    ∃ P, (running 0x00000005 ([.write .word 0x13FF 1, .write .word 0x014 0, .read .word 0x018].map
        Event.host)).pending = some P
      ∧ ∀ a ∈ [HostAccess.write .word 0x13FF 1, .write .word 0x014 0, .read .word 0x018],
          inWindow State.reset.params a = true :=
  ⟨_, rfl, by decide⟩

theorem witness_HostAccessLeavesTables :
    ∃ t, NextAccess (.write .byte 0x1000 0x5A) [] (facing (.host (.write .byte 0x1000 0x5A)) [])
      ∧ step (facing (.host (.write .byte 0x1000 0x5A)) []) = .next t :=
  ⟨_, rfl, rfl⟩

theorem witness_CmdWriteIssuesWhileIdle :
    NextAccess (.write .word 0x014 0xFFFFFFFF) [] (facing (.host (.write .word 0x014 0xFFFFFFFF)) [])
    ∧ (facing (.host (.write .word 0x014 0xFFFFFFFF)) []).pending = none
    ∧ NextAccess (.write .word 0x014 0) [] (running 1 [.host (.write .word 0x014 0)])
    ∧ (running 1 [.host (.write .word 0x014 0)]).busy = true
    ∧ NextAccess (.read .word 0x014) [] (facing (.host (.read .word 0x014)) [])
    ∧ State.reset.inReset = false ∧ (running 1 []).inReset = false :=
  ⟨rfl, rfl, rfl, rfl, rfl, rfl, rfl⟩

theorem witness_OperandWritesTakeEffectOnlyWhileIdle :
    State.reset.inReset = false
    ∧ NextAccess (.write .word 0x020 1) [] (facing (.host (.write .word 0x020 1)) [])
    ∧ NextAccess (.write .word 0x024 1) [] (running 1 [.host (.write .word 0x024 1)])
    ∧ NextAccess (.write .word 0x028 1) [] (facing (.host (.write .word 0x028 1)) [])
    ∧ NextAccess (.write .word 0x02C 1) [] (running 1 [.host (.write .word 0x02C 1)])
    ∧ NextAccess (.write .word 0x030 1) [] (facing (.host (.write .word 0x030 1)) []) :=
  ⟨rfl, rfl, rfl, rfl, rfl, rfl⟩

theorem witness_CtrlHoldsInterruptEnable :
    State.reset.inReset = false
    ∧ NextAccess (.write .word 0x010 0xFFFFFFFE) [] (facing (.host (.write .word 0x010 0xFFFFFFFE)) [])
    ∧ NextAccess (.read .word 0x010) [] (facing (.host (.read .word 0x010)) []) :=
  ⟨rfl, rfl, rfl⟩

theorem witness_StatusReadsFlagsAndClearsDone :
    State.reset.inReset = false
    ∧ NextAccess (.read .word 0x018) [] (facing (.host (.read .word 0x018)) [])
    ∧ NextAccess (.write .word 0x018 2) [] (facing (.host (.write .word 0x018 2)) []) :=
  ⟨rfl, rfl, rfl⟩

theorem witness_ErrorCodesOfTheTable :
    State.reset.errcode = none
    ∧ ({ State.reset with errcode := some .invalidCode } : State).errcode = some .invalidCode
    ∧ errorCode .bounds = errorCode .bounds :=
  ⟨rfl, rfl, rfl⟩

theorem witness_ReadOnlyOffsetsIgnoreWrites :
    NextAccess (.write .word 0x03C 1) [] (facing (.host (.write .word 0x03C 1)) [])
    ∧ NextAccess (.write .half 0x040 1) [] (facing (.host (.write .half 0x040 1)) [])
    ∧ NextAccess (.write .word 0xFFF 1) [] (facing (.host (.write .word 0xFFF 1)) [])
    ∧ 0x1000 ≤ State.reset.params.bufOffset
    ∧ 0x03C ∈ [0x000, 0x004, 0x008, 0x00C, 0x01C, 0x034, 0x038, 0x03C]
    ∧ 0xFFF < State.reset.params.bufOffset :=
  ⟨rfl, rfl, rfl, by decide, by decide, by decide⟩

/-- The reset state with other parameters, whose reserved offsets above the register space exist. -/
def wide : State := State.resetWith { goodParams with bufOffset := 0x3000 }

theorem witness_IdleReadsReturnRegisters :
    NextAccess (.read .word 0x000) [] (facing (.host (.read .word 0x000)) [])
    ∧ NextAccess (.read .word 0x03C) [] (facing (.host (.read .word 0x03C)) [])
    ∧ NextAccess (.read .word (0x400 + 4 * (0xFF#8).toNat)) [] (facing (.host (.read .word 0x7FC)) [])
    ∧ NextAccess (.read .word (0x800 + 4 * (0x00#8).toNat)) [] (facing (.host (.read .word 0x800)) [])
    ∧ NextAccess (.read .word 0x2FFC) [] { wide with inputs := [.host (.read .word 0x2FFC)] }
    ∧ 0x2FFC < wide.params.bufOffset ∧ wide.params.wellFormed = true ∧ wide.inReset = false
    ∧ wide.pending = none
    ∧ State.reset.inReset = false ∧ State.reset.pending = none ∧ State.reset.params.wellFormed = true :=
  ⟨rfl, rfl, rfl, rfl, rfl, by decide, by decide, rfl, rfl, rfl, rfl, by decide⟩

/-- An issued command right after reset. -/
def issued : State := State.reset.issue 0x0000000B

theorem issued_inv (l : List Event) : ({ issued with inputs := l } : State).Inv where
  params := (by decide : Config.resetParams.wellFormed = true)
  memory := ⟨.nil, fun _ h => nomatch h⟩
  arena := Nat.zero_le _
  code b := by
    have : ({ issued with inputs := l } : State).code.get b = none := Table.get_const none b
    rw [this]; trivial
  busyNotDone _ := rfl
  busyNoError _ := rfl
  latched := by rintro P ⟨⟩; exact ⟨rfl, rfl, rfl, rfl, rfl⟩
  held h := nomatch h
  fresh := Nat.zero_lt_one

theorem witness_BusyReadsReturnStableRegisters :
    NextAccess (.read .word 0x02C) [] { issued with inputs := [.host (.read .word 0x02C)] }
    ∧ ({ issued with inputs := [.host (.read .word 0x02C)] } : State).Inv ∧ issued.busy = true :=
  ⟨rfl, issued_inv _, rfl⟩

theorem witness_ReadsChangeNothing :
    NextAccess (.read .half 0x13FF) [] (facing (.host (.read .half 0x13FF)) [])
    ∧ 0x13FF < State.reset.params.bufOffset + State.reset.params.bufSize :=
  ⟨rfl, by decide⟩

theorem witness_NarrowOrMisalignedRegisterAccess :
    NextAccess (.write .half 0x014 0) [] (facing (.host (.write .half 0x014 0)) [])
    ∧ NextAccess (.read .word 0xFFF) [] (facing (.host (.read .word 0xFFF)) [])
    ∧ Width.half ≠ .word ∧ 0xFFF % 4 ≠ 0 :=
  ⟨rfl, rfl, by decide, by decide⟩

theorem witness_BufferReadIsLittleEndian :
    NextAccess (.read .word (0x1000 + 0x3FC)) [] (facing (.host (.read .word 0x13FC)) [])
    ∧ NextAccess (.read .half (0x1000 + 0x0FE)) [] (running 1 [.host (.read .half 0x10FE)])
    ∧ (∀ P, (running 1 []).pending = some P → ∀ j, j < 2 → P.dst.contains (0x0FE + j) = false)
    ∧ NextAccess (.read .byte (0x1000 + 0x0FF)) [] (running 1 [.host (.read .byte 0x10FF)])
    ∧ (∀ P, (running 1 []).pending = some P → P.dst.contains 0x0FF = false)
    ∧ State.reset.params.wellFormed = true ∧ (running 1 []).params = State.reset.params
    ∧ (running 1 []).inReset = false :=
  ⟨rfl, rfl, by rintro P ⟨⟩; decide, rfl, by rintro P ⟨⟩; decide, by decide, rfl, rfl⟩

theorem witness_BufferWriteIsLittleEndian :
    NextAccess (.write .word (0x1000 + 0x3FE) 0x44332211) []
      (facing (.host (.write .word 0x13FE 0x44332211)) [])
    ∧ State.reset.params.wellFormed = true ∧ 0x3FE < State.reset.params.bufSize :=
  ⟨rfl, by decide, by decide⟩

theorem witness_WriteInLatchedRangeCorrupts :
    ∃ P, (running 1 []).pending = some P
      ∧ NextAccess (.write .word (0x1000 + 0x0FD) 0) [] (running 1 [.host (.write .word 0x10FD 0)])
      ∧ (P.dst.addr ≤ 0x0FD + 3 ∧ 0x0FD + 3 < P.dst.addr + P.dst.len)
      ∧ NextAccess (.write .half (0x1000 + 11) 0) [] (running 1 [.host (.write .half 0x100B 0)])
      ∧ ∀ j, j < 2 → ¬ (P.src.addr ≤ 11 + j ∧ 11 + j < P.src.addr + P.src.len)
          ∧ ¬ (P.dst.addr ≤ 11 + j ∧ 11 + j < P.dst.addr + P.dst.len) :=
  ⟨_, rfl, rfl, by decide, rfl, by decide⟩

theorem witness_InterruptPendsFromCompletionToAcknowledge :
    NextAccess (.write .word 0x018 2) [] (facing (.host (.write .word 0x018 2)) [])
    ∧ (2#32).getLsbD 1 = true
    ∧ NextAccess (.write .word 0x014 0) [] (facing (.host (.write .word 0x014 0)) [])
    ∧ (facing (.resetInput true) []).inputs = .resetInput (facing (.resetInput true) []).params.resetActiveLevel :: []
    ∧ State.reset.ie = false ∧ (running 0x0000000C []).busy = true :=
  ⟨rfl, by decide, rfl, rfl, rfl, rfl⟩

theorem witness_ResetInputAbandonsCommand :
    (running 1 [.resetInput true]).inputs = .resetInput (running 1 []).params.resetActiveLevel :: []
    ∧ ({ State.reset with inReset := true, inputs := [.resetInput false] } : State).inputs
        = .resetInput (!State.reset.params.resetActiveLevel) :: []
    ∧ NextAccess (.write .byte 0x13FF 1) []
        { State.reset with inReset := true, inputs := [.host (.write .byte 0x13FF 1)] }
    ∧ 0x13FF < State.reset.params.bufOffset + State.reset.params.bufSize :=
  ⟨rfl, rfl, rfl, by decide⟩

theorem witness_InvariantHoldsAfterReset :
    ({ bufSize := 1, bufOffset := 0x1000, nodeCap := 511, resetActiveLevel := false }
      : Config.Params).wellFormed = true := by decide

theorem witness_StepKeepsInvariant :
    ({ issued with inputs := [] } : State).Inv ∧ ∃ t, step ({ issued with inputs := [] } : State) = .next t :=
  ⟨issued_inv _, _, rfl⟩

theorem reset_tables (b : Byte) : State.reset.freq.get b = 0 ∧ State.reset.code.get b = none :=
  ⟨Table.get_const 0 b, Table.get_const none b⟩

theorem witness_ComponentCommandsAfterReset :
    (∀ b, (small [0x00] 0 8).freq.get b = 0) ∧ (∀ b, (small [0x00] 0 8).code.get b = none)
    ∧ (small [0x00] 0 8).arena = none
    ∧ Ready (.tbuild false) (small [0x00] 0 8) ∧ Ready (.cgen false) (small [0x00] 0 8)
    ∧ Ready (.tser false) (small [0x00] 0 8) ∧ Ready (.benc false) (small [0x00] 0 8)
    ∧ Ready (.bdec false) (small [0x00] 0 8)
    ∧ 0 < (small [0x00] 0 8).operands.src.len
    ∧ 0 < (small [0x00] 0 8).operands.bitlen.toNat
    ∧ (small [0x00] 0 8).operands.bitlen.toNat ≤ 8 * (small [0x00] 0 8).operands.src.len := by
  refine ⟨fun b => (reset_tables b).1, fun b => (reset_tables b).2, rfl, ?_, ?_, ?_, ?_, ?_, ?_, ?_, ?_⟩ <;>
    first | decide +kernel | (unfold Ready; decide +kernel)

theorem witness_NopOnlyCompletes : State.reset.operands.corrupt = false := rfl

theorem witness_FcountCountsSourceBytes :
    Ready (.fcount false) (small abra 0) ∧ 0 < (small abra 0).operands.src.len
    ∧ Ready (.fcount false) { State.reset with srcAddr := 0x400 }
    ∧ ({ State.reset with srcAddr := 0x400 } : State).operands.src.len = 0 := by
  unfold Ready; decide +kernel

/-- The reset state with the counts of "aabbc". -/
def counted : State := { State.reset with freq := Table.ofFun aabbcCount }

theorem witness_TbuildBuildsTreeOfPresentSymbols :
    counted.operands.corrupt = false ∧ counted.freq.get 0x63 ≠ 0
    ∧ (symbols.map fun b => (counted.freq.get b).toNat).sum < 2 ^ 32 := by
  have h (b : Byte) : counted.freq.get b = aabbcCount b := Table.get_ofFun aabbcCount b
  simp only [h]
  decide +kernel

theorem witness_TbuildIsDeterministic :
    ∃ t t', counted.operands.corrupt = false
      ∧ counted.freq = ({ counted with draws := 9, arena := some abraTree } : State).freq
      ∧ exec (.tbuild false) counted = .next t
      ∧ exec (.tbuild true) { counted with draws := 9, arena := some abraTree } = .next t' :=
  ⟨_, _, rfl, rfl, exec_eq_next _ _, exec_eq_next _ _⟩

theorem witness_QueueKeepsKeyOrder :
    ([⟨2, .leaf 0x63 1⟩, ⟨0, .leaf 0x61 2⟩] : List QEntry).Pairwise (fun a b => a.before b = true)
    ∧ (∀ a ∈ ([⟨2, .leaf 0x63 1⟩, ⟨0, .leaf 0x61 2⟩] : List QEntry), a.seq ≠ 3 ∧ a.seq < 3)
    ∧ 0 = (symbols.filter fun b => decide (State.reset.freq.get b ≠ 0)).length := by
  refine ⟨by decide, by decide, ?_⟩
  simp [fun b => (reset_tables b).1]

theorem witness_TbuildOfEmptyTableFails :
    State.reset.operands.corrupt = false ∧ ∀ b, State.reset.freq.get b = 0 :=
  ⟨rfl, fun b => (reset_tables b).1⟩

/-- The reset state with one count, of "zzzz". -/
def oneCount : State := { State.reset with freq := (Table.const 0).set 0x7A 4 }

theorem witness_TbuildOfOneSymbolIsLeaf :
    oneCount.operands.corrupt = false ∧ oneCount.freq.get 0x7A ≠ 0
    ∧ ∀ c, c ≠ 0x7A → oneCount.freq.get c = 0 := by
  refine ⟨rfl, by decide +kernel, fun c h => ?_⟩
  exact (Table.get_set_of_ne _ _ (Ne.symm h)).trans (Table.get_const 0 c)

theorem witness_CgenWritesLeafPaths :
    ({ State.reset with arena := some abraTree } : State).operands.corrupt = false
    ∧ ({ State.reset with arena := some (.leaf 0x61 4) } : State).operands.corrupt = false := ⟨rfl, rfl⟩

theorem witness_CodesArePrefixFree :
    Node.distinctSymbols (.internal 2 (.leaf 0x61 1) (.leaf 0x62 1))
    ∧ (codesOf (some (.internal 2 (.leaf 0x61 1) (.leaf 0x62 1)))).get 0x61 = some [false]
    ∧ (codesOf (some (.internal 2 (.leaf 0x61 1) (.leaf 0x62 1)))).get 0x62 = some [true]
    ∧ (0x61 : Byte) ≠ 0x62 := by unfold Node.distinctSymbols; decide +kernel

theorem witness_TserWritesSerializedTree :
    Ready (.tser false) { small [] 49 with arena := some abraTree }
    ∧ (serTree (some abraTree)).length ≤ ({ small [] 49 with arena := some abraTree } : State).operands.dstCap.toNat
    ∧ Ready (.tser false) { small [] 48 with arena := some abraTree }
    ∧ ({ small [] 48 with arena := some abraTree } : State).operands.dstCap.toNat
        < (serTree (some abraTree)).length := by
  unfold Ready; decide +kernel

theorem witness_DeserializeInvertsSerialize :
    desTree 511 [0x01, 0x41, 0, 0, 0, 0, 0, 0, 0] = .ok (some (.leaf 0x41 0))
    ∧ serTree (some (.leaf 0x41 0)) = [0x01, 0x41, 0, 0, 0, 0, 0, 0, 0]
    ∧ Arena.nodeCount (some (.leaf 0x41 0)) ≤ 511 ∧ Arena.moduloSums (some (.leaf 0x41 0)) :=
  ⟨by decide +kernel, by decide +kernel, by decide, trivial⟩

theorem witness_DeserializeInvertsSerialize_arena :
    ∃ t, (Instr.tdes false).opcode ∈ [0x02#8, 0x05, 0x0A, 0x0B] ∧ 511 ≤ (small [] 0).params.nodeCap
      ∧ (small [] 0).operands.corrupt = false ∧ exec (.tdes false) (small [] 0) = .next t
      ∧ t.errcode = none :=
  ⟨_, by decide, by decide, rfl, exec_eq_next _ _, by decide +kernel⟩

theorem witness_DeserializeRefusals :
    (Node.leaf 0x41 0).nodeCount ≤ 1 ∧ 1 < (Node.internal 0 (.leaf 0x41 0) (.leaf 0x41 0)).nodeCount
    ∧ desTree 511 [0x02] = .error .malformedTree := by decide +kernel

/-- The next node of the stream 00 01 61 00 00 00 01 00 00 00 is the root's right subtree, after two nodes. -/
theorem witness_DeserializeRefusals_stream :
    streamBefore [some (.leaf 0x61 1)] = [0x00, 0x01, 0x61, 0, 0, 0, 0x01, 0, 0, 0]
    ∧ nodesBefore [some (.leaf 0x61 1)] ≤ 2 ∧ [some (Node.leaf 0x61 1)] ≠ []
    ∧ 0x01 < (0x02#8).toNat ∧ (0x01#8).toNat ≤ 0x01 ∧ nodesBefore [some (.leaf 0x61 1)] = 2
    ∧ nodesBefore [some (.leaf 0x61 1)] < 3 ∧ [0x61#8, 0, 0, 0, 0x01, 0, 0].length < 8
    ∧ 0xFF < (0x00000100#32).toNat := by decide +kernel

/-- The wrapping tree of section 2.8. -/
def wrapTree : Node := .internal 1 (.leaf 0x61 0xFFFFFFFF) (.leaf 0x62 2)

theorem witness_TdesLoadsSerializedTree :
    Ready (.tdes false) (small (serNode wrapTree) 0)
    ∧ (small (serNode wrapTree) 0).src = serTree (some wrapTree)
    ∧ Arena.nodeCount (some wrapTree) ≤ State.reset.params.nodeCap
    ∧ Arena.moduloSums (some wrapTree)
    ∧ Ready (.tdes false) (small [0x02] 0) ∧ desTree 511 (small [0x02] 0).src = .error .malformedTree
    ∧ Ready (.tdes false) (small [] 0) ∧ desTree 511 (small [] 0).src = .ok none :=
  ⟨by unfold Ready; decide +kernel, by decide +kernel, by decide, ⟨by decide, trivial, trivial⟩,
    by unfold Ready; decide +kernel, by decide +kernel, by unfold Ready; decide +kernel, by decide +kernel⟩

theorem witness_UnpackReadsFirstBitHighest :
    8 * [0xB2#8, 0x80].length < 17 ∧ 16 ≤ 8 * [0xB2#8, 0x80].length := by decide

theorem witness_BpackPacksBitPerByteSource :
    Ready (.bpack false) (small [1, 0, 1, 1, 0, 0, 1, 0, 1] 2)
    ∧ (∀ b ∈ (small [1, 0, 1, 1, 0, 0, 1, 0, 1] 2).src, b = 0x00 ∨ b = 0x01)
    ∧ ((small [1, 0, 1, 1, 0, 0, 1, 0, 1] 2).operands.src.len + 7) / 8
        ≤ (small [1, 0, 1, 1, 0, 0, 1, 0, 1] 2).operands.dstCap.toNat
    ∧ Ready (.bpack false) (small [1, 0, 1, 1, 0, 0, 1, 0, 1] 1)
    ∧ (small [1, 0, 1, 1, 0, 0, 1, 0, 1] 1).operands.dstCap.toNat
        < ((small [1, 0, 1, 1, 0, 0, 1, 0, 1] 1).operands.src.len + 7) / 8
    ∧ Ready (.bpack false) (small [1, 2] 1)
    ∧ (∃ b ∈ (small [1, 2] 1).src, b ≠ 0x00 ∧ b ≠ 0x01) := by
  unfold Ready; decide +kernel

theorem witness_BunpackUnpacksOneBitPerByte :
    Ready (.bunpack false) (small [0xB2, 0x80] 16 16)
    ∧ (small [0xB2, 0x80] 16 16).operands.bitlen.toNat ≤ 8 * (small [0xB2, 0x80] 16 16).operands.src.len
    ∧ (small [0xB2, 0x80] 16 16).operands.bitlen.toNat ≤ (small [0xB2, 0x80] 16 16).operands.dstCap.toNat
    ∧ Ready (.bunpack false) (small [0xB2, 0x80] 15 16)
    ∧ (small [0xB2, 0x80] 15 16).operands.dstCap.toNat < (small [0xB2, 0x80] 15 16).operands.bitlen.toNat
    ∧ Ready (.bunpack false) (small [0xB2, 0x80] 15 17)
    ∧ 8 * (small [0xB2, 0x80] 15 17).operands.src.len < (small [0xB2, 0x80] 15 17).operands.bitlen.toNat := by
  unfold Ready; decide +kernel

/-- The codes of the "abracadabra" table as a function. -/
def abraCodeOf (b : Byte) : Bits := (abraCode.get b).getD []

theorem witness_BencPacksCodesOfSource :
    Ready (.benc false) (withTree none abraCode (small abra 3))
    ∧ (∀ b ∈ (withTree none abraCode (small abra 3)).src,
        (withTree none abraCode (small abra 3)).code.get b = some (abraCodeOf b))
    ∧ (((withTree none abraCode (small abra 3)).src.flatMap abraCodeOf).length + 7) / 8
        ≤ (withTree none abraCode (small abra 3)).operands.dstCap.toNat
    ∧ Ready (.benc false) (withTree none abraCode (small abra 2))
    ∧ (withTree none abraCode (small abra 2)).operands.dstCap.toNat
        < (((withTree none abraCode (small abra 2)).src.flatMap abraCodeOf).length + 7) / 8
    ∧ Ready (.benc false) (withTree none abraCode (small [0x7A] 1))
    ∧ (∃ b ∈ (withTree none abraCode (small [0x7A] 1)).src,
        (withTree none abraCode (small [0x7A] 1)).code.get b = none) := by
  unfold Ready; decide +kernel

theorem witness_DecodeWalkInvertsPaths :
    decodeTree (some abraTree) [true, false, false] = .ok [0x63]
    ∧ decodeTree (some abraTree) [true] = .error .truncatedPayload
    ∧ (∀ x ∈ [false, false], x = false) ∧ (∃ x ∈ [false, true], x = true) := by decide +kernel

theorem witness_BdecWritesDecodedBytes :
    Ready (.bdec false) (withTree (some abraTree) abraCode (small [0x80] 0 9))
    ∧ 8 * (withTree (some abraTree) abraCode (small [0x80] 0 9)).operands.src.len
        < (withTree (some abraTree) abraCode (small [0x80] 0 9)).operands.bitlen.toNat
    ∧ Ready (.bdec false) (withTree (some abraTree) abraCode (small [0x80] 1 3))
    ∧ unpack (withTree (some abraTree) abraCode (small [0x80] 1 3)).src 3 = .ok [true, false, false]
    ∧ decodeTree (some abraTree) [true, false, false] = .ok [0x63]
    ∧ Ready (.bdec false) (withTree (some abraTree) abraCode (small [0x80] 0 3))
    ∧ (withTree (some abraTree) abraCode (small [0x80] 0 3)).operands.dstCap.toNat < [0x63#8].length
    ∧ decodeTree (some abraTree) [true] = .error .truncatedPayload := by
  unfold Ready; decide +kernel

/-- A CENC of "aaaa" with `cap` destination bytes. -/
def aaaaState (cap : Word) : State := small [0x61, 0x61, 0x61, 0x61] cap

/-- The counts of "aaaa". -/
def aaaaFreq : Table Word := Table.ofFun fun b => BitVec.ofNat 32 ((aaaaState 18).src.count b)

theorem witness_CencEncodesEverySource : abra ≠ [] ∧ abra.length < 2 ^ 32 := by decide

theorem witness_CdecReadsContainer :
    Ready (.cdec false) (small [0, 0, 0, 0, 0, 0, 0] 4) ∧ (small [0, 0, 0, 0, 0, 0, 0] 4).operands.src.len < 8
    ∧ Ready (.cdec false) (small [0x01, 0, 0, 0, 0, 0, 0, 0] 4)
    ∧ (small [0x01, 0, 0, 0, 0, 0, 0, 0] 4).operands.src.len
        < rdU32le (small [0x01, 0, 0, 0, 0, 0, 0, 0] 4).src 0 + 8
    ∧ Ready (.cdec false) (small aaaaContainer 4)
    ∧ rdU32le (small aaaaContainer 4).src 0 + 8 ≤ (small aaaaContainer 4).operands.src.len
    ∧ desTree 511 (byteSlice (small aaaaContainer 4).src 4 (4 + 9)) = .ok (some (.leaf 0x61 4))
    ∧ decodePayload (some (.leaf 0x61 4)) ((small aaaaContainer 4).src.drop (8 + 9))
        (rdU32le (small aaaaContainer 4).src (4 + 9)) = .ok [0x61, 0x61, 0x61, 0x61]
    ∧ Ready (.cdec false) (small aaaaContainer 3)
    ∧ (small aaaaContainer 3).operands.dstCap.toNat < [0x61#8, 0x61, 0x61, 0x61].length
    ∧ desTree 511 [0x02] = .error .malformedTree
    ∧ decodePayload none [0x80] 1 = .error .malformedTree := by
  unfold Ready; decide +kernel

theorem witness_ContainerCommandsAreStateless :
    (aaaaState 18).src = (withTree (some abraTree) abraCode (aaaaState 18)).src
    ∧ (aaaaState 18).operands.dstCap = (withTree (some abraTree) abraCode (aaaaState 18)).operands.dstCap
    ∧ (aaaaState 18).params.nodeCap = (withTree (some abraTree) abraCode (aaaaState 18)).params.nodeCap
    ∧ Ready (.cenc false) (aaaaState 18)
    ∧ Ready (.cenc true) (withTree (some abraTree) abraCode (aaaaState 18))
    ∧ Ready (.cdec false) (small aaaaContainer 4)
    ∧ Ready (.cdec true) (withTree (some abraTree) abraCode (small aaaaContainer 4)) := by
  unfold Ready; decide +kernel

theorem witness_CommonChecksComeFirst :
    (∃ t, (Instr.cgen false).opcode ∈ [0x00#8, 0x02, 0x03] ∧ exec (.cgen false) State.reset = .next t)
    ∧ (Instr.fcount false).opcode ∈ [0x01#8, 0x05, 0x06, 0x07, 0x08, 0x09, 0x0A, 0x0B]
    ∧ ({ State.reset with srcAddr := 0x3FF, srcLen := 2 } : State).params.bufSize
        < ({ State.reset with srcAddr := 0x3FF, srcLen := 2 } : State).operands.src.addr
          + ({ State.reset with srcAddr := 0x3FF, srcLen := 2 } : State).operands.src.len
    ∧ (Instr.tser false).opcode ∈ [0x04#8, 0x06, 0x07, 0x08, 0x09, 0x0A, 0x0B]
    ∧ ({ State.reset with dstAddr := 0x3F0, dstCap := 0x11 } : State).params.bufSize
        < ({ State.reset with dstAddr := 0x3F0, dstCap := 0x11 } : State).operands.dst.addr
          + ({ State.reset with dstAddr := 0x3F0, dstCap := 0x11 } : State).operands.dst.len
    ∧ (Instr.bpack false).opcode ∈ [0x06#8, 0x07, 0x08, 0x09, 0x0A, 0x0B]
    ∧ ({ small abra 2 with dstAddr := 10 } : State).operands.src.addr
        < ({ small abra 2 with dstAddr := 10 } : State).operands.dst.addr
          + ({ small abra 2 with dstAddr := 10 } : State).operands.dst.len
    ∧ ({ small abra 2 with dstAddr := 10 } : State).operands.dst.addr
        < ({ small abra 2 with dstAddr := 10 } : State).operands.src.addr
          + ({ small abra 2 with dstAddr := 10 } : State).operands.src.len
    ∧ ({ small abra 2 with dstAddr := 10 } : State).operands.corrupt = false :=
  ⟨⟨_, by decide, exec_eq_next _ _⟩, by decide +kernel⟩

theorem witness_ErrorCompletionIsPrecise :
    ∃ t, (small [1, 1] 0).operands.corrupt = false ∧ exec (.bpack false) (small [1, 1] 0) = .next t
      ∧ t.errcode = some .capacity :=
  ⟨_, rfl, exec_eq_next _ _, by decide +kernel⟩

theorem witness_SuccessWritesOnlyItsRow :
    ∃ t, (small [1, 1] 1).operands.corrupt = false ∧ exec (.bpack false) (small [1, 1] 1) = .next t
      ∧ t.errcode = none :=
  ⟨_, rfl, exec_eq_next _ _, by decide +kernel⟩

theorem witness_CommandsReportOnlyTheirErrors :
    ∃ t, exec (.fcount false) State.reset = .next t ∧ t.errcode = some .emptyInput
      ∧ State.reset.operands.corrupt = false :=
  ⟨_, exec_eq_next _ _, by decide +kernel, rfl⟩

theorem witness_CorruptedCompletionIsConfined :
    ({ issued with pending := issued.pending.map fun P => { P with corrupt := true } } : State).operands.corrupt
      = true := by decide

theorem witness_CorruptedCompletionIsConfined_illegal :
    ∃ P e, ({ issued with pending := some { State.reset.latch 0x0000000C with corrupt := true } }
        : State).pending = some P ∧ P.corrupt = true ∧ decode P.word = .error e :=
  ⟨_, .reservedOpcode, rfl, rfl, by decide⟩

theorem witness_CodeTableFollowsTree :
    ∃ t, State.reset.codeMatchesTree ∧ (∀ P, issued.pending = some P → P.corrupt = false)
      ∧ issued.codeMatchesTree ∧ step issued = .next t :=
  ⟨_, .inr rfl, by rintro P ⟨⟩; rfl, .inr rfl, rfl⟩

/-! ### The slower ones: a whole CENC -/

/-- 4.1: the 60 bytes of P1's container. -/
theorem test_cenc_abracadabra :
    output (.cenc false) (small abra 60) 60 =
      [0x31, 0, 0, 0]
        ++ [0x00, 0x01, 0x61, 0, 0, 0, 0x05, 0, 0, 0]
        ++ [0x00, 0x00, 0x01, 0x63, 0, 0, 0, 0x01, 0, 0, 0, 0x01, 0x64, 0, 0, 0, 0x01, 0, 0, 0]
        ++ [0x00, 0x01, 0x62, 0, 0, 0, 0x02, 0, 0, 0, 0x01, 0x72, 0, 0, 0, 0x02, 0, 0, 0]
        ++ [0x17, 0, 0, 0] ++ [0x6E, 0x8A, 0xDC]
    ∧ summary (.cenc false) (small abra 60) = (none, 60, 23) := by decide +kernel

theorem witness_CencWritesContainer :
    Ready (.cenc false) (small [] 18) ∧ (small [] 18).operands.src.len = 0
    ∧ Ready (.cenc false) (aaaaState 18) ∧ 0 < (aaaaState 18).operands.src.len
    ∧ countSymbols (aaaaState 18).src = .ok aaaaFreq
    ∧ buildTree aaaaFreq = .ok (.leaf 0x61 4)
    ∧ encodeBits (codesOf (some (.leaf 0x61 4))) (aaaaState 18).src = .ok [false, false, false, false]
    ∧ 8 + (serNode (.leaf 0x61 4)).length + (4 + 7) / 8 ≤ (aaaaState 18).operands.dstCap.toNat
    ∧ Ready (.cenc false) (aaaaState 17)
    ∧ (aaaaState 17).operands.dstCap.toNat < 8 + (serNode (.leaf 0x61 4)).length + (4 + 7) / 8 := by
  refine ⟨?_, by decide, ?_, by decide +kernel, rfl, ?_, by decide +kernel, by decide +kernel, ?_,
    by decide +kernel⟩ <;>
    first | decide +kernel | (unfold Ready; decide +kernel)

theorem witness_CdecInvertsCenc :
    Ready (.cenc false) (aaaaState 18)
    ∧ (after State.reset (exec (.cenc false) (aaaaState 18))).errcode = none
    ∧ Ready (.cdec false) (small aaaaContainer 4)
    ∧ (small aaaaContainer 4).src
        = (after State.reset (exec (.cenc false) (aaaaState 18))).memRead (aaaaState 18).operands.dst.addr
            (after State.reset (exec (.cenc false) (aaaaState 18))).resultLen.toNat
    ∧ 511 ≤ (small aaaaContainer 4).params.nodeCap
    ∧ (aaaaState 18).src.length ≤ (small aaaaContainer 4).operands.dstCap.toNat := by
  unfold Ready; decide +kernel

end Sys2Proof.Tests
end

section
/-!
SUPPORT. Bounds on the trees and code tables the core computes: a built or parsed tree fits ARENA (R53), and
the codes of a tree that fits are of legal length (R52).
-/

namespace Sys2Proof.Machine

/-! ### The size of a tree -/

theorem nodeCount_pos (t : Node) : 1 ≤ t.nodeCount := by
  cases t <;> simp only [Node.nodeCount] <;> omega

/-- Every level of a tree has a node on the longest path and one beside it. -/
theorem two_mul_depth_lt_nodeCount (t : Node) : 2 * t.depth < t.nodeCount := by
  induction t with
  | leaf => simp [Node.depth, Node.nodeCount]
  | internal f l r ihl ihr =>
    simp only [Node.depth, Node.nodeCount]
    have := nodeCount_pos l
    have := nodeCount_pos r
    omega

theorem length_le_depth_of_mem_paths {t : Node} {e : Byte × Bits} (h : e ∈ t.paths) :
    e.2.length ≤ t.depth := by
  induction t generalizing e with
  | leaf s f =>
    obtain rfl : e = (s, []) := by simpa [Node.paths] using h
    simp
  | internal f l r ihl ihr =>
    simp only [Node.paths, List.mem_append, List.mem_map] at h
    simp only [Node.depth]
    rcases h with ⟨p, hp, rfl⟩ | ⟨p, hp, rfl⟩
    · have := ihl hp
      simp only [List.length_cons]; omega
    · have := ihr hp
      simp only [List.length_cons]; omega

theorem path_ne_nil_of_internal {f : Word} {l r : Node} {e : Byte × Bits}
    (h : e ∈ (Node.internal f l r).paths) : e.2 ≠ [] := by
  simp only [Node.paths, List.mem_append, List.mem_map] at h
  rcases h with ⟨p, -, rfl⟩ | ⟨p, -, rfl⟩ <;> simp

/-! ### The code table of a tree -/

/-- The walk leaves an entry alone or sets it to the path of a leaf, behind the path walked so far (R161). -/
theorem visitCodes_get (t : Node) (p : Bits) (C : Table (Option Bits)) (b : Byte) :
    (visitCodes t p C).get b = C.get b
      ∨ ∃ q, (b, q) ∈ t.paths ∧ (visitCodes t p C).get b = some (p ++ q) := by
  induction t generalizing p C with
  | leaf s f =>
    by_cases hs : s = b
    · subst hs; exact .inr ⟨[], by simp [Node.paths], by simp [visitCodes]⟩
    · exact .inl (Table.get_set_of_ne C _ hs)
  | internal f l r ihl ihr =>
    simp only [visitCodes, Node.paths, List.mem_append, List.mem_map]
    rcases ihr (p ++ [true]) (visitCodes l (p ++ [false]) C) with hr | ⟨q, hq, hr⟩
    · rcases ihl (p ++ [false]) C with hl | ⟨q, hq, hl⟩
      · exact .inl (hr.trans hl)
      · exact .inr ⟨false :: q, .inl ⟨_, hq, rfl⟩, by simp [hr, hl]⟩
    · exact .inr ⟨true :: q, .inr ⟨_, hq, rfl⟩, by simp [hr]⟩

/-- The codes of a tree within NODE_CAP are of legal length (R52, R165). -/
theorem codesOf_entryOk {cap : Nat} (hcap : 511 ≤ cap) {T : Arena} (hT : Arena.nodeCount T ≤ cap)
    (b : Byte) : codeEntryOk cap ((codesOf T).get b) := by
  cases T with
  | none => simp [codesOf, codeEntryOk]
  | some t =>
    cases t with
    | leaf s f =>
      simp only [codesOf, Table.get_set]
      split
      · simp only [codeEntryOk, maxCodeLen, List.length_singleton]; omega
      · simp [codeEntryOk]
    | internal f l r =>
      rcases visitCodes_get (.internal f l r) [] (Table.const none) b with h | ⟨q, hq, h⟩
      · simp [codesOf, h, codeEntryOk]
      · have hlen := length_le_depth_of_mem_paths hq
        have hpos := List.length_pos_iff.2 (path_ne_nil_of_internal hq)
        have hdepth := two_mul_depth_lt_nodeCount (.internal f l r)
        simp only [Arena.nodeCount] at hT
        simp only at hlen hpos
        simp only [codesOf, h, codeEntryOk, maxCodeLen, List.nil_append]
        omega

/-! ### The size of a built tree -/

/-- The nodes of all the trees in a queue. -/
def queueNodes (q : List QEntry) : Nat := (q.map fun e => e.node.nodeCount).sum

theorem queueInsert_perm (e : QEntry) (q : List QEntry) : (queueInsert e q).Perm (e :: q) := by
  induction q with
  | nil => exact .refl _
  | cons x q ih =>
    unfold queueInsert
    split
    · exact .refl _
    · exact (ih.cons x).trans (.swap e x q)

theorem queueNodes_eq_of_perm {q q' : List QEntry} (h : q.Perm q') : queueNodes q = queueNodes q' :=
  (h.map _).sum_eq

theorem queueNodes_cons (e : QEntry) (q : List QEntry) :
    queueNodes (e :: q) = e.node.nodeCount + queueNodes q := by
  simp [queueNodes]

/-- Each merge removes one entry from the queue and adds one node to the trees in it. -/
theorem nodeCount_of_mergeLoop {n seq : Nat} {q : List QEntry} {t : Node}
    (h : mergeLoop n seq q = some t) : t.nodeCount + 1 = queueNodes q + q.length := by
  induction n generalizing seq q with
  | zero =>
    match q, h with
    | [e], h =>
      obtain rfl : e.node = t := by simpa [mergeLoop] using h
      simp [queueNodes]
  | succ n ih =>
    match q, h with
    | [e], h =>
      obtain rfl : e.node = t := by simpa [mergeLoop] using h
      simp [queueNodes]
    | x :: y :: q, h =>
      have hp := queueInsert_perm { seq := seq, node := mergeNodes x.node y.node } q
      have := ih h
      rw [queueNodes_eq_of_perm hp, hp.length_eq] at this
      simp only [queueNodes_cons, mergeNodes, Node.nodeCount, List.length_cons] at this ⊢
      omega

theorem foldl_queueInsert_perm (l q : List QEntry) :
    (l.foldl (fun q e => queueInsert e q) q).Perm (l ++ q) := by
  induction l generalizing q with
  | nil => exact .refl _
  | cons e l ih => exact ((ih _).trans ((queueInsert_perm e q).append_left l)).trans List.perm_middle

theorem initialQueue_perm (F : Table Word) : (initialQueue F).Perm (leafEntries F) := by
  simpa [initialQueue] using foldl_queueInsert_perm (leafEntries F) []

theorem initialQueue_length (F : Table Word) :
    (initialQueue F).length = (presentSymbols F).length := by
  simp [(initialQueue_perm F).length_eq, leafEntries]

theorem presentSymbols_length_le (F : Table Word) : (presentSymbols F).length ≤ 256 := by
  simpa [presentSymbols, symbols_length] using symbols.length_filter_le fun s => decide (F.get s ≠ 0)

/-- Before the first merge every tree in the queue is a leaf. -/
theorem queueNodes_initialQueue (F : Table Word) :
    queueNodes (initialQueue F) = (presentSymbols F).length := by
  rw [queueNodes_eq_of_perm (initialQueue_perm F)]
  simp [queueNodes, leafEntries, Function.comp_def, Node.nodeCount]

theorem mergeLoop_of_buildTree {F : Table Word} {t : Node} (h : buildTree F = .ok t) :
    mergeLoop (initialQueue F).length (initialQueue F).length (initialQueue F) = some t := by
  unfold buildTree at h
  split at h
  · cases h
  · next hm => cases h; exact hm

/-- A full binary tree over the present symbols: `2 k - 1` nodes for `k` of them (R146). -/
theorem nodeCount_of_buildTree {F : Table Word} {t : Node} (h : buildTree F = .ok t) :
    t.nodeCount + 1 = 2 * (presentSymbols F).length := by
  have := nodeCount_of_mergeLoop (mergeLoop_of_buildTree h)
  rw [queueNodes_initialQueue, initialQueue_length] at this
  omega

/-- NODE_CAP is at least 511, so every built tree fits (R12, R53). -/
theorem nodeCount_le_of_buildTree {F : Table Word} {t : Node} (h : buildTree F = .ok t) :
    t.nodeCount ≤ 511 := by
  have := nodeCount_of_buildTree h
  have := presentSymbols_length_le F
  omega

/-! ### The size of a parsed tree -/

theorem nodeCount_of_desLeaf {bytes : List Byte} {t : Node} (h : desLeaf bytes = .ok t) :
    t.nodeCount = 1 := by
  unfold desLeaf at h
  split at h
  · cases h
  · split at h
    · cases h
    · cases h; rfl

/-- The counter of `node()` goes up by the nodes it makes and never passes the capacity (R231, R236). -/
theorem counter_of_desNode {cap fuel cnt : Nat} {bytes : List Byte} {t : Node} {cnt' : Nat}
    {rest : List Byte} (hc : cnt ≤ cap) (h : desNode cap fuel cnt bytes = .ok (t, cnt', rest)) :
    cnt' = cnt + t.nodeCount ∧ cnt' ≤ cap := by
  induction fuel generalizing cnt bytes t cnt' rest with
  | zero => cases bytes <;> cases h
  | succ fuel ih =>
    cases bytes with
    | nil => cases h
    | cons tag bs =>
      unfold desNode at h
      split at h
      · cases h
      · split at h
        · cases h
        · split at h
          · obtain ⟨leaf, hleaf, h⟩ := except_bind_eq_ok.1 h
            cases h
            have := nodeCount_of_desLeaf hleaf
            omega
          · obtain ⟨⟨l, cntL, restL⟩, hl, h⟩ := except_bind_eq_ok.1 h
            obtain ⟨⟨r, cntR, restR⟩, hr, h⟩ := except_bind_eq_ok.1 h
            cases h
            have ⟨hl, hlcap⟩ := ih (by omega) hl
            have ⟨hr, hrcap⟩ := ih hlcap hr
            simp only [Node.nodeCount]
            omega

/-- A parsed tree fits the capacity it was parsed with (R53). -/
theorem nodeCount_le_of_desTree {cap : Nat} {buf : List Byte} {T : Arena}
    (h : desTree cap buf = .ok T) : Arena.nodeCount T ≤ cap := by
  unfold desTree at h
  split at h
  · cases h; simp [Arena.nodeCount]
  · obtain ⟨⟨t, cnt, rest⟩, hnode, h⟩ := except_bind_eq_ok.1 h
    dsimp only at h
    split at h
    · cases h
    · cases h
      have := counter_of_desNode (Nat.zero_le cap) hnode
      simp only [Arena.nodeCount]
      omega

/-- An entry cut to what its type allows is of legal length (R304). -/
theorem boundCode_entryOk (cap : Nat) (c : Option Bits) : codeEntryOk cap (boundCode cap c) := by
  cases c with
  | none => trivial
  | some c =>
    simp only [boundCode]
    split
    · next h => exact h
    · trivial

/-- A tree cut to what ARENA allows fits it (R304). -/
theorem nodeCount_boundArena_le (cap : Nat) (T : Arena) : Arena.nodeCount (boundArena cap T) ≤ cap := by
  unfold boundArena
  split
  · next h => exact h
  · exact Nat.zero_le cap

end Sys2Proof.Machine
end

section
/-!
SUPPORT. What each command's own pseudocode writes when it succeeds, and that these effects are legal: the
output fits the destination, the tree fits ARENA and the codes are of legal length.
-/

namespace Sys2Proof.Machine

/-! ### What a success writes, per command -/

theorem nopBody_eq_ok {P : Pending} {s : State} {fx : Effects} :
    nopBody P s = .ok fx ↔ fx = {} := by
  simp [nopBody, eq_comm]

theorem fcountBody_eq_ok {P : Pending} {s : State} {fx : Effects} :
    fcountBody P s = .ok fx ↔ ∃ F, countSymbols (s.sourceBytes P) = .ok F ∧ fx = { freq := some F } := by
  simp [fcountBody, except_bind_eq_ok, eq_comm (a := fx)]

theorem tbuildBody_eq_ok {P : Pending} {s : State} {fx : Effects} :
    tbuildBody P s = .ok fx ↔ ∃ T, buildTree s.freq = .ok T
      ∧ fx = { arena := some (some T), code := some (Table.const none) } := by
  simp [tbuildBody, except_bind_eq_ok, eq_comm (a := fx)]

theorem cgenBody_eq_ok {P : Pending} {s : State} {fx : Effects} :
    cgenBody P s = .ok fx ↔ fx = { code := some (codesOf s.arena) } := by
  simp [cgenBody, eq_comm]

theorem tserBody_eq_ok {P : Pending} {s : State} {fx : Effects} :
    tserBody P s = .ok fx ↔ (serTree s.arena).length ≤ P.dstCap.toNat
      ∧ fx = { out := serTree s.arena } := by
  simp [tserBody, fitOutput_eq_ok]

theorem tdesBody_eq_ok {P : Pending} {s : State} {fx : Effects} :
    tdesBody P s = .ok fx ↔ ∃ T, desTree s.params.nodeCap (s.sourceBytes P) = .ok T
      ∧ fx = { arena := some T, code := some (Table.const none) } := by
  simp [tdesBody, except_bind_eq_ok, eq_comm (a := fx)]

theorem bencBody_eq_ok {P : Pending} {s : State} {fx : Effects} :
    bencBody P s = .ok fx ↔ ∃ bits, encodeBits s.code (s.sourceBytes P) = .ok bits
      ∧ (pack bits).length ≤ P.dstCap.toNat
      ∧ fx = { out := pack bits, bitlen := some (BitVec.ofNat 32 bits.length) } := by
  simp [bencBody, except_bind_eq_ok, fitOutput_eq_ok]

theorem bdecBody_eq_ok {P : Pending} {s : State} {fx : Effects} :
    bdecBody P s = .ok fx ↔ ∃ out, decodePayload s.arena (s.sourceBytes P) P.bitlen.toNat = .ok out
      ∧ out.length ≤ P.dstCap.toNat ∧ fx = { out := out } := by
  simp [bdecBody, except_bind_eq_ok, fitOutput_eq_ok]

theorem bpackBody_eq_ok {P : Pending} {s : State} {fx : Effects} :
    bpackBody P s = .ok fx ↔ ∃ bits, bitsOfBytes (s.sourceBytes P) = .ok bits
      ∧ (pack bits).length ≤ P.dstCap.toNat ∧ fx = { out := pack bits, bitlen := some P.srcLen } := by
  simp [bpackBody, except_bind_eq_ok, fitOutput_eq_ok]

theorem bunpackBody_eq_ok {P : Pending} {s : State} {fx : Effects} :
    bunpackBody P s = .ok fx ↔ ∃ bits, unpack (s.sourceBytes P) P.bitlen.toNat = .ok bits
      ∧ bits.length ≤ P.dstCap.toNat ∧ fx = { out := bits.map byteOfBit } := by
  simp [bunpackBody, except_bind_eq_ok, fitOutput_eq_ok]

theorem cencBody_eq_ok {P : Pending} {s : State} {fx : Effects} :
    cencBody P s = .ok fx ↔ P.srcLen.toNat ≠ 0 ∧ ∃ F, countSymbols (s.sourceBytes P) = .ok F
      ∧ ∃ T, buildTree F = .ok T ∧ ∃ bits, encodeBits (codesOf (some T)) (s.sourceBytes P) = .ok bits
      ∧ (containerOf (serNode T) bits).length ≤ P.dstCap.toNat
      ∧ fx = { out := containerOf (serNode T) bits, freq := some F, arena := some (some T)
               code := some (codesOf (some T)), bitlen := some (BitVec.ofNat 32 bits.length) } := by
  by_cases h : P.srcLen.toNat = 0
  · simp [cencBody, h]
  · simp [cencBody, h, except_bind_eq_ok, fitOutput_eq_ok]

theorem cdecBody_eq_ok {P : Pending} {s : State} {fx : Effects} :
    cdecBody P s = .ok fx ↔ ∃ T B out,
      readContainer s.params.nodeCap (s.sourceBytes P) = .ok (T, B, out)
      ∧ out.length ≤ P.dstCap.toNat
      ∧ fx = { out := out, arena := some T, code := some (Table.const none)
               bitlen := some (BitVec.ofNat 32 B) } := by
  simp [cdecBody, except_bind_eq_ok, fitOutput_eq_ok]

/-- The tree of a container is one that `des` accepted (R260). -/
theorem nodeCount_le_of_readContainer {cap : Nat} {src out : List Byte} {T : Arena} {B : Nat}
    (h : readContainer cap src = .ok (T, B, out)) : Arena.nodeCount T ≤ cap := by
  unfold readContainer at h
  split at h
  · cases h
  · split at h
    · cases h
    · obtain ⟨T', hT, h⟩ := except_bind_eq_ok.1 h
      obtain ⟨out', -, h⟩ := except_bind_eq_ok.1 h
      cases h
      exact nodeCount_le_of_desTree hT

/-! ### Legal effects -/

/-- The tables a success writes are values of their types: ARENA within NODE_CAP and CODE entries of legal
length (R52, R53). -/
structure Effects.TablesLegal (cap : Nat) (fx : Effects) : Prop where
  arena : ∀ T, fx.arena = some T → Arena.nodeCount T ≤ cap
  code : ∀ C, fx.code = some C → ∀ b, codeEntryOk cap (Table.get C b)

/-- A success that replaces neither ARENA nor CODE. -/
theorem Effects.TablesLegal.of_none {cap : Nat} {fx : Effects} (ha : fx.arena = none)
    (hc : fx.code = none) : fx.TablesLegal cap :=
  ⟨by simp [ha], by simp [hc]⟩

/-- A success that replaces both. -/
theorem Effects.TablesLegal.of_some {cap : Nat} {fx : Effects} {T : Arena} {C : Table (Option Bits)}
    (ha : fx.arena = some T) (hc : fx.code = some C) (hT : Arena.nodeCount T ≤ cap)
    (hC : ∀ b, codeEntryOk cap (Table.get C b)) : fx.TablesLegal cap :=
  ⟨by simpa [ha] using hT, by simpa [hc] using hC⟩

theorem codeEntryOk_const_none (cap : Nat) (b : Byte) :
    codeEntryOk cap ((Table.const none : Table (Option Bits)).get b) := by
  simp [codeEntryOk]

/-- Every command that succeeds writes legal tables (R52, R53). -/
theorem bodyOf_tablesLegal {i : Instr} {P : Pending} {s : State} {fx : Effects}
    (hcap : 511 ≤ s.params.nodeCap) (harena : Arena.nodeCount s.arena ≤ s.params.nodeCap)
    (h : bodyOf i P s = .ok fx) : fx.TablesLegal s.params.nodeCap := by
  cases i with
  | nop => obtain rfl := (nopBody_eq_ok (P := P) (s := s)).1 h; exact .of_none rfl rfl
  | fcount => obtain ⟨F, -, rfl⟩ := fcountBody_eq_ok.1 h; exact .of_none rfl rfl
  | tbuild =>
    obtain ⟨T, hT, rfl⟩ := (tbuildBody_eq_ok (P := P)).1 h
    exact .of_some rfl rfl ((nodeCount_le_of_buildTree hT).trans hcap)
      (codeEntryOk_const_none _)
  | cgen =>
    obtain rfl := (cgenBody_eq_ok (P := P)).1 h
    exact ⟨by simp, by simpa using codesOf_entryOk hcap harena⟩
  | tser => obtain ⟨-, rfl⟩ := tserBody_eq_ok.1 h; exact .of_none rfl rfl
  | tdes =>
    obtain ⟨T, hT, rfl⟩ := tdesBody_eq_ok.1 h
    exact .of_some rfl rfl (nodeCount_le_of_desTree hT) (codeEntryOk_const_none _)
  | benc => obtain ⟨_, -, -, rfl⟩ := bencBody_eq_ok.1 h; exact .of_none rfl rfl
  | bdec => obtain ⟨_, -, -, rfl⟩ := bdecBody_eq_ok.1 h; exact .of_none rfl rfl
  | bpack => obtain ⟨_, -, -, rfl⟩ := bpackBody_eq_ok.1 h; exact .of_none rfl rfl
  | bunpack => obtain ⟨_, -, -, rfl⟩ := bunpackBody_eq_ok.1 h; exact .of_none rfl rfl
  | cenc =>
    obtain ⟨-, F, -, T, hT, bits, -, -, rfl⟩ := cencBody_eq_ok.1 h
    have hfits : Arena.nodeCount (some T) ≤ s.params.nodeCap := (nodeCount_le_of_buildTree hT).trans hcap
    exact .of_some rfl rfl hfits (codesOf_entryOk hcap hfits)
  | cdec =>
    obtain ⟨T, B, out, hT, -, rfl⟩ := cdecBody_eq_ok.1 h
    exact .of_some rfl rfl (nodeCount_le_of_readContainer hT) (codeEntryOk_const_none _)

/-- A command that succeeds writes no byte, or it writes the destination and its output fits DST_CAP
(R87, R104). -/
theorem bodyOf_output {i : Instr} {P : Pending} {s : State} {fx : Effects}
    (h : bodyOf i P s = .ok fx) :
    fx.out = [] ∨ ((rowOf i).writesDst = true ∧ fx.out.length ≤ P.dstCap.toNat) := by
  cases i with
  | nop => obtain rfl := (nopBody_eq_ok (P := P) (s := s)).1 h; exact .inl rfl
  | fcount => obtain ⟨F, -, rfl⟩ := fcountBody_eq_ok.1 h; exact .inl rfl
  | tbuild => obtain ⟨T, -, rfl⟩ := (tbuildBody_eq_ok (P := P)).1 h; exact .inl rfl
  | cgen => obtain rfl := (cgenBody_eq_ok (P := P)).1 h; exact .inl rfl
  | tser => obtain ⟨hfit, rfl⟩ := tserBody_eq_ok.1 h; exact .inr ⟨rfl, hfit⟩
  | tdes => obtain ⟨T, -, rfl⟩ := tdesBody_eq_ok.1 h; exact .inl rfl
  | benc => obtain ⟨_, -, hfit, rfl⟩ := bencBody_eq_ok.1 h; exact .inr ⟨rfl, hfit⟩
  | bdec => obtain ⟨_, -, hfit, rfl⟩ := bdecBody_eq_ok.1 h; exact .inr ⟨rfl, hfit⟩
  | bpack => obtain ⟨_, -, hfit, rfl⟩ := bpackBody_eq_ok.1 h; exact .inr ⟨rfl, hfit⟩
  | bunpack =>
    obtain ⟨bits, -, hfit, rfl⟩ := bunpackBody_eq_ok.1 h
    exact .inr ⟨rfl, by simpa using hfit⟩
  | cenc => obtain ⟨-, F, -, T, -, bits, -, hfit, rfl⟩ := cencBody_eq_ok.1 h; exact .inr ⟨rfl, hfit⟩
  | cdec => obtain ⟨T, B, out, -, hfit, rfl⟩ := cdecBody_eq_ok.1 h; exact .inr ⟨rfl, hfit⟩

end Sys2Proof.Machine
end

section
/-!
SUPPORT. The invariant: it holds at reset, and each operation of the core keeps it.
-/

namespace Sys2Proof.Machine

theorem nodeCap_ge_of_wellFormed {p : Config.Params} (h : p.wellFormed = true) : 511 ≤ p.nodeCap := by
  simp only [Config.Params.wellFormed, Bool.and_eq_true, decide_eq_true_eq] at h
  omega

theorem bufOffset_of_wellFormed {p : Config.Params} (h : p.wellFormed = true) :
    0x1000 ≤ p.bufOffset ∧ p.bufOffset % 0x1000 = 0 := by
  simp only [Config.Params.wellFormed, Bool.and_eq_true, decide_eq_true_eq] at h
  omega

/-! ### Reset -/

/-- Taking the reset values establishes the invariant, whatever stood there before (R58, R340). -/
theorem State.Inv.takeReset {s : State} (hp : s.params.wellFormed = true) (asserted : Bool) :
    (s.takeReset asserted).Inv where
  params := hp
  memory := reset_memory_wf s.params
  arena := Nat.zero_le _
  code b := codeEntryOk_const_none _ b
  busyNotDone _ := rfl
  busyNoError _ := rfl
  latched P hP := by simp at hP
  held _ := by simp [State.atResetValues]
  fresh := Nat.lt_succ_self _

theorem State.Inv.resetWith {p : Config.Params} (hp : p.wellFormed = true) :
    (State.resetWith p).Inv where
  params := hp
  memory := reset_memory_wf p
  arena := Nat.zero_le _
  code b := codeEntryOk_const_none _ b
  busyNotDone _ := rfl
  busyNoError _ := rfl
  latched P hP := by simp [State.resetWith] at hP
  held hr := by simp [State.resetWith] at hr
  fresh := Nat.one_pos

theorem State.Inv.resetLevel {s : State} (h : s.Inv) (level : Bool) : (s.resetLevel level).Inv := by
  unfold State.resetLevel
  split
  · exact .takeReset h.params true
  · split
    · exact .takeReset h.params false
    · exact h

/-! ### Host accesses -/

/-- The invariant does not speak of the events still to come. -/
theorem State.Inv.after {s : State} (h : s.Inv) (rest : List Event) : (s.after rest).Inv :=
  { h with }

theorem State.Inv.returnRead {s : State} (h : s.Inv) (d : ReadData) : (s.returnRead d).Inv :=
  { h with fresh := h.fresh.trans (Nat.lt_succ_self _) }

/-- An issue latches the operand registers as they are and clears DONE and ERRCODE (R45, R103). -/
theorem State.Inv.issue {s : State} (h : s.Inv) (hr : s.inReset = false) (w : Word) :
    (s.issue w).Inv :=
  { h with
    busyNotDone := fun _ => rfl
    busyNoError := fun _ => rfl
    latched := fun P hP => by
      obtain rfl : s.latch w = P := by simpa using hP
      simp [Pending.matches, State.latch]
    held := fun ht => by simp [hr] at ht }

/-- A register write keeps the invariant: it sets CTRL, clears DONE, issues a command, or changes an operand
register of an idle core (R35 to R43, R60). -/
theorem State.Inv.writeReg {s : State} (h : s.Inv) (hr : s.inReset = false) (r : Reg) (v : Word) :
    (s.writeReg r v).Inv := by
  have noHold : ∀ {q : Prop}, s.inReset = true → q := fun ht => by simp [hr] at ht
  rcases writeReg_cases r v s with e | e | e | ⟨hidle, e⟩
  · rw [e]; exact h
  · rw [e]; exact { h with held := noHold }
  · rw [e]; exact { h with busyNotDone := fun _ => rfl, held := noHold }
  · have noRecord : ∀ {q : Pending → Prop} P, s.pending = some P → q P := fun P hP => by
      simp [hidle] at hP
    rcases e with e | e | e | e | e | e <;> rw [e]
    · exact h.issue hr v
    all_goals exact { h with latched := noRecord, held := noHold }

theorem writtenBytes_end_le {p : Config.Params} {a : Nat} (w : Width) (v : Word) (ha : a < p.bufSize) :
    a + (writtenBytes p w a v).length ≤ p.bufSize := by
  simp only [writtenBytes, List.length_take]
  omega

/-- A buffer write keeps the invariant: only bytes in the buffer are written, and a record it corrupts keeps
its operands (R76, R80). -/
theorem State.Inv.bufferWrite {s : State} (h : s.Inv) (hr : s.inReset = false) {a : Nat}
    (ha : a < s.params.bufSize) (w : Width) (v : Word) : (s.bufferWrite w a v).Inv := by
  have hbusy : ∀ n, (s.pending.map (Pending.disturb a n)).isSome = s.busy := fun n =>
    Option.isSome_map
  simp only [State.bufferWrite, hr, Bool.false_eq_true, if_false]
  exact { h with
    memory := Memory.writeBytes_wf h.memory (writtenBytes_end_le w v ha)
    busyNotDone := fun hb => h.busyNotDone ((hbusy _).symm.trans hb)
    busyNoError := fun hb => h.busyNoError ((hbusy _).symm.trans hb)
    latched := fun P hP => by
      obtain ⟨Q, hQ, rfl⟩ := Option.map_eq_some_iff.1 hP
      exact h.latched Q hQ
    held := fun ht => by simp at ht }

theorem State.Inv.hostAccess {s t : State} {access : HostAccess} (h : s.Inv)
    (ht : Machine.hostAccess access s = .next t) : t.Inv := by
  rcases hostAccess_cases access s with
    ⟨d, e⟩ | ⟨r, v, hr, e⟩ | e | ⟨w, a, v, hr, ha, e⟩ | e <;> rw [e] at ht <;> cases ht
  · exact h.returnRead d
  · exact h.writeReg hr r v
  · exact h
  · exact h.bufferWrite hr ha w v

/-! ### Completions -/

/-- A command runs only while the reset input is not asserted (R340). -/
theorem State.Inv.not_inReset_of_busy {s : State} (h : s.Inv) {P : Pending} (hP : s.pending = some P) :
    s.inReset = false := by
  cases hr : s.inReset with
  | false => rfl
  | true =>
    have hv := h.held hr
    simp [State.atResetValues, hP] at hv

/-- A completion leaves an idle core, so the invariant asks only for the buffer and the tables. -/
theorem State.Inv.completion_of_tables {row : CommandRow} {body : Body} {s : State} (h : s.Inv)
    (hr : s.inReset = false) (hmem : (completion row body s).mem.wf s.params.bufSize)
    (harena : Arena.nodeCount (completion row body s).arena ≤ s.params.nodeCap)
    (hcode : ∀ b, codeEntryOk s.params.nodeCap ((completion row body s).code.get b)) :
    (completion row body s).Inv := by
  obtain ⟨hparams, -, -, -, -, -, hreset, -, -⟩ := completion_sameRegisters row body s
  obtain ⟨hidle, -⟩ := completion_idle row body s
  obtain ⟨hdraws, hmemDraw⟩ := completion_draws row body s
  exact {
    params := hparams ▸ h.params
    memory := hparams ▸ hmem
    arena := hparams ▸ harena
    code := hparams ▸ hcode
    busyNotDone := fun hb => by simp [State.busy, hidle] at hb
    busyNoError := fun hb => by simp [State.busy, hidle] at hb
    latched := fun P hP => by simp [hidle] at hP
    held := fun ht => by simp [hreset, hr] at ht
    fresh := by rw [hdraws, hmemDraw]; exact h.fresh.trans (Nat.lt_succ_self _) }

/-- The result of a command that passes the common checks is its own pseudocode's. -/
theorem commandResult_eq_ok {row : CommandRow} {body : Body} {s : State} {fx : Effects} :
    commandResult row body s = .ok fx ↔
      commonChecks row s.operands s.params.bufSize = .ok () ∧ body s.operands s = .ok fx := by
  unfold commandResult
  split <;> simp_all

/-- An error after which the buffer may change comes from the command's own pseudocode, behind the common
checks (R303, R306). -/
theorem commonChecks_of_error {row : CommandRow} {body : Body} {s : State} {e : CmdError}
    (h : commandResult row body s = .error e) (hk : keepsBuffer e = false) :
    commonChecks row s.operands s.params.bufSize = .ok () := by
  cases hc : commonChecks row s.operands s.params.bufSize with
  | ok u => rfl
  | error e' =>
    obtain rfl : e' = e := by simpa [commandResult, hc] using h
    rcases commonChecks_error hc with ⟨rfl, -⟩ | ⟨rfl, -⟩ <;> cases hk

/-- A completion keeps the invariant when the pseudocode's success does: its output lies in the destination
range, which the common checks put in the buffer, and its tables are legal.  An error or a corrupted
completion scrambles only buffer bytes and draws values of the tables' types (R303, R304). -/
theorem State.Inv.completion {row : CommandRow} {body : Body} {s : State} (h : s.Inv)
    (hr : s.inReset = false)
    (hout : ∀ fx, body s.operands s = .ok fx →
      fx.out = [] ∨ (row.writesDst = true ∧ fx.out.length ≤ s.operands.dstCap.toNat))
    (htables : ∀ fx, body s.operands s = .ok fx → fx.TablesLegal s.params.nodeCap) :
    (Machine.completion row body s).Inv := by
  have hdst : commonChecks row s.operands s.params.bufSize = .ok () → row.writesDst = true →
      s.operands.dst.addr + s.operands.dst.len ≤ s.params.bufSize := fun hc =>
    (commonChecks_eq_ok.1 hc).2.1
  rcases completion_cases row body s with ⟨-, e⟩ | ⟨err, -, hres, e⟩ | ⟨fx, -, hres, e⟩
  case inl =>
    apply h.completion_of_tables hr <;> rw [e]
    · rw [State.completeCorrupt_mem]
      split
      · exact Memory.scramble_clip_wf _ h.memory
      · exact h.memory
    · rw [State.completeCorrupt_arena]
      split
      · exact nodeCount_boundArena_le _ _
      · exact h.arena
    · intro b
      rw [State.completeCorrupt_code]
      split
      · rw [Table.get_ofFun]; exact boundCode_entryOk _ _
      · exact h.code b
  case inr.inl =>
    apply h.completion_of_tables hr <;> rw [e]
    · rw [State.completeError_mem]
      split
      · next hw =>
        simp only [Bool.and_eq_true, Bool.not_eq_true'] at hw
        exact Memory.scramble_wf h.memory (hdst (commonChecks_of_error hres hw.2) hw.1)
      · exact h.memory
    · exact h.arena
    · exact h.code
  case inr.inr =>
    obtain ⟨hchecks, hbody⟩ := commandResult_eq_ok.1 hres
    have hlegal := htables fx hbody
    apply h.completion_of_tables hr <;> rw [e]
    · rw [State.completeOk_mem]
      rcases hout fx hbody with hnil | ⟨hw, hfit⟩
      · rw [hnil]; exact h.memory
      · exact Memory.writeBytes_wf h.memory ((Nat.add_le_add_left hfit _).trans (hdst hchecks hw))
    · rw [State.completeOk_arena]
      cases ha : fx.arena with
      | none => exact h.arena
      | some T => exact hlegal.arena T ha
    · rw [State.completeOk_code]
      cases hc : fx.code with
      | none => exact h.code
      | some C => exact hlegal.code C hc

/-- The engine's step keeps the invariant: the core is idle, or a command or an illegal word completes. -/
theorem State.Inv.engineStep {s t : State} (h : s.Inv) (ht : Machine.engineStep s = .next t) : t.Inv := by
  rcases engineStep_cases s with ⟨-, e⟩ | ⟨P, i, hP, -, e⟩ | ⟨P, _, hP, -, e⟩ <;>
    rw [e] at ht <;> cases ht
  · exact h
  · exact h.completion (h.not_inReset_of_busy hP) (fun _ => bodyOf_output)
      fun _ => bodyOf_tablesLegal (nodeCap_ge_of_wellFormed h.params) h.arena
  · exact h.completion (h.not_inReset_of_busy hP) (fun _ hfx => by cases hfx) (fun _ hfx => by cases hfx)

/-! ### Steps -/

theorem State.Inv.applyEvent {s t : State} {e : Event} (h : s.Inv)
    (ht : Machine.applyEvent e s = .next t) : t.Inv := by
  cases e with
  | host access => exact h.hostAccess ht
  | engine => exact h.engineStep ht
  | resetInput level => cases ht; exact h.resetLevel level

/-- Settles O26: each event keeps the invariant, and so does the engine when no event is left. -/
theorem stepKeepsInvariant : Obligations.StepKeepsInvariant := by
  intro s t h ht
  cases hin : s.inputs with
  | nil => exact h.engineStep (step_nil hin ▸ ht)
  | cons e rest => exact (h.after rest).applyEvent (step_cons hin ▸ ht)

/-- Settles O25: the reset values meet the invariant for every legal choice of parameters, those of
`State.reset` among them. -/
theorem invariantHoldsAfterReset : Obligations.InvariantHoldsAfterReset :=
  ⟨fun _ => .resetWith, .resetWith (by decide)⟩

end Sys2Proof.Machine
end

section
/-!
SUPPORT. Host accesses of the register space: what a 32-bit aligned read returns and what a write does, said
once, and the statements about each register.
-/

namespace Sys2Proof.Machine

/-! ### Accesses by region -/

theorem step_host {s : State} {access : HostAccess} {rest : List Event}
    (h : NextAccess access rest s) : step s = hostAccess access (s.after rest) := step_cons h

theorem regionOf_register {p : Config.Params} {offset : Nat} (h : offset < 0x1000) :
    regionOf p offset = .register := if_pos h

theorem regionOf_gap {p : Config.Params} {offset : Nat} (h : 0x1000 ≤ offset)
    (hp : offset < p.bufOffset) : regionOf p offset = .gap := by
  rw [regionOf, if_neg (Nat.not_lt.2 h), if_pos hp]

/-- The data of a 32-bit aligned read of a register whose read the spec gives a value (R60, R75). -/
theorem registerRead_word {s : State} {offset : Nat} (ha : offset % 4 = 0) (hr : s.inReset = false)
    (hb : s.busy = false ∨ unspecifiedWhileBusy (regAt offset) = false) :
    s.registerRead .word offset = .word (s.readReg (regAt offset)) := by
  rcases hb with hb | hb <;> simp [State.registerRead, regAccessOk, ha, hr, hb]

/-- A 32-bit aligned read of a register returns its value and changes nothing else (R77). -/
theorem step_reads_register {s : State} {offset : Nat} {rest : List Event} {v : Word}
    (h : NextAccess (.read .word offset) rest s) (hr : s.inReset = false)
    (hb : s.busy = false ∨ unspecifiedWhileBusy (regAt offset) = false)
    (hlt : offset < 0x1000) (ha : offset % 4 = 0) (hv : s.readReg (regAt offset) = v) :
    step s = .next { s with inputs := rest, readData := some (.word v), draws := s.draws + 1 } := by
  have hread : (s.after rest).registerRead .word offset = .word v :=
    (registerRead_word (s := s.after rest) ha hr hb).trans (congrArg ReadData.word hv)
  simp only [step_host h, hostAccess, regionOf_register hlt, hread]
  rfl

/-- A 32-bit read of the reserved offsets above the register space returns 0 (R50). -/
theorem step_reads_gap {s : State} {offset : Nat} {rest : List Event}
    (h : NextAccess (.read .word offset) rest s) (hr : s.inReset = false) (hge : 0x1000 ≤ offset)
    (hend : offset + 4 ≤ s.params.bufOffset) :
    step s = .next { s with inputs := rest, readData := some (.word 0), draws := s.draws + 1 } := by
  have hread : (s.after rest).gapRead .word offset = .word 0 := by
    simp [State.gapRead, State.after, hr, hend]
  have hregion : regionOf (s.after rest).params offset = .gap :=
    regionOf_gap hge (show offset < s.params.bufOffset by omega)
  simp only [step_host h, hostAccess, hregion, hread]
  rfl

/-- A 32-bit aligned write of the register space is the write of its register (R75). -/
theorem step_writes_register {s : State} {offset : Nat} {v : Word} {rest : List Event}
    (h : NextAccess (.write .word offset v) rest s) (hr : s.inReset = false) (hlt : offset < 0x1000)
    (ha : offset % 4 = 0) :
    step s = .next ((s.after rest).writeReg (regAt offset) v) := by
  have hok : (regAccessOk .word offset && !(s.after rest).inReset) = true := by
    simp [regAccessOk, State.after, ha, hr]
  simp only [step_host h, hostAccess, regionOf_register hlt, State.registerWrite, hok, if_true]

/-! ### The register map above the single registers -/

/-- From offset 0x040 on there are the two windows and reserved offsets (R48 to R50). -/
theorem regAt_of_ge {offset : Nat} (h : 0x040 ≤ offset) :
    regAt offset =
      if 0x400 ≤ offset ∧ offset < 0x800 then .freqWin (BitVec.ofNat 8 ((offset - 0x400) / 4))
      else if 0x800 ≤ offset ∧ offset < 0xC00 then .codelenWin (BitVec.ofNat 8 ((offset - 0x800) / 4))
      else .reserved := by
  unfold regAt
  split
  case h_17 => rfl
  all_goals omega

theorem regAt_freqWin (b : Byte) : regAt (0x400 + 4 * b.toNat) = .freqWin b := by
  have := b.isLt
  rw [regAt_of_ge (by omega), if_pos (by omega)]
  simp

theorem regAt_codelenWin (b : Byte) : regAt (0x800 + 4 * b.toNat) = .codelenWin b := by
  have := b.isLt
  rw [regAt_of_ge (by omega), if_neg (by omega), if_pos (by omega)]
  simp

theorem regAt_reserved {offset : Nat} (h : 0x040 ≤ offset ∧ offset < 0x400 ∨ 0xC00 ≤ offset) :
    regAt offset = .reserved := by
  rw [regAt_of_ge (by omega), if_neg (by omega), if_neg (by omega)]

/-! ### Writes without effect -/

/-- The registers, windows and reserved offsets that take no write (R31 to R34, R38, R44, R46 to R50). -/
def Reg.readOnly : Reg → Bool
  | .id | .version | .param0 | .param1 | .errcode | .resultLen | .nodeCount | .leafCount
  | .freqWin _ | .codelenWin _ | .reserved => true
  | .ctrl | .cmd | .status | .srcAddr | .srcLen | .dstAddr | .dstCap | .bitlen => false

theorem writeReg_of_readOnly {r : Reg} (h : r.readOnly = true) (v : Word) (s : State) :
    s.writeReg r v = s := by
  cases r with
  | ctrl | cmd | status | srcAddr | srcLen | dstAddr | dstCap | bitlen => cases h
  | _ => rfl

theorem regAt_readOnly_of_ge {offset : Nat} (h : 0x040 ≤ offset) : (regAt offset).readOnly = true := by
  rw [regAt_of_ge h]
  split
  · rfl
  · split <;> rfl

/-- A write of any width at a read-only register changes nothing. -/
theorem registerWrite_of_readOnly {offset : Nat} (h : (regAt offset).readOnly = true) (w : Width)
    (v : Word) (s : State) : s.registerWrite w offset v = s := by
  unfold State.registerWrite
  split
  · exact writeReg_of_readOnly h v s
  · rfl

/-- Settles O14: such an offset is a read-only register, where a write of any width changes nothing, or it is
a reserved offset above the register space. -/
theorem readOnlyOffsetsIgnoreWrites : Obligations.ReadOnlyOffsetsIgnoreWrites := by
  intro s w offset v rest h hoff hcase
  have hsingle : ∀ n ∈ [0x000, 0x004, 0x008, 0x00C, 0x01C, 0x034, 0x038, 0x03C],
      n < 0x1000 ∧ (regAt n).readOnly = true := by decide
  rw [step_host h]
  by_cases hlt : offset < 0x1000
  · have hro : (regAt offset).readOnly = true :=
      hcase.elim (fun hmem => (hsingle offset hmem).2) fun hge => regAt_readOnly_of_ge hge.1
    simp only [hostAccess, regionOf_register hlt, registerWrite_of_readOnly hro]
  · have hgap : offset < s.params.bufOffset :=
      hcase.elim (fun hmem => absurd (hsingle offset hmem).1 hlt) And.right
    have hregion : regionOf (s.after rest).params offset = .gap := regionOf_gap (Nat.not_lt.1 hlt) hgap
    simp only [hostAccess, hregion]

/-! ### Reads -/

/-- Settles O15: while the core is idle a read returns the register's value, and 0 at a reserved offset of
either region. -/
theorem idleReadsReturnRegisters : Obligations.IdleReadsReturnRegisters := by
  intro s offset rest h hr hidle hp v hcase
  have hbusy : s.busy = false := by simp [State.busy, hidle]
  have hread := step_reads_register (v := v) h hr (.inl hbusy)
  rcases hcase with ⟨rfl, rfl⟩ | ⟨rfl, rfl⟩ | ⟨rfl, rfl⟩ | ⟨rfl, rfl⟩ | ⟨rfl, rfl⟩ | ⟨rfl, rfl⟩
    | ⟨rfl, rfl⟩ | ⟨rfl, rfl⟩ | ⟨rfl, rfl⟩ | ⟨rfl, rfl⟩ | ⟨rfl, rfl⟩ | ⟨rfl, rfl⟩ | ⟨rfl, rfl⟩
    | ⟨b, rfl, rfl⟩ | ⟨b, rfl, rfl⟩ | ⟨ha, hres, rfl⟩
  iterate 13 · exact hread (by decide) rfl rfl
  · have := b.isLt
    exact hread (by omega) (by omega) (by rw [regAt_freqWin]; rfl)
  · have := b.isLt
    refine hread (by omega) (by omega) ?_
    simp only [regAt_codelenWin, State.readReg, State.codeLen]
    cases s.code.get b <;> rfl
  · obtain ⟨hoff, halign⟩ := bufOffset_of_wellFormed hp
    by_cases hlt : offset < 0x1000
    · exact hread hlt ha (by rw [regAt_reserved (by omega)]; rfl)
    · exact step_reads_gap h hr (by omega) (by omega)

/-- Settles O16: R60 leaves none of these reads open; the invariant gives STATUS and ERRCODE their values
while a command runs. -/
theorem busyReadsReturnStableRegisters : Obligations.BusyReadsReturnStableRegisters := by
  intro s offset rest h hinv hbusy v hcase
  obtain ⟨P, hP⟩ := Option.isSome_iff_exists.1 hbusy
  have hread := fun hb => step_reads_register (v := v) h (hinv.not_inReset_of_busy hP) (.inr hb)
  have herr := hinv.busyNoError hbusy
  have hstatus : s.statusWord = 0x00000001 := by
    simp [State.statusWord, State.err, hbusy, hinv.busyNotDone hbusy, herr]
  have herrcode : s.errcodeWord = 0 := by simp [State.errcodeWord, herr]
  have hctrl : s.ctrlWord = if s.ie then 1 else 0 := by cases hie : s.ie <;> simp [State.ctrlWord, hie]
  rcases hcase with ⟨rfl, rfl⟩ | ⟨rfl, rfl⟩ | ⟨rfl, rfl⟩ | ⟨rfl, rfl⟩ | ⟨rfl, rfl⟩ | ⟨rfl, rfl⟩
    | ⟨rfl, rfl⟩ | ⟨rfl, rfl⟩ | ⟨rfl, rfl⟩ | ⟨rfl, rfl⟩ | ⟨rfl, rfl⟩
  iterate 4 · exact hread rfl (by decide) rfl rfl
  · exact hread rfl (by decide) rfl hctrl
  · exact hread rfl (by decide) rfl hstatus
  · exact hread rfl (by decide) rfl herrcode
  iterate 4 · exact hread rfl (by decide) rfl rfl

/-! ### CMD, the operand registers, CTRL and STATUS -/

/-- Settles O9: the write is an issue unless the core is busy, and R60 leaves the read of CMD specified. -/
theorem cmdWriteIssuesWhileIdle : Obligations.CmdWriteIssuesWhileIdle := by
  refine ⟨fun s w rest h hr => ?_, fun s rest h hr => ?_⟩
  · have hstep : step s = .next (if s.busy then s.after rest else (s.after rest).issue w) :=
      step_writes_register h hr (by decide) rfl
    refine ⟨fun hidle => ?_, fun hbusy => ?_⟩
    · rw [hstep, if_neg (by simp [State.busy, hidle])]; rfl
    · rw [hstep, if_pos hbusy]
  · exact step_reads_register h hr (.inr rfl) (by decide) rfl rfl

/-- Settles O10: each of the five writes is `State.writeOperand` of its register. -/
theorem operandWritesTakeEffectOnlyWhileIdle : Obligations.OperandWritesTakeEffectOnlyWhileIdle := by
  intro s v rest hr
  refine ⟨fun h => ?_, fun h => ?_, fun h => ?_, fun h => ?_, fun h => ?_⟩ <;>
    exact step_writes_register h hr (by decide) rfl

/-- Bits at or above `n` of a word below `2 ^ n` are 0. -/
theorem getLsbD_ofNat_eq_false {m n k : Nat} (hm : m < 2 ^ n) (hk : n ≤ k) :
    (BitVec.ofNat 32 m).getLsbD k = false := by
  simp [BitVec.getLsbD_ofNat, Nat.testBit_lt_two_pow (hm.trans_le (Nat.pow_le_pow_right Nat.two_pos hk))]

/-- Settles O11: CTRL is read and written in every state out of reset, and its word is the bit IE. -/
theorem ctrlHoldsInterruptEnable : Obligations.CtrlHoldsInterruptEnable := by
  refine ⟨fun s v rest h hr => step_writes_register h hr (by decide) rfl, fun s rest h hr =>
    ⟨s.ctrlWord, step_reads_register h hr (.inr rfl) (by decide) rfl rfl, ?_, fun k hk => ?_⟩,
    fun p => rfl⟩
  · cases hie : s.ie <;> simp [State.ctrlWord, hie]
  · exact getLsbD_ofNat_eq_false (n := 1) (Bool.toNat_lt _) hk

/-- STATUS.ERR is what the host computes from ERRCODE: every error code of R300 is non-zero (R37). -/
theorem err_eq_errcodeWord_ne_zero (s : State) : s.err = decide (s.errcodeWord ≠ 0) := by
  unfold State.err State.errcodeWord
  cases s.errcode with
  | none => rfl
  | some e => cases e <;> rfl

/-- Bits 0 to 2 of STATUS are the three flags and the others are 0 (R37). -/
theorem statusWord_bits (s : State) :
    s.statusWord.getLsbD 0 = s.busy ∧ s.statusWord.getLsbD 1 = s.done ∧ s.statusWord.getLsbD 2 = s.err
      ∧ ∀ k, 3 ≤ k → s.statusWord.getLsbD k = false := by
  unfold State.statusWord
  generalize s.busy = b, s.done = d, s.err = e
  refine ⟨?_, ?_, ?_, fun k hk => getLsbD_ofNat_eq_false (n := 3) ?_ hk⟩ <;>
    revert b d e <;> decide

/-- Settles O12: the bits of STATUS are those of `statusWord_bits`, and the write reaches DONE alone. -/
theorem statusReadsFlagsAndClearsDone : Obligations.StatusReadsFlagsAndClearsDone := by
  refine ⟨fun s rest h hr => ?_, fun s v rest h hr => ?_⟩
  · obtain ⟨hbusy, hdone, herr, hrest⟩ := statusWord_bits s
    exact ⟨s.statusWord, step_reads_register h hr (.inr rfl) (by decide) rfl rfl, hbusy, hdone,
      herr.trans (err_eq_errcodeWord_ne_zero s), hrest⟩
  · have hstep : step s =
        .next (if v.getLsbD 1 then { s.after rest with done := false } else s.after rest) :=
      step_writes_register h hr (by decide) rfl
    rw [hstep]
    split <;> rfl

/-! ### The values after reset -/

/-- Settles O23: the table of R58, entry by entry. -/
theorem resetLeavesTableValues : Obligations.ResetLeavesTableValues := by
  intro p
  have hfreq : ∀ b, (State.resetWith p).freq.get b = 0 := fun b => Table.get_const 0 b
  have hcode : ∀ b, (State.resetWith p).code.get b = none := fun b => Table.get_const none b
  have hcodelen : ∀ b, (State.resetWith p).readReg (.codelenWin b) = 0 := fun b => by
    simp [State.readReg, State.codeLen, hcode b]
  exact ⟨rfl, rfl, rfl, rfl, rfl, rfl, rfl, rfl, rfl, rfl, rfl, rfl, rfl, rfl, rfl, hfreq,
    fun b => ⟨hcode b, hcodelen b⟩, rfl, rfl, rfl, fun _ => rfl⟩

end Sys2Proof.Machine
end

section
/-!
SUPPORT. The host's side of the memory: which accesses are reads without effect, what the buffer returns and
takes byte by byte, when a write corrupts the running command, and the statements about them.
-/

namespace Sys2Proof.Machine

/-! ### The engine's step and accesses of any kind -/

/-- Settles O6: both ways to the engine's step end in `engineStep_command`. -/
theorem engineRunsDecodedCommand : Obligations.EngineRunsDecodedCommand := by
  intro s P i hP hdecode
  refine ⟨fun hnil => ?_, fun rest hengine => ?_⟩
  · rw [step_nil hnil, engineStep_command hP hdecode]
  · rw [step_cons hengine]
    exact engineStep_command (s := s.after rest) hP hdecode

/-- A register write leaves what only commands write (R85). -/
theorem writeReg_leaves_tables (r : Reg) (v : Word) (s : State) :
    SameTables s (s.writeReg r v) ∧ (s.writeReg r v).resultLen = s.resultLen
      ∧ (s.writeReg r v).params = s.params := by
  rcases writeReg_cases r v s with e | e | e | ⟨-, e | e | e | e | e | e⟩ <;> rw [e] <;>
    exact ⟨⟨rfl, rfl, rfl⟩, rfl, rfl⟩

/-- A buffer write leaves what only commands write (R85). -/
theorem bufferWrite_leaves_tables (w : Width) (a : Nat) (v : Word) (s : State) :
    SameTables s (s.bufferWrite w a v) ∧ (s.bufferWrite w a v).resultLen = s.resultLen
      ∧ (s.bufferWrite w a v).params = s.params := by
  unfold State.bufferWrite
  split <;> exact ⟨⟨rfl, rfl, rfl⟩, rfl, rfl⟩

/-- Settles O8, by the kinds of host access: only register and buffer writes change the core at all. -/
theorem hostAccessLeavesTables : Obligations.HostAccessLeavesTables := by
  intro s t access rest h ht
  rw [step_host h] at ht
  rcases hostAccess_cases access (s.after rest) with
    ⟨d, e⟩ | ⟨r, v, -, e⟩ | e | ⟨w, a, v, -, -, e⟩ | e <;> rw [e] at ht <;> cases ht
  · exact ⟨⟨rfl, rfl, rfl⟩, rfl, rfl⟩
  · exact writeReg_leaves_tables r v (s.after rest)
  · exact ⟨⟨rfl, rfl, rfl⟩, rfl, rfl⟩
  · exact bufferWrite_leaves_tables w a v (s.after rest)

theorem regionOf_ne_outside {p : Config.Params} {offset : Nat} (h : offset < p.bufOffset + p.bufSize) :
    regionOf p offset ≠ .outside := by
  unfold regionOf
  rw [if_pos h]
  split_ifs <;> simp

/-- Settles O17: in each region of the window a read is `State.returnRead` of some data. -/
theorem readsChangeNothing : Obligations.ReadsChangeNothing := by
  intro s w offset rest h hwindow
  have hstep : step s = hostAccess (.read w offset) (s.after rest) := step_host h
  cases hregion : regionOf (s.after rest).params offset with
  | outside => exact absurd hregion (regionOf_ne_outside hwindow)
  | register | gap | buffer a =>
    simp only [hstep, hostAccess, hregion]
    exact ⟨_, rfl⟩

/-! ### Narrow and misaligned register accesses -/

theorem regAccessOk_eq_false {w : Width} {offset : Nat} (h : w ≠ .word ∨ offset % 4 ≠ 0) :
    regAccessOk w offset = false := by
  rcases h with h | h <;> simp [regAccessOk, h]

/-- Settles O18: the access fails `regAccessOk`, so a write is dropped and a read is a free draw. -/
theorem narrowOrMisalignedRegisterAccess : Obligations.NarrowOrMisalignedRegisterAccess := by
  intro s w offset rest hlt hbad
  have hok := regAccessOk_eq_false hbad
  refine ⟨fun v h => ?_, fun h => ⟨Config.freeRead s.draws, ?_⟩⟩
  · have hdropped : (s.after rest).registerWrite w offset v = s.after rest := by
      simp [State.registerWrite, hok]
    simp only [step_host h, hostAccess, regionOf_register hlt, hdropped]
  · have hfree : (s.after rest).registerRead w offset = ReadData.ofWord w (Config.freeRead s.draws) := by
      simp [State.registerRead, hok, State.after]
    simp only [step_host h, hostAccess, regionOf_register hlt, hfree]
    cases w <;> rfl

/-! ### Buffer reads -/

theorem regionOf_buffer {p : Config.Params} {a : Nat} (hp : p.wellFormed = true) (ha : a < p.bufSize) :
    regionOf p (p.bufOffset + a) = .buffer a := by
  obtain ⟨hoff, -⟩ := bufOffset_of_wellFormed hp
  rw [regionOf, if_neg (by omega), if_neg (by omega), if_pos (by omega), Nat.add_sub_cancel_left]

/-- A buffer read returns its lanes and changes nothing else (R76, R77). -/
theorem step_reads_buffer {s : State} {w : Width} {a : Nat} {rest : List Event}
    (h : NextAccess (.read w (s.params.bufOffset + a)) rest s) (hp : s.params.wellFormed = true)
    (ha : a < s.params.bufSize) :
    step s = .next { s with
      inputs := rest, readData := some (s.bufferRead w a), draws := s.draws + 1 } := by
  have hregion : regionOf (s.after rest).params (s.params.bufOffset + a) = .buffer a :=
    regionOf_buffer hp ha
  simp only [step_host h, hostAccess, hregion]
  rfl

/-- A lane in the buffer and outside the running command's destination is the byte there (R76, R80). -/
theorem lane_eq_readByte {s : State} {a j : Nat} (hr : s.inReset = false)
    (hin : a + j < s.params.bufSize) (hdst : ∀ P, s.pending = some P → P.dst.contains (a + j) = false) :
    s.lane a j = s.readByte (a + j) := by
  have hany : (s.pending.any fun P => P.dst.contains (a + j)) = false :=
    (Option.any_eq_false _ _).2 hdst
  simp [State.lane, hr, hany, Nat.not_le.2 hin]

/-- Above the lowest byte of a concatenation stand the bytes of its high part. -/
theorem extractLsb'_append_byte_succ {n : Nat} (hi : BitVec n) (lo : Byte) (j : Nat) :
    (hi ++ lo).extractLsb' (8 * (j + 1)) 8 = hi.extractLsb' (8 * j) 8 := by
  rw [BitVec.extractLsb'_append_eq_of_le (by omega), Nat.mul_succ, Nat.add_sub_cancel]

/-- Byte `j` of two concatenated lanes, lane 0 lowest (R76). -/
theorem extractLsb'_append_two (lane : Nat → Byte) {j : Nat} (hj : j < 2) :
    (lane 1 ++ lane 0).extractLsb' (8 * j) 8 = lane j := by
  interval_cases j
  · exact BitVec.extractLsb'_append_eq_right
  · exact BitVec.extractLsb'_append_eq_left

/-- Byte `j` of four concatenated lanes, lane 0 lowest (R76). -/
theorem extractLsb'_append_four (lane : Nat → Byte) {j : Nat} (hj : j < 4) :
    (lane 3 ++ lane 2 ++ lane 1 ++ lane 0).extractLsb' (8 * j) 8 = lane j := by
  match j with
  | 0 => exact BitVec.extractLsb'_append_eq_right
  | 1 =>
    rw [extractLsb'_append_byte_succ]
    exact BitVec.extractLsb'_append_eq_right
  | j + 2 =>
    rw [extractLsb'_append_byte_succ, extractLsb'_append_byte_succ]
    exact extractLsb'_append_two (fun i => lane (i + 2)) (by omega)

/-- Settles O19: the data concatenates the lanes, and each lane is the buffer's byte. -/
theorem bufferReadIsLittleEndian : Obligations.BufferReadIsLittleEndian := by
  intro s a rest hp hr
  refine ⟨fun h hend hdst => ?_, fun h hend hdst => ?_, fun h ha hdst => ?_⟩
  · exact ⟨_, step_reads_buffer h hp (by omega), fun j hj =>
      (extractLsb'_append_four (s.lane a) hj).trans
        (lane_eq_readByte hr (by omega) fun P hP => hdst P hP j hj)⟩
  · exact ⟨_, step_reads_buffer h hp (by omega), fun j hj =>
      (extractLsb'_append_two (s.lane a) hj).trans
        (lane_eq_readByte hr (by omega) fun P hP => hdst P hP j hj)⟩
  · have hlane : s.lane a 0 = s.readByte a := lane_eq_readByte hr ha hdst
    rw [step_reads_buffer h hp ha, State.bufferRead, hlane]

/-! ### Buffer writes -/

/-- A write at a buffer offset is the buffer write of its bytes (R71). -/
theorem step_writes_buffer {s : State} {w : Width} {a : Nat} {v : Word} {rest : List Event}
    (h : NextAccess (.write w (s.params.bufOffset + a) v) rest s) (hp : s.params.wellFormed = true)
    (ha : a < s.params.bufSize) : step s = .next ((s.after rest).bufferWrite w a v) := by
  have hregion : regionOf (s.after rest).params (s.params.bufOffset + a) = .buffer a :=
    regionOf_buffer hp ha
  simp only [step_host h, hostAccess, hregion]

/-- Out of reset a buffer write replaces the buffer and marks the record, and nothing else. -/
theorem bufferWrite_eq {s : State} (hr : s.inReset = false) (w : Width) (a : Nat) (v : Word) :
    s.bufferWrite w a v = { s with
      mem := s.mem.writeBytes a (writtenBytes s.params w a v)
      pending := s.pending.map (Pending.disturb a (writtenBytes s.params w a v).length) } := by
  simp [State.bufferWrite, hr]

theorem writtenBytes_length (p : Config.Params) (w : Width) (a : Nat) (v : Word) :
    (writtenBytes p w a v).length = min w.bytes (p.bufSize - a) := by
  have hw : w.bytes ≤ 4 := by cases w <;> decide
  simp only [writtenBytes, List.length_take, u32le_length]
  omega

theorem byteAt_u32le (v : Word) {j : Nat} (hj : j < 4) : byteAt (u32le v) j = laneOf v j := by
  interval_cases j <;> rfl

/-- The written bytes are the low bytes of the data (R76). -/
theorem byteAt_writtenBytes {p : Config.Params} {w : Width} {a j : Nat} (v : Word)
    (hj : j < (writtenBytes p w a v).length) : byteAt (writtenBytes p w a v) j = laneOf v j := by
  have hword : j < 4 := hj.trans_le (List.length_take_le' _ _)
  have htake : j < min w.bytes (p.bufSize - a) := writtenBytes_length p w a v ▸ hj
  rw [← byteAt_u32le v hword, byteAt, byteAt, List.getD_eq_getElem?_getD, List.getD_eq_getElem?_getD,
    writtenBytes, List.getElem?_take_of_lt htake]

/-- Each byte after a buffer write: the data's byte where one was written, else the byte before (R71). -/
theorem readByte_bufferWrite {s : State} (hr : s.inReset = false) (w : Width) (a : Nat) (v : Word)
    (k : Nat) :
    (s.bufferWrite w a v).readByte k =
      if a ≤ k ∧ k < a + (writtenBytes s.params w a v).length then laneOf v (k - a)
      else s.readByte k := by
  have hmem := congrArg State.mem (bufferWrite_eq hr w a v)
  have hdraw : (s.bufferWrite w a v).memDraw = s.memDraw := by rw [bufferWrite_eq hr]
  rw [State.readByte_writeBytes hmem hdraw]
  split
  · exact byteAt_writtenBytes v (by omega)
  · rfl

/-- Settles O20: a written byte is the data's byte, and a buffer write changes the buffer and the record
alone. -/
theorem bufferWriteIsLittleEndian : Obligations.BufferWriteIsLittleEndian := by
  intro s w a v rest h hp hr ha
  have hwrite := bufferWrite_eq (s := s.after rest) hr w a v
  have hbyte : ∀ k, ((s.after rest).bufferWrite w a v).readByte k =
      if a ≤ k ∧ k < a + (writtenBytes s.params w a v).length then laneOf v (k - a)
      else s.readByte k := readByte_bufferWrite (s := s.after rest) hr w a v
  have hlen := writtenBytes_length s.params w a v
  refine ⟨_, step_writes_buffer h hp ha, fun j hj hin => ?_, fun b hb => ?_, ?_, ?_⟩
  · rw [hbyte, if_pos (by omega), Nat.add_sub_cancel_left]
  · rw [hbyte, if_neg (by omega)]
  · rw [hwrite]
    exact Option.isSome_map
  · rw [hwrite]
    rfl

/-! ### Writes into the latched ranges -/

theorem touches_iff (P : Pending) (k : Nat) :
    P.touches k = true ↔ P.src.addr ≤ k ∧ k < P.src.addr + P.src.len
      ∨ P.dst.addr ≤ k ∧ k < P.dst.addr + P.dst.len := by
  simp [Pending.touches, Range.contains]

/-- One written byte in a latched range corrupts the record (R80). -/
theorem disturb_of_touches {P : Pending} {a n j : Nat} (hj : j < n) (ht : P.touches (a + j) = true) :
    P.disturb a n = { P with corrupt := true } := by
  have hany : (List.range' a n).any P.touches = true :=
    List.any_eq_true.2 ⟨a + j, List.mem_range'_1.2 (by omega), ht⟩
  simp [Pending.disturb, hany]

/-- Written bytes outside the latched ranges leave the record as it is (R80). -/
theorem disturb_of_not_touches {P : Pending} {a n : Nat} (ht : ∀ j < n, P.touches (a + j) = false) :
    P.disturb a n = P := by
  have hany : (List.range' a n).any P.touches = false := by
    refine List.any_eq_false.2 fun k hk => ?_
    obtain ⟨hge, hlt⟩ := List.mem_range'_1.1 hk
    have := ht (k - a) (by omega)
    rw [Nat.add_sub_cancel' hge] at this
    simp [this]
  simp [Pending.disturb, hany]

/-- Settles O21: the bytes that take effect are those in the buffer, and `Pending.disturb` asks each of them
whether it lies in a latched range. -/
theorem writeInLatchedRangeCorrupts : Obligations.WriteInLatchedRangeCorrupts := by
  intro s P w a v rest h hp hr ha hP
  have hlen := writtenBytes_length s.params w a v
  have hrecord : ((s.after rest).bufferWrite w a v).pending =
      some (P.disturb a (writtenBytes s.params w a v).length) := by
    rw [bufferWrite_eq (s := s.after rest) hr]
    simp [State.after, hP]
  refine ⟨_, step_writes_buffer h hp ha, ?_, fun hout => ?_⟩
  · rintro ⟨j, hj, hin, hrange⟩
    rw [hrecord, disturb_of_touches (j := j) (by omega) ((touches_iff P _).2 hrange)]
  · rw [hrecord, disturb_of_not_touches fun j hj => ?_]
    obtain ⟨hsrc, hdst⟩ := hout j (by omega) (by omega)
    exact Bool.eq_false_iff.2 fun ht => ((touches_iff P _).1 ht).elim hsrc hdst

end Sys2Proof.Machine
end

section
/-!
SUPPORT. Command words: a word is its three fields, the opcode map is inverted by `Instr.opcode` and
`Instr.verbose`, and the statements about the decoder and the encoder.
-/

namespace Sys2Proof

/-! ### The fields of a word -/

/-- A command word is its fields OPC, V and RSVD (R100). -/
theorem word_eq_iff_fields {w w' : Word} :
    w = w' ↔ opcField w = opcField w' ∧ verboseField w = verboseField w'
      ∧ reservedField w = reservedField w' := by
  refine ⟨by rintro rfl; exact ⟨rfl, rfl, rfl⟩, fun ⟨hopc, hv, hrsvd⟩ => ?_⟩
  refine BitVec.eq_of_getLsbD_eq fun k hk => ?_
  rcases Nat.lt_trichotomy k 8 with hlow | rfl | hhigh
  · have := congrArg (·.getLsbD k) hopc
    simpa [opcField, hlow] using this
  · exact hv
  · have := congrArg (·.getLsbD (k - 9)) hrsvd
    simpa [reservedField, show k - 9 < 23 by omega, show 9 + (k - 9) = k by omega] using this

/-- The fields of an opcode taken as a word: V and RSVD are 0. -/
theorem fields_zeroExtend (opc : Byte) :
    opcField (opc.zeroExtend 32) = opc ∧ verboseField (opc.zeroExtend 32) = false
      ∧ reservedField (opc.zeroExtend 32) = 0 := by
  refine ⟨BitVec.eq_of_getLsbD_eq fun k hk => ?_, by simp [verboseField],
    BitVec.eq_of_getLsbD_eq fun k hk => ?_⟩
  · simp [opcField, hk, show k < 32 by omega]
  · have : opc.getLsbD (9 + k) = false := BitVec.getLsbD_of_ge opc _ (by omega)
    simp [reservedField, this]

/-- The mask of R106 clears V and keeps the other fields. -/
theorem fields_and_mask (w : Word) :
    opcField (w &&& 0xFFFFFEFF#32) = opcField w ∧ verboseField (w &&& 0xFFFFFEFF#32) = false
      ∧ reservedField (w &&& 0xFFFFFEFF#32) = reservedField w := by
  have hopc : (0xFFFFFEFF#32).extractLsb' 0 8 = BitVec.allOnes 8 := by decide
  have hrsvd : (0xFFFFFEFF#32).extractLsb' 9 23 = BitVec.allOnes 23 := by decide
  exact ⟨by simp only [opcField, BitVec.extractLsb'_and, hopc, BitVec.and_allOnes],
    by simp [verboseField],
    by simp only [reservedField, BitVec.extractLsb'_and, hrsvd, BitVec.and_allOnes]⟩

/-- Setting bit 8 sets V and keeps the other fields. -/
theorem fields_or_verbose (w : Word) :
    opcField (w ||| 0x00000100#32) = opcField w ∧ verboseField (w ||| 0x00000100#32) = true
      ∧ reservedField (w ||| 0x00000100#32) = reservedField w := by
  have hopc : (0x00000100#32).extractLsb' 0 8 = 0#8 := by decide
  have hrsvd : (0x00000100#32).extractLsb' 9 23 = 0#23 := by decide
  simp [opcField, verboseField, reservedField, BitVec.extractLsb'_or, hopc, hrsvd]

theorem encodedFields (i : Instr) : Laws.EncodedFields.Statement i := by
  cases i with
  | nop v => exact Laws.EncodedFields.nop v
  | fcount v => exact Laws.EncodedFields.fcount v
  | tbuild v => exact Laws.EncodedFields.tbuild v
  | cgen v => exact Laws.EncodedFields.cgen v
  | tser v => exact Laws.EncodedFields.tser v
  | tdes v => exact Laws.EncodedFields.tdes v
  | benc v => exact Laws.EncodedFields.benc v
  | bdec v => exact Laws.EncodedFields.bdec v
  | bpack v => exact Laws.EncodedFields.bpack v
  | bunpack v => exact Laws.EncodedFields.bunpack v
  | cenc v => exact Laws.EncodedFields.cenc v
  | cdec v => exact Laws.EncodedFields.cdec v

/-- The fields of a command's word (R100). -/
theorem fields_encode (i : Instr) :
    opcField (encode i) = i.opcode ∧ verboseField (encode i) = i.verbose
      ∧ reservedField (encode i) = 0 := by
  obtain ⟨-, hopc, hv, hrsvd, -⟩ := encodedFields i
  exact ⟨hopc, hv, hrsvd⟩

/-- The word of a command as a number (R100). -/
theorem encode_toNat (i : Instr) :
    (encode i).toNat = i.opcode.toNat + if i.verbose then 0x100 else 0 := by
  obtain ⟨-, -, -, -, hnat⟩ := encodedFields i
  exact hnat

@[simp] theorem opcode_withVerbose (i : Instr) (v : Bool) : (i.withVerbose v).opcode = i.opcode := by
  cases i <;> rfl

@[simp] theorem verbose_withVerbose (i : Instr) (v : Bool) : (i.withVerbose v).verbose = v := by
  cases i <;> rfl

/-! ### The opcode map -/

/-- Opcode and flag name the command (R104). -/
theorem instrOfOpcode_eq_some {opc : Byte} {v : Bool} {i : Instr} :
    instrOfOpcode opc v = some i ↔ i.opcode = opc ∧ i.verbose = v := by
  constructor
  · intro h
    unfold instrOfOpcode at h
    split at h <;> cases h
    all_goals exact ⟨BitVec.eq_of_toNat_eq (Eq.symm ‹_›), rfl⟩
  · rintro ⟨rfl, rfl⟩
    cases i <;> rfl

/-- The opcodes above 0x0B are no command's (R105). -/
theorem instrOfOpcode_eq_none {opc : Byte} {v : Bool} :
    instrOfOpcode opc v = none ↔ 0x0B < opc.toNat := by
  unfold instrOfOpcode
  split
  case h_13 =>
    have habove : 0x0B < opc.toNat := by simp only [imp_false] at *; omega
    simp [habove]
  all_goals simp [*]

/-- A command of another flag has the same opcode. -/
theorem instrOfOpcode_map_withVerbose (opc : Byte) (v v' : Bool) :
    (instrOfOpcode opc v).map (Instr.withVerbose v') = instrOfOpcode opc v' := by
  unfold instrOfOpcode
  split <;> rfl

/-! ### Decoding -/

/-- The word of a command has that command's fields, and RSVD = 0 (R100, R106). -/
theorem decode_eq_ok {w : Word} {i : Instr} :
    decode w = .ok i ↔
      i.opcode = opcField w ∧ i.verbose = verboseField w ∧ reservedField w = 0 := by
  rw [← and_assoc, ← instrOfOpcode_eq_some]
  unfold decode
  split
  · next hrsvd => cases instrOfOpcode (opcField w) (verboseField w) <;> simp [hrsvd]
  · next hrsvd => exact iff_of_false (by simp) fun h => hrsvd h.2

/-- The illegal words (R105). -/
theorem decode_eq_error {w : Word} :
    (∃ e, decode w = .error e) ↔ reservedField w ≠ 0 ∨ 0x0B < (opcField w).toNat := by
  rw [← instrOfOpcode_eq_none (v := verboseField w)]
  unfold decode
  split
  · next hrsvd => cases instrOfOpcode (opcField w) (verboseField w) <;> simp [hrsvd]
  · next hrsvd => exact iff_of_true ⟨_, rfl⟩ (.inl hrsvd)

/-- Settles O2: both sides say that the fields of `w` are those of the command's word. -/
theorem decodeEncodeAgree : Obligations.DecodeEncodeAgree := by
  intro w i
  obtain ⟨hopc, hv, hrsvd⟩ := fields_encode i
  rw [decode_eq_ok, word_eq_iff_fields, hopc, hv, hrsvd, eq_comm (a := reservedField w)]

theorem decode_encode (i : Instr) : decode (encode i) = .ok i := (decodeEncodeAgree _ i).2 rfl

/-- Settles O3: the mask removes V and keeps OPC and RSVD, so the match compares these two with the
opcode's; the illegal words are those of `decode_eq_error`. -/
theorem decodingIsTotalByMaskAndMatch : Obligations.DecodingIsTotalByMaskAndMatch := by
  refine ⟨fun w i => ?_, fun w => decode_eq_error⟩
  obtain ⟨hmopc, hmv, hmrsvd⟩ := fields_and_mask w
  obtain ⟨hopc, hv, hrsvd⟩ := fields_zeroExtend i.opcode
  rw [decode_eq_ok, word_eq_iff_fields, hmopc, hmv, hmrsvd, hopc, hv, hrsvd]
  exact ⟨fun ⟨ho, hf, hz⟩ => ⟨⟨ho.symm, rfl, hz⟩, hf.symm⟩,
    fun ⟨⟨ho, _, hz⟩, hf⟩ => ⟨ho.symm, hf.symm, hz⟩⟩

/-- The word of R110 is the command's, and it decodes to the command. -/
theorem encode_and_decode {i : Instr} {w : Word} (h : encode i = w) : encode i = w ∧ decode w = .ok i :=
  ⟨h, (decodeEncodeAgree w i).2 h⟩

/-- V = 1 adds 0x100 to the word (R100). -/
theorem encode_withVerbose_true (i : Instr) :
    encode (i.withVerbose true) = encode (i.withVerbose false) + 0x00000100 := by
  have hlt := i.opcode.isLt
  have hnat : ((0x00000100 : Word)).toNat = 0x100 := rfl
  refine BitVec.eq_of_toNat_eq ?_
  simp only [BitVec.toNat_add, encode_toNat, opcode_withVerbose, verbose_withVerbose, hnat, if_true,
    Bool.false_eq_true, if_false]
  omega

/-- Settles O1: the words of R110 by evaluation, what they decode to by O2. -/
theorem commandWordOfEveryMnemonic : Obligations.CommandWordOfEveryMnemonic := by
  refine ⟨?_, ?_, ?_, ?_, ?_, ?_, ?_, ?_, ?_, ?_, ?_, ?_, ?_,
    fun i => encode_and_decode (encode_withVerbose_true i)⟩
  all_goals exact encode_and_decode rfl

end Sys2Proof
end


section
/-!
SUPPORT. The errors each command's own pseudocode can raise (R308), one lemma per shared computation.
-/

namespace Sys2Proof.Machine

theorem countSymbols_error {src : List Byte} {e : CmdError} (h : countSymbols src = .error e) :
    e = .emptyInput := by
  unfold countSymbols at h
  split at h <;> cases h
  rfl

theorem buildTree_error {F : Table Word} {e : CmdError} (h : buildTree F = .error e) :
    e = .emptyInput := by
  unfold buildTree at h
  split at h <;> cases h
  rfl

theorem desLeaf_error {bytes : List Byte} {e : CmdError} (h : desLeaf bytes = .error e) :
    e = .malformedTree := by
  unfold desLeaf at h
  split at h
  · cases h; rfl
  · split at h <;> cases h
    rfl

theorem desNode_error {cap fuel cnt : Nat} {bytes : List Byte} {e : CmdError}
    (h : desNode cap fuel cnt bytes = .error e) : e = .malformedTree ∨ e = .capacity := by
  induction fuel generalizing cnt bytes with
  | zero => cases bytes <;> cases h <;> exact .inl rfl
  | succ fuel ih =>
    cases bytes with
    | nil => cases h; exact .inl rfl
    | cons tag bs =>
      unfold desNode at h
      split_ifs at h
      · cases h; exact .inl rfl
      · cases h; exact .inr rfl
      · rcases except_bind_eq_error.1 h with hleaf | ⟨leaf, -, hok⟩
        · exact .inl (desLeaf_error hleaf)
        · cases hok
      · rcases except_bind_eq_error.1 h with hl | ⟨⟨l, cntL, restL⟩, -, h⟩
        · exact ih hl
        · rcases except_bind_eq_error.1 h with hr | ⟨r, -, hok⟩
          · exact ih hr
          · cases hok

theorem desTree_error {cap : Nat} {buf : List Byte} {e : CmdError}
    (h : desTree cap buf = .error e) : e = .malformedTree ∨ e = .capacity := by
  unfold desTree at h
  split at h
  · cases h
  · rcases except_bind_eq_error.1 h with hnode | ⟨⟨t, cnt, rest⟩, -, h⟩
    · exact desNode_error hnode
    · dsimp only at h
      split at h <;> cases h
      exact .inl rfl

theorem unpack_error {buf : List Byte} {n : Nat} {e : CmdError} (h : unpack buf n = .error e) :
    e = .truncatedPayload := by
  unfold unpack at h
  split at h <;> cases h
  rfl

theorem bitsOfBytes_error {src : List Byte} {e : CmdError} (h : bitsOfBytes src = .error e) :
    e = .invalidBit := by
  unfold bitsOfBytes at h
  split at h <;> cases h
  rfl

theorem codeBits_error {C : Table (Option Bits)} {src : List Byte} {e : CmdError}
    (h : codeBits C src = .error e) : e = .symbolNotInTable := by
  induction src with
  | nil => cases h
  | cons b bs ih =>
    unfold codeBits at h
    split at h
    · cases h; rfl
    · rcases except_bind_eq_error.1 h with hrest | ⟨rest, -, hok⟩
      · exact ih hrest
      · cases hok

theorem encodeBits_error {C : Table (Option Bits)} {src : List Byte} {e : CmdError}
    (h : encodeBits C src = .error e) : e = .symbolNotInTable ∨ e = .capacity := by
  rcases except_bind_eq_error.1 h with hcodes | ⟨bits, -, h⟩
  · exact .inl (codeBits_error hcodes)
  · split at h <;> cases h
    exact .inr rfl

theorem walkBits_error {root cur : Node} {atRoot : Bool} {bits : Bits} {e : CmdError}
    (h : walkBits root cur atRoot bits = .error e) : e = .truncatedPayload := by
  induction bits generalizing cur atRoot with
  | nil =>
    unfold walkBits at h
    split at h <;> cases h
    rfl
  | cons b bs ih =>
    unfold walkBits at h
    split at h
    · rcases except_bind_eq_error.1 h with hrest | ⟨out, -, hok⟩
      · exact ih hrest
      · cases hok
    · exact ih h

theorem decodeTree_error {T : Arena} {bits : Bits} {e : CmdError} (h : decodeTree T bits = .error e) :
    e = .malformedTree ∨ e = .invalidCode ∨ e = .truncatedPayload := by
  unfold decodeTree at h
  split at h
  · split at h <;> cases h
    exact .inl rfl
  · split at h <;> cases h
    exact .inr (.inl rfl)
  · exact .inr (.inr (walkBits_error h))

theorem decodePayload_error {T : Arena} {payload : List Byte} {n : Nat} {e : CmdError}
    (h : decodePayload T payload n = .error e) :
    e = .malformedTree ∨ e = .invalidCode ∨ e = .truncatedPayload := by
  rcases except_bind_eq_error.1 h with hbits | ⟨bits, -, htree⟩
  · exact .inr (.inr (unpack_error hbits))
  · exact decodeTree_error htree

theorem readContainer_error {cap : Nat} {src : List Byte} {e : CmdError}
    (h : readContainer cap src = .error e) :
    e ∈ [.truncatedHeader, .inconsistentLength, .malformedTree, .capacity, .truncatedPayload,
      .invalidCode] := by
  unfold readContainer at h
  split_ifs at h
  · cases h; simp
  · cases h; simp
  · rcases except_bind_eq_error.1 h with htree | ⟨T, -, h⟩
    · rcases desTree_error htree with rfl | rfl <;> simp
    · rcases except_bind_eq_error.1 h with hpayload | ⟨out, -, hok⟩
      · rcases decodePayload_error hpayload with rfl | rfl | rfl <;> simp
      · cases hok

theorem fitOutput_error {P : Pending} {fx : Effects} {e : CmdError} (h : fitOutput P fx = .error e) :
    e = .capacity := (fitOutput_eq_error.1 h).2

/-- The errors of a command's own pseudocode are those of its row of the matrix (R308); of CENC this says
nothing yet of the errors of counting, building and encoding. -/
theorem bodyOf_error {i : Instr} {P : Pending} {s : State} {e : CmdError}
    (h : bodyOf i P s = .error e) :
    e ∈ errorsOf i ∨ (∃ v, i = .cenc v) ∧ (e = .emptyInput ∨ e = .symbolNotInTable) := by
  cases i with
  | nop | cgen => cases h
  | fcount =>
    rcases except_bind_eq_error.1 h with hF | ⟨F, -, hok⟩
    · cases countSymbols_error hF; simp [errorsOf]
    · cases hok
  | tbuild =>
    rcases except_bind_eq_error.1 h with hT | ⟨T, -, hok⟩
    · cases buildTree_error hT; simp [errorsOf]
    · cases hok
  | tser => cases fitOutput_error h; simp [errorsOf]
  | tdes =>
    rcases except_bind_eq_error.1 h with hT | ⟨T, -, hok⟩
    · rcases desTree_error hT with rfl | rfl <;> simp [errorsOf]
    · cases hok
  | benc =>
    rcases except_bind_eq_error.1 h with hbits | ⟨bits, -, hfit⟩
    · rcases encodeBits_error hbits with rfl | rfl <;> simp [errorsOf]
    · cases fitOutput_error hfit; simp [errorsOf]
  | bdec =>
    rcases except_bind_eq_error.1 h with hout | ⟨out, -, hfit⟩
    · rcases decodePayload_error hout with rfl | rfl | rfl <;> simp [errorsOf]
    · cases fitOutput_error hfit; simp [errorsOf]
  | bpack =>
    rcases except_bind_eq_error.1 h with hbits | ⟨bits, -, hfit⟩
    · cases bitsOfBytes_error hbits; simp [errorsOf]
    · cases fitOutput_error hfit; simp [errorsOf]
  | bunpack =>
    rcases except_bind_eq_error.1 h with hbits | ⟨bits, -, hfit⟩
    · cases unpack_error hbits; simp [errorsOf]
    · cases fitOutput_error hfit; simp [errorsOf]
  | cenc v =>
    simp only [bodyOf, cencBody] at h
    split at h
    · cases h; simp [errorsOf]
    · rcases except_bind_eq_error.1 h with hF | ⟨F, -, h⟩
      · cases countSymbols_error hF; simp
      · rcases except_bind_eq_error.1 h with hT | ⟨T, -, h⟩
        · cases buildTree_error hT; simp
        · rcases except_bind_eq_error.1 h with hbits | ⟨bits, -, hfit⟩
          · rcases encodeBits_error hbits with rfl | rfl <;> simp [errorsOf]
          · cases fitOutput_error hfit; simp [errorsOf]
  | cdec =>
    rcases except_bind_eq_error.1 h with hT | ⟨⟨T, B, out⟩, -, hfit⟩
    · have := readContainer_error hT
      simp only [errorsOf, List.mem_cons] at this ⊢
      tauto
    · cases fitOutput_error hfit; simp [errorsOf]

theorem illegalCommand_not_mem_errorsOf (i : Instr) : .illegalCommand ∉ errorsOf i := by
  cases i <;> simp [errorsOf]

/-- IllegalCommandError is for words that are no command (R105): no command raises it. -/
theorem commandResult_ne_illegalCommand (i : Instr) (s : State) :
    commandResult (rowOf i) (bodyOf i) s ≠ .error .illegalCommand := by
  intro h
  unfold commandResult at h
  split at h
  · next hchecks =>
    cases h
    rcases commonChecks_error hchecks with ⟨he, -⟩ | ⟨he, -⟩ <;> cases he
  · rcases bodyOf_error h with hmem | ⟨-, he | he⟩
    · exact illegalCommand_not_mem_errorsOf i hmem
    · cases he
    · cases he

/-- A command that is not corrupted does not complete with IllegalCommandError. -/
theorem completion_errcode_ne_illegalCommand (i : Instr) {s : State} (hc : s.operands.corrupt = false) :
    (completion (rowOf i) (bodyOf i) s).errcode ≠ some .illegalCommand := by
  rcases completion_cases (rowOf i) (bodyOf i) s with ⟨hcorrupt, -⟩ | ⟨e, -, he, h⟩ | ⟨fx, -, -, h⟩
  · simp [hc] at hcorrupt
  · rw [h, State.completeError_errcode]
    rintro ⟨⟩
    exact commandResult_ne_illegalCommand i s he
  · simp [h]

end Sys2Proof.Machine
end

section
/-!
SUPPORT. The rows of the opcode map, and VERBOSE (R102): neither the row nor the pseudocode of a command has
it, a completion does not see the latched word, and words that differ in bit 8 alone run the same command.
-/

namespace Sys2Proof.Machine

/-- Settles O60: each row is the one the map lists. -/
theorem rowsAreTheOpcodeMap : Obligations.RowsAreTheOpcodeMap :=
  fun _ => ⟨rfl, rfl, rfl, rfl, rfl, rfl, rfl, rfl, rfl, rfl, rfl, rfl⟩

@[simp] theorem rowOf_withVerbose (i : Instr) (v : Bool) : rowOf (i.withVerbose v) = rowOf i := by
  cases i <;> rfl

@[simp] theorem bodyOf_withVerbose (i : Instr) (v : Bool) : bodyOf (i.withVerbose v) = bodyOf i := by
  cases i <;> rfl

theorem exec_withVerbose (i : Instr) (v : Bool) (s : State) : exec (i.withVerbose v) s = exec i s := by
  simp only [exec_eq_runCommand, rowOf_withVerbose, bodyOf_withVerbose]

/-- The state with the record `P` and the command word `w` in it. -/
def State.runningWord (s : State) (P : Pending) (w : Word) : State :=
  { s with pending := some { P with word := w } }

@[simp] theorem State.runningWord_pending (s : State) (P : Pending) (w : Word) :
    (s.runningWord P w).pending = some { P with word := w } := rfl

/-- An issued command is a running word over the operand registers (R103). -/
theorem State.issue_eq_runningWord (s : State) (w : Word) :
    s.issue w = State.runningWord { s with done := false, errcode := none } (s.latch 0) w := rfl

theorem bodyOf_runningWord (i : Instr) (s : State) (P : Pending) (w w' : Word) :
    bodyOf i { P with word := w } (s.runningWord P w) =
      bodyOf i { P with word := w' } (s.runningWord P w') := by
  cases i <;> rfl

/-- A completion does not see the latched word when the pseudocode does not. -/
theorem completion_runningWord {row : CommandRow} {body : Body} {s : State} {P : Pending} {w w' : Word}
    (hbody : body { P with word := w } (s.runningWord P w) =
      body { P with word := w' } (s.runningWord P w')) :
    completion row body (s.runningWord P w) = completion row body (s.runningWord P w') := by
  have hresult : commandResult row body (s.runningWord P w) =
      commandResult row body (s.runningWord P w') := by
    unfold commandResult
    rw [show body (s.runningWord P w).operands (s.runningWord P w) = _ from hbody]
    rfl
  unfold completion
  rw [hresult]
  rfl

/-- Words that differ in V alone decode alike, up to V. -/
theorem decode_of_fields {w w' : Word} (hopc : opcField w' = opcField w)
    (hrsvd : reservedField w' = reservedField w) :
    decode w' = (decode w).map (Instr.withVerbose (verboseField w')) := by
  unfold decode
  rw [hopc, hrsvd, ← instrOfOpcode_map_withVerbose (opcField w) (verboseField w) (verboseField w')]
  split
  · cases instrOfOpcode (opcField w) (verboseField w) <;> rfl
  · rfl

/-- Running words that differ in V alone complete alike, legal or illegal, corrupted or not (R102). -/
theorem engineStep_runningWord (s : State) (P : Pending) {w w' : Word}
    (hopc : opcField w = opcField w') (hrsvd : reservedField w = reservedField w') :
    engineStep (s.runningWord P w) = engineStep (s.runningWord P w') := by
  have hdecode := decode_of_fields hopc hrsvd
  have hpending := s.runningWord_pending P
  cases hw' : decode w' with
  | ok i =>
    rw [hw'] at hdecode
    rw [engineStep_command (hpending w') hw', engineStep_command (hpending w) hdecode,
      exec_withVerbose, exec_eq_next, exec_eq_next,
      completion_runningWord (bodyOf_runningWord i s P w w')]
  | error e =>
    rw [hw'] at hdecode
    have hstate : completion CommandRow.illegal illegalBody (s.runningWord P w) =
        completion CommandRow.illegal illegalBody (s.runningWord P w') := completion_runningWord rfl
    rw [engineStep_illegal (hpending w') hw', engineStep_illegal (hpending w) hdecode, execIllegal_eq_next,
      execIllegal_eq_next, hstate]

/-- A command word written to CMD of an idle core out of reset is issued: the core runs it with the operand
registers as they stand (R103). -/
theorem step_issues {s : State} {w : Word} {rest : List Event} (hr : s.inReset = false)
    (hidle : s.pending = none) :
    step { s with inputs := .host (.write .word 0x014 w) :: rest } =
      .next ((s.after rest).issue w) := by
  obtain ⟨hissue, -⟩ := cmdWriteIssuesWhileIdle.1
    { s with inputs := .host (.write .word 0x014 w) :: rest } w rest rfl hr
  exact hissue hidle

/-- The engine completes a command just issued (R302, R303). -/
theorem step_completes_issued {i : Instr} {s : State} {w : Word} {rest : List Event}
    (hd : decode w = .ok i) :
    step ((s.after (.engine :: rest)).issue w) =
      .next (completion (rowOf i) (bodyOf i) ((s.after rest).issue w)) := by
  rw [← exec_eq_next]
  exact engineStep_command (State.issue_pending w (s.after rest)) hd

/-- Settles O5: the meanings are one, running words that differ in V alone complete alike, and a command just
issued is such a running word, not corrupted, so its error is not IllegalCommandError. -/
theorem verboseHasNoEffect : Obligations.VerboseHasNoEffect := by
  refine ⟨fun i s => ?_, fun s P rest => ?_, fun i s rest hr hidle => ?_⟩
  · rw [exec_withVerbose, exec_withVerbose]
  · obtain ⟨hopc, -, hrsvd⟩ := fields_or_verbose P.word
    obtain ⟨hopc', -, hrsvd'⟩ := fields_and_mask P.word
    rw [step_cons rfl, step_cons rfl]
    exact engineStep_runningWord (s.after rest) P (hopc.trans hopc'.symm) (hrsvd.trans hrsvd'.symm)
  · have hcompletes : ∀ v, step ((s.after (.engine :: rest)).issue (encode (i.withVerbose v))) =
        .next (completion (rowOf i) (bodyOf i) ((s.after rest).issue (encode i))) := fun v => by
      rw [step_completes_issued (decode_encode _), rowOf_withVerbose, bodyOf_withVerbose,
        State.issue_eq_runningWord, State.issue_eq_runningWord,
        completion_runningWord (bodyOf_runningWord ..)]
    exact ⟨_, _, _, step_issues hr hidle, step_issues hr hidle, rfl, rfl, hcompletes true,
      hcompletes false, completion_errcode_ne_illegalCommand i rfl⟩

end Sys2Proof.Machine
end

section
/-!
SUPPORT. The priority queue and `build` (40_frequency_tree.md): the key order, what the merge loop keeps of the
queue it is given, and what a built tree is.
-/

namespace Sys2Proof.Machine

/-! ### The key order of the queue -/

/-- Keys compare lexicographically: frequency, then sequence number (R141). -/
theorem QEntry.before_iff {a b : QEntry} : a.before b = true ↔
    a.node.freq.toNat < b.node.freq.toNat
      ∨ a.node.freq.toNat = b.node.freq.toNat ∧ a.seq < b.seq := by
  simp [QEntry.before, BitVec.toNat_eq]

theorem QEntry.before_trans {a b c : QEntry} (hab : a.before b = true) (hbc : b.before c = true) :
    a.before c = true := by
  rw [before_iff] at *
  omega

/-- Distinct sequence numbers make the order total (R141). -/
theorem QEntry.before_of_not_before {a b : QEntry} (h : ¬ a.before b = true) (hseq : b.seq ≠ a.seq) :
    b.before a = true := by
  rw [before_iff] at *
  omega

/-- A queue in strictly ascending key order: its minimum is its head (R141). -/
abbrev KeyOrdered (q : List QEntry) : Prop := q.Pairwise fun a b => a.before b = true

/-- Insertion under a new sequence number keeps the key order. -/
theorem queueInsert_keyOrdered {q : List QEntry} {e : QEntry} (hq : KeyOrdered q)
    (hseq : ∀ a ∈ q, a.seq ≠ e.seq) : KeyOrdered (queueInsert e q) := by
  induction q with
  | nil => exact List.pairwise_singleton _ _
  | cons x q ih =>
    obtain ⟨hx, htail⟩ := List.pairwise_cons.1 hq
    obtain ⟨hxseq, hseq⟩ := List.forall_mem_cons.1 hseq
    unfold queueInsert
    split
    · next hex =>
      refine List.pairwise_cons.2 ⟨List.forall_mem_cons.2 ⟨hex, fun a ha => ?_⟩, hq⟩
      exact QEntry.before_trans hex (hx a ha)
    · next hex =>
      refine List.pairwise_cons.2 ⟨fun a ha => ?_, ih htail hseq⟩
      rcases List.mem_cons.1 ((queueInsert_perm e q).mem_iff.1 ha) with rfl | ha
      · exact QEntry.before_of_not_before hex hxseq
      · exact hx a ha

/-- Inserting entries of distinct sequence numbers one after the other keeps the key order. -/
theorem foldl_queueInsert_keyOrdered {l q : List QEntry} (hq : KeyOrdered q)
    (hseq : ((l ++ q).map QEntry.seq).Nodup) :
    KeyOrdered (l.foldl (fun q e => queueInsert e q) q) := by
  induction l generalizing q with
  | nil => exact hq
  | cons e l ih =>
    have hnew : ∀ a ∈ q, a.seq ≠ e.seq := fun a ha heq =>
      (List.nodup_cons.1 hseq).1 (List.mem_map.2 ⟨a, List.mem_append_right l ha, heq⟩)
    have hperm : (e :: (l ++ q)).Perm (l ++ queueInsert e q) :=
      List.perm_middle.symm.trans ((queueInsert_perm e q).symm.append_left l)
    exact ih (queueInsert_keyOrdered hq hnew) ((hperm.map QEntry.seq).nodup_iff.1 hseq)

/-! ### The first queue -/

/-- The leaves are numbered 0, 1, ... (R141). -/
theorem leafEntries_map_seq (F : Table Word) :
    (leafEntries F).map QEntry.seq = List.range (presentSymbols F).length := by
  simp [leafEntries, Function.comp_def, List.range_eq_range']

theorem initialQueue_keyOrdered (F : Table Word) : KeyOrdered (initialQueue F) :=
  foldl_queueInsert_keyOrdered .nil <| by
    rw [List.append_nil, leafEntries_map_seq]
    exact List.nodup_range

theorem seq_lt_of_mem_initialQueue {F : Table Word} {a : QEntry} (h : a ∈ initialQueue F) :
    a.seq < (presentSymbols F).length := by
  have hmem := List.mem_map_of_mem (f := QEntry.seq) ((initialQueue_perm F).mem_iff.1 h)
  rwa [leafEntries_map_seq, List.mem_range] at hmem

theorem initialQueue_eq_nil_iff {F : Table Word} : initialQueue F = [] ↔ presentSymbols F = [] := by
  rw [← List.length_eq_zero_iff, initialQueue_length, List.length_eq_zero_iff]

theorem mem_presentSymbols {F : Table Word} {b : Byte} : b ∈ presentSymbols F ↔ F.get b ≠ 0 := by
  simp [presentSymbols, mem_symbols]

theorem presentSymbols_nodup (F : Table Word) : (presentSymbols F).Nodup := symbols_nodup.filter _

/-! ### The merge loop -/

theorem mergeLoop_singleton (n seq : Nat) (x : QEntry) : mergeLoop n seq [x] = some x.node := by
  cases n <;> rfl

/-- One merge: the two first entries give way to their parent, the first on the left (R142). -/
theorem mergeLoop_cons_cons (n seq : Nat) (x y : QEntry) (q : List QEntry) :
    mergeLoop (n + 1) seq (x :: y :: q) =
      mergeLoop n (seq + 1) (queueInsert ⟨seq, mergeNodes x.node y.node⟩ q) := rfl

/-- As many passes as there are entries reduce a queue that is not empty to one node (R143). -/
theorem exists_mergeLoop_eq_some {n : Nat} {q : List QEntry} (seq : Nat) (hq : q ≠ [])
    (hn : q.length ≤ n) : ∃ t, mergeLoop n seq q = some t := by
  induction n generalizing seq q with
  | zero => exact absurd (List.length_eq_zero_iff.1 (Nat.le_zero.1 hn)) hq
  | succ n ih =>
    match q, hq with
    | [x], _ => exact ⟨x.node, mergeLoop_singleton ..⟩
    | x :: y :: q, _ =>
      have hperm := queueInsert_perm ⟨seq, mergeNodes x.node y.node⟩ q
      rw [mergeLoop_cons_cons]
      refine ih (seq + 1) (fun hnil => ?_) ?_
      · simp [hnil] at hperm
      · rw [hperm.length_eq]
        exact Nat.le_of_succ_le_succ hn

/-- What holds of a queue, in whatever order it stands, and is kept when two entries are merged, holds of the
tree the loop returns. -/
theorem mergeLoop_keeps {p : List Node → Prop}
    (hperm : ∀ {l l' : List Node}, l.Perm l' → p l → p l')
    (hmerge : ∀ {x y : Node} {l : List Node}, p (x :: y :: l) → p (mergeNodes x y :: l))
    {n seq : Nat} {q : List QEntry} {t : Node} (hq : p (q.map QEntry.node))
    (ht : mergeLoop n seq q = some t) : p [t] := by
  induction n generalizing seq q with
  | zero =>
    match q, ht with
    | [x], ht => cases ht; exact hq
  | succ n ih =>
    match q, ht with
    | [x], ht => cases ht; exact hq
    | x :: y :: q, ht =>
      have hinsert := queueInsert_perm ⟨seq, mergeNodes x.node y.node⟩ q
      exact ih (hperm (hinsert.map QEntry.node).symm (hmerge hq)) ht

/-- The loop keeps the leaves of the queue. -/
theorem leaves_perm_of_mergeLoop {n seq : Nat} {q : List QEntry} {t : Node}
    (ht : mergeLoop n seq q = some t) :
    t.leaves.Perm ((q.map QEntry.node).flatMap Node.leaves) := by
  have h := mergeLoop_keeps
    (p := fun l => (l.flatMap Node.leaves).Perm ((q.map QEntry.node).flatMap Node.leaves))
    (fun hl h => (hl.flatMap_right _).symm.trans h)
    (fun h => by simpa [mergeNodes, Node.leaves] using h) (.refl _) ht
  simpa using h

/-- A parent's frequency is the 32-bit sum of its children's (R142, R143). -/
theorem moduloSums_mergeNodes {x y : Node} (hx : x.moduloSums) (hy : y.moduloSums) :
    (mergeNodes x y).moduloSums := ⟨rfl, hx, hy⟩

theorem moduloSums_of_mergeLoop {n seq : Nat} {q : List QEntry} {t : Node}
    (hq : ∀ e ∈ q, e.node.moduloSums) (ht : mergeLoop n seq q = some t) : t.moduloSums := by
  have h := mergeLoop_keeps (p := fun l => ∀ x ∈ l, x.moduloSums)
    (fun hl h x hx => h x (hl.mem_iff.2 hx))
    (fun {x y l} h => by
      obtain ⟨hx, hy, hl⟩ : x.moduloSums ∧ y.moduloSums ∧ ∀ z ∈ l, z.moduloSums := by simpa using h
      exact List.forall_mem_cons.2 ⟨moduloSums_mergeNodes hx hy, hl⟩)
    (List.forall_mem_map.2 hq) ht
  exact h t (List.mem_singleton_self t)

/-! ### Leaves and sums of a tree -/

theorem leaves_length (t : Node) : t.leaves.length = t.leafCount := by
  induction t with
  | leaf => rfl
  | internal f l r ihl ihr => simp [Node.leaves, Node.leafCount, ihl, ihr]

/-- The sum of the frequencies of the leaves, as an unbounded number. -/
def leafSum (t : Node) : Nat := (t.leaves.map fun p => p.2.toNat).sum

theorem leafSum_internal (f : Word) (l r : Node) :
    leafSum (.internal f l r) = leafSum l + leafSum r := by
  simp [leafSum, Node.leaves]

/-- 32-bit sums are exact when the leaves sum to less than 2^32 (R146). -/
theorem exactSums_of_leafSum_lt {t : Node} (hmod : t.moduloSums) (hlt : leafSum t < 2 ^ 32) :
    t.exactSums ∧ t.freq.toNat = leafSum t := by
  induction t with
  | leaf s f => exact ⟨trivial, by simp [leafSum, Node.leaves, Node.freq]⟩
  | internal f l r ihl ihr =>
    obtain ⟨hf, hl, hr⟩ := hmod
    rw [leafSum_internal] at hlt ⊢
    obtain ⟨hlexact, hlfreq⟩ := ihl hl (by omega)
    obtain ⟨hrexact, hrfreq⟩ := ihr hr (by omega)
    have hsum : f.toNat = l.freq.toNat + r.freq.toNat := by
      rw [hf, BitVec.toNat_add, Nat.mod_eq_of_lt (by omega)]
    exact ⟨⟨hsum, hlexact, hrexact⟩, by rw [Node.freq, hsum, hlfreq, hrfreq]⟩

/-! ### `build` -/

theorem buildTree_eq_ok {F : Table Word} {t : Node} : buildTree F = .ok t ↔
    mergeLoop (presentSymbols F).length (presentSymbols F).length (initialQueue F) = some t := by
  rw [← initialQueue_length]
  refine ⟨mergeLoop_of_buildTree, fun h => ?_⟩
  rw [buildTree, h]

theorem buildTree_eq_error {F : Table Word} :
    buildTree F = .error .emptyInput ↔ presentSymbols F = [] := by
  rw [← initialQueue_eq_nil_iff]
  refine ⟨fun h => ?_, fun h => ?_⟩
  · by_contra hne
    obtain ⟨t, ht⟩ := exists_mergeLoop_eq_some (initialQueue F).length hne le_rfl
    rw [buildTree, ht] at h
    cases h
  · rw [buildTree, h]
    rfl

/-- `build` succeeds when some symbol is present (R143, R145). -/
theorem exists_buildTree_eq_ok {F : Table Word} {b : Byte} (hb : F.get b ≠ 0) :
    ∃ t, buildTree F = .ok t := by
  cases h : buildTree F with
  | ok t => exact ⟨t, rfl⟩
  | error e =>
    obtain rfl := buildTree_error h
    have hmem := mem_presentSymbols.2 hb
    rw [buildTree_eq_error.1 h] at hmem
    cases hmem

theorem leafEntries_map_node (F : Table Word) :
    (leafEntries F).map QEntry.node = (presentSymbols F).map fun b => .leaf b (F.get b) := by
  have hfst := List.zipIdx_map_fst 0 (presentSymbols F)
  calc (leafEntries F).map QEntry.node
      = ((presentSymbols F).zipIdx.map Prod.fst).map fun b => .leaf b (F.get b) := by
        rw [leafEntries, List.map_map, List.map_map]; rfl
    _ = _ := by rw [hfst]

/-- A built tree has one leaf per present symbol, of its count (R143, R146). -/
theorem leaves_perm_of_buildTree {F : Table Word} {t : Node} (h : buildTree F = .ok t) :
    t.leaves.Perm ((presentSymbols F).map fun b => (b, F.get b)) := by
  have hnodes : ((initialQueue F).map QEntry.node).Perm _ :=
    leafEntries_map_node F ▸ (initialQueue_perm F).map QEntry.node
  have hleaves := (leaves_perm_of_mergeLoop (mergeLoop_of_buildTree h)).trans
    (hnodes.flatMap_right Node.leaves)
  simpa [List.flatMap_map, Node.leaves, ← List.map_eq_flatMap] using hleaves

theorem leafCount_of_buildTree {F : Table Word} {t : Node} (h : buildTree F = .ok t) :
    t.leafCount = (presentSymbols F).length := by
  rw [← leaves_length, (leaves_perm_of_buildTree h).length_eq, List.length_map]

theorem moduloSums_of_buildTree {F : Table Word} {t : Node} (h : buildTree F = .ok t) :
    t.moduloSums := by
  refine moduloSums_of_mergeLoop (fun e he => ?_) (mergeLoop_of_buildTree h)
  obtain ⟨p, -, rfl⟩ := List.mem_map.1 ((initialQueue_perm F).mem_iff.1 he)
  trivial

/-- Absent symbols add nothing to the sum of the counts. -/
theorem sum_counts_present (F : Table Word) (l : List Byte) :
    ((l.filter fun b => decide (F.get b ≠ 0)).map fun b => (F.get b).toNat).sum =
      (l.map fun b => (F.get b).toNat).sum := by
  induction l with
  | nil => rfl
  | cons b l ih =>
    by_cases hb : F.get b = 0#32 <;> simpa [hb] using ih

theorem leafSum_of_buildTree {F : Table Word} {t : Node} (h : buildTree F = .ok t) :
    leafSum t = (symbols.map fun b => (F.get b).toNat).sum := by
  rw [leafSum, ((leaves_perm_of_buildTree h).map _).sum_eq, List.map_map]
  exact sum_counts_present F symbols

/-- Settles O31: insertion keeps the order because sequence numbers are distinct, and the queue has as many
entries as there are present symbols. -/
theorem queueKeepsKeyOrder : Obligations.QueueKeepsKeyOrder := by
  refine ⟨fun a b => QEntry.before_iff, fun F => ⟨initialQueue_keyOrdered F, initialQueue_perm F,
      fun a ha => seq_lt_of_mem_initialQueue ha⟩,
    fun q e hq hseq => ⟨queueInsert_keyOrdered hq hseq, queueInsert_perm e q⟩,
    fun n seq x y q => ⟨mergeLoop_cons_cons n seq x y q, mergeLoop_singleton n seq x⟩,
    fun seq x y q hq hseq => ?_, fun F k hk => ?_⟩
  · obtain ⟨hx, hyq⟩ := List.pairwise_cons.1 hq
    obtain ⟨hy, hq⟩ := List.pairwise_cons.1 hyq
    have hold : ∀ a ∈ q, a.seq < seq := fun a ha =>
      hseq a (List.mem_cons_of_mem x (List.mem_cons_of_mem y ha))
    refine ⟨hx, hy, queueInsert_keyOrdered hq fun a ha => (hold a ha).ne, fun a ha => ?_⟩
    rcases List.mem_cons.1 ((queueInsert_perm _ q).mem_iff.1 ha) with rfl | ha
    · exact Nat.lt_succ_self seq
    · exact (hold a ha).trans (Nat.lt_succ_self seq)
  · obtain rfl : k = (presentSymbols F).length := hk
    exact ⟨fun T => buildTree_eq_ok, by rw [buildTree_eq_error, List.length_eq_zero_iff]⟩

end Sys2Proof.Machine
end

section
/-!
SUPPORT. What FCOUNT and TBUILD write and leave unchanged, and the statements about them.
-/

namespace Sys2Proof.Machine

/-! ### Frames of a completion -/

/-- A completion without output bytes leaves the buffer as it was. -/
theorem completeOk_sameBuffer {fx : Effects} (hout : fx.out = []) (P : Pending) (s : State) :
    SameBuffer s (s.completeOk P fx) :=
  wroteBytes_nil (hout ▸ completeOk_wroteBytes P fx s)

/-- An error of a command without a destination leaves the buffer as it was (R303). -/
theorem completeError_sameBuffer {row : CommandRow} (hrow : row.writesDst = false) (P : Pending)
    (e : CmdError) (s : State) : SameBuffer s (s.completeError row P e) :=
  fun _ => State.readByte_congr (by simp [hrow]) (State.completeError_memDraw row P e s)

/-- An error completion reports its error and keeps the tables and the registers (R303). -/
theorem completeError_keeps (row : CommandRow) (P : Pending) (e : CmdError) (s : State) :
    Completed (some e) (s.completeError row P e) ∧ SameTables s (s.completeError row P e)
      ∧ SameRegisters s (s.completeError row P e) := by
  simp [Completed, SameTables, SameRegisters]

/-! ### TBUILD -/

/-- TBUILD uses no range, so no common check can refuse it (R140, R306). -/
theorem tbuild_ready (v : Bool) {s : State} (hc : s.operands.corrupt = false) : Ready (.tbuild v) s := by
  simp [Ready, hc, rowOf, CommandRow.base]

/-- The state after a TBUILD that built `T` (R140). -/
def State.tbuilt (s : State) (T : Node) : State :=
  s.completeOk s.operands { arena := some (some T), code := some (Table.const none) }

theorem exec_tbuild_ok (v : Bool) {s : State} {T : Node} (hc : s.operands.corrupt = false)
    (hT : buildTree s.freq = .ok T) : exec (.tbuild v) s = .next (s.tbuilt T) :=
  ready_exec_ok (tbuild_ready v hc) ((tbuildBody_eq_ok (P := s.operands)).2 ⟨T, hT, rfl⟩)

theorem exec_tbuild_error (v : Bool) {s : State} {e : CmdError} (hc : s.operands.corrupt = false)
    (he : buildTree s.freq = .error e) :
    exec (.tbuild v) s = .next (s.completeError (rowOf (.tbuild v)) s.operands e) :=
  ready_exec_error (tbuild_ready v hc) (except_bind_eq_error.2 (.inl he))

/-- TBUILDs of the same FREQ report the same error or build the same tree (R147). -/
theorem tbuild_deterministic {v v' : Bool} {s u t t' : State} (hs : s.operands.corrupt = false)
    (hu : u.operands.corrupt = false) (hfreq : s.freq = u.freq) (ht : exec (.tbuild v) s = .next t)
    (ht' : exec (.tbuild v') u = .next t') :
    t.errcode = t'.errcode ∧ (t.errcode = none → t.arena = t'.arena ∧ t.code = t'.code) := by
  cases hbuild : buildTree s.freq with
  | ok T =>
    rw [exec_tbuild_ok v hs hbuild] at ht
    rw [exec_tbuild_ok v' hu (hfreq ▸ hbuild)] at ht'
    cases ht; cases ht'
    exact ⟨rfl, fun _ => ⟨rfl, rfl⟩⟩
  | error e =>
    rw [exec_tbuild_error v hs hbuild] at ht
    rw [exec_tbuild_error v' hu (hfreq ▸ hbuild)] at ht'
    cases ht; cases ht'
    exact ⟨rfl, nofun⟩

/-- Settles O30: the merge loop keeps the leaves of the first queue and makes 32-bit sums, which are exact
below 2^32; and the completion is a function of what `build` gives. -/
theorem tbuildBuildsTreeOfPresentSymbols : Obligations.TbuildBuildsTreeOfPresentSymbols := by
  refine ⟨fun v s hc ⟨b, hb⟩ => ?_, fun v v' s u t t' => tbuild_deterministic⟩
  obtain ⟨T, hT⟩ := exists_buildTree_eq_ok hb
  have hleaves := leafCount_of_buildTree hT
  have hnodes := nodeCount_of_buildTree hT
  have hmod := moduloSums_of_buildTree hT
  refine ⟨s.tbuilt T, T, hT, exec_tbuild_ok v hc hT, completeOk_succeeded _ _ s, rfl,
    leaves_perm_of_buildTree hT, hleaves, by omega, nodeCount_le_of_buildTree hT, hmod, fun hsum => ?_,
    Table.get_const none, rfl, rfl, completeOk_sameBuffer rfl _ s⟩
  rw [← leafSum_of_buildTree hT] at hsum ⊢
  exact exactSums_of_leafSum_lt hmod hsum

/-- Settles O33: the one present symbol gives the first queue its one entry. -/
theorem tbuildOfOneSymbolIsLeaf : Obligations.TbuildOfOneSymbolIsLeaf := by
  intro v s b hc hb hrest
  have hmem : ∀ c, c ∈ presentSymbols s.freq ↔ c ∈ [b] := fun c => by
    rw [mem_presentSymbols, List.mem_singleton]
    exact ⟨fun h => by_contra fun hne => h (hrest c hne), fun h => h ▸ hb⟩
  have hpresent : presentSymbols s.freq = [b] := List.perm_singleton.1 <|
    (List.perm_ext_iff_of_nodup (presentSymbols_nodup _) (List.nodup_singleton b)).2 hmem
  have hbuild : buildTree s.freq = .ok (.leaf b (s.freq.get b)) := by
    rw [buildTree_eq_ok, initialQueue, leafEntries, hpresent]
    rfl
  exact ⟨s.tbuilt _, exec_tbuild_ok v hc hbuild, completeOk_succeeded _ _ s, rfl⟩

/-- Settles O32: no symbol is present, so `build` raises EmptyInputError, and TBUILD has no destination. -/
theorem tbuildOfEmptyTableFails : Obligations.TbuildOfEmptyTableFails := by
  intro v s hc hzero
  have hpresent : presentSymbols s.freq = [] :=
    List.eq_nil_iff_forall_not_mem.2 fun b hb => mem_presentSymbols.1 hb (hzero b)
  obtain ⟨hcompleted, htables, hregisters⟩ :=
    completeError_keeps (rowOf (.tbuild v)) s.operands .emptyInput s
  exact ⟨_, exec_tbuild_error v hc (buildTree_eq_error.2 hpresent), hcompleted, htables, rfl, rfl,
    completeError_sameBuffer rfl _ _ s, hregisters⟩

/-! ### FCOUNT -/

/-- `count` of a byte string that is not empty (R131). -/
theorem countSymbols_of_ne_nil {src : List Byte} (h : src ≠ []) :
    countSymbols src = .ok (Table.ofFun fun b => BitVec.ofNat 32 (src.count b)) :=
  if_neg (mt List.length_eq_zero_iff.1 h)

theorem src_length (s : State) : s.src.length = s.operands.src.len := State.memRead_length s _ _

/-- A source is shorter than 2^32 bytes, so no count wraps (R131). -/
theorem count_src_lt (s : State) (b : Byte) : s.src.count b < 2 ^ 32 :=
  (List.count_le_length.trans_eq (src_length s)).trans_lt s.operands.srcLen.isLt

/-- Settles O29: counts of at most SRC_LEN fit 32 bits, and FCOUNT has no destination. -/
theorem fcountCountsSourceBytes : Obligations.FcountCountsSourceBytes := by
  intro v s hready
  refine ⟨fun hlen => ?_, fun hlen => ?_⟩
  · have hne : s.src ≠ [] := List.ne_nil_of_length_pos (src_length s ▸ hlen)
    refine ⟨_, ready_exec_ok hready (fcountBody_eq_ok.2 ⟨_, countSymbols_of_ne_nil hne, rfl⟩),
      completeOk_succeeded _ _ s, fun b => ?_, rfl, rfl, rfl, completeOk_sameBuffer rfl _ s⟩
    exact (congrArg BitVec.toNat (Table.get_ofFun _ b)).trans (Nat.mod_eq_of_lt (count_src_lt s b))
  · have hcount : countSymbols s.src = .error .emptyInput := if_pos (src_length s ▸ hlen)
    obtain ⟨hcompleted, htables, -⟩ := completeError_keeps (rowOf (.fcount v)) s.operands .emptyInput s
    exact ⟨_, ready_exec_error hready (except_bind_eq_error.2 (.inl hcount)), hcompleted, htables,
      completeError_sameBuffer rfl _ _ s⟩

end Sys2Proof.Machine
end

section
/-!
SUPPORT. The code table (41_code_table.md): the entry of a symbol is the path to its last leaf, no path to a
leaf begins another, and what CGEN writes and leaves unchanged.
-/

namespace Sys2Proof.Machine

/-! ### The last leaf of a symbol -/

/-- The path to the last leaf of the symbol `b` in pre-order, when it has one (R164). -/
def lastPath (t : Node) (b : Byte) : Option Bits :=
  ((t.paths.filter fun p => decide (p.1 = b)).getLast?).map Prod.snd

theorem lastPath_leaf (c : Byte) (f : Word) (b : Byte) :
    lastPath (.leaf c f) b = if c = b then some [] else none := by
  by_cases h : c = b <;> simp [lastPath, Node.paths, h]

/-- The leaves of the right subtree come after those of the left one. -/
theorem lastPath_internal (f : Word) (l r : Node) (b : Byte) :
    lastPath (.internal f l r) b =
      ((lastPath r b).map (true :: ·)).or ((lastPath l b).map (false :: ·)) := by
  simp only [lastPath, Node.paths, List.filter_append, List.filter_map, List.getLast?_append,
    List.getLast?_map, Option.map_or, Option.map_map, Function.comp_def]

/-- The walk sets the entry of each symbol that has a leaf to the path of its last one, behind the path walked
so far, and leaves the other entries alone (R161, R164). -/
theorem visitCodes_get_eq_lastPath (t : Node) (p : Bits) (C : Table (Option Bits)) (b : Byte) :
    (visitCodes t p C).get b = ((lastPath t b).map (p ++ ·)).or (C.get b) := by
  induction t generalizing p C with
  | leaf c f =>
    rw [visitCodes, lastPath_leaf, Table.get_set]
    split <;> simp
  | internal f l r ihl ihr =>
    rw [visitCodes, ihr, ihl, lastPath_internal, ← Option.or_assoc]
    simp only [Option.map_or, Option.map_map, Function.comp_def, List.append_assoc, List.singleton_append]

theorem codesOf_leaf_get (c : Byte) (f : Word) (b : Byte) :
    (codesOf (some (.leaf c f))).get b = if b = c then some [false] else none := by
  simp only [codesOf, Table.get_set, Table.get_const, eq_comm]

theorem codesOf_internal_get (f : Word) (l r : Node) (b : Byte) :
    (codesOf (some (.internal f l r))).get b = lastPath (.internal f l r) b := by
  simp [codesOf, visitCodes_get_eq_lastPath]

/-! ### Prefixes -/

theorem mem_paths_of_lastPath {t : Node} {b : Byte} {q : Bits} (h : lastPath t b = some q) :
    (b, q) ∈ t.paths := by
  obtain ⟨⟨c, q⟩, hlast, rfl⟩ := Option.map_eq_some_iff.1 h
  obtain ⟨hmem, hc⟩ := List.mem_filter.1 (List.mem_of_getLast? hlast)
  exact of_decide_eq_true hc ▸ hmem

/-- No leaf lies on the path to another leaf, whatever symbols they hold (R165). -/
theorem eq_of_path_isPrefix {t : Node} {d e : Byte × Bits} (hd : d ∈ t.paths) (he : e ∈ t.paths)
    (hpre : d.2 <+: e.2) : d = e := by
  induction t generalizing d e with
  | leaf c f => exact (List.mem_singleton.1 hd).trans (List.mem_singleton.1 he).symm
  | internal f l r ihl ihr =>
    simp only [Node.paths, List.mem_append, List.mem_map] at hd he
    obtain ⟨d, hd, rfl⟩ | ⟨d, hd, rfl⟩ := hd <;> obtain ⟨e, he, rfl⟩ | ⟨e, he, rfl⟩ := he <;>
      obtain ⟨hbit, hpre⟩ := List.cons_prefix_cons.1 hpre
    · rw [ihl hd he hpre]
    · cases hbit
    · cases hbit
    · rw [ihr hd he hpre]

/-- Settles O35: a code is the path of a leaf of its symbol, it is not empty because the root is internal, and
no leaf lies on the path to another one.  Distinct symbols are not needed: the entries of a table belong to
different symbols, hence to different leaves. -/
theorem codesArePrefixFree : Obligations.CodesArePrefixFree := by
  intro f l r _ a c hc
  rw [codesOf_internal_get] at hc
  have hmem := mem_paths_of_lastPath hc
  refine ⟨List.length_pos_iff.2 (path_ne_nil_of_internal hmem), length_le_depth_of_mem_paths hmem,
    fun b d hab hd hpre => ?_⟩
  rw [codesOf_internal_get] at hd
  exact hab (congrArg Prod.fst (eq_of_path_isPrefix hmem (mem_paths_of_lastPath hd) hpre))

/-! ### CGEN -/

/-- CGEN uses no range, so no common check can refuse it (R160, R306). -/
theorem cgen_ready (v : Bool) {s : State} (hc : s.operands.corrupt = false) : Ready (.cgen v) s := by
  simp [Ready, hc, rowOf, CommandRow.base]

/-- CGEN succeeds on every ARENA, the null tree included (R160, R163). -/
theorem exec_cgen (v : Bool) {s : State} (hc : s.operands.corrupt = false) :
    exec (.cgen v) s = .next (s.completeOk s.operands { code := some (codesOf s.arena) }) :=
  ready_exec_ok (cgen_ready v hc) ((cgenBody_eq_ok (P := s.operands)).2 rfl)

/-- Settles O34: CGEN completes with `codes(ARENA)` as its one effect, and for an internal root an entry of that
table is the path to the last leaf of its symbol. -/
theorem cgenWritesLeafPaths : Obligations.CgenWritesLeafPaths := by
  intro v s hc
  refine ⟨_, exec_cgen v hc, completeOk_succeeded _ _ s, rfl, rfl, rfl, completeOk_sameBuffer rfl _ s,
    fun b => ?_⟩
  change (codesOf s.arena).get b = _
  match s.arena with
  | none => exact Table.get_const none b
  | some (.leaf c f) => exact codesOf_leaf_get c f b
  | some (.internal f l r) => exact codesOf_internal_get f l r b

end Sys2Proof.Machine
end

section
/-!
SUPPORT. The packed form (42_bit_codec.md): the bit of a byte string at a position, first bit highest, what
`pack` and `unpack` do in its terms, and the statements about them.
-/

namespace Sys2Proof.Machine

/-- Bit `i` of a byte string: bit `7 - (i mod 8)` of byte `i div 8`; 0 beyond its end (R74, R181). -/
def bitAt (bytes : List Byte) (i : Nat) : Bool := (byteAt bytes (i / 8)).getLsbD (7 - i % 8)

/-- The first eight bits are those of the first byte. -/
theorem bitAt_cons_of_lt (b : Byte) (bs : List Byte) {i : Nat} (hi : i < 8) :
    bitAt (b :: bs) i = b.getLsbD (7 - i) := by
  simp [bitAt, byteAt, Nat.div_eq_of_lt hi, Nat.mod_eq_of_lt hi]

theorem bitAt_cons_add_eight (b : Byte) (bs : List Byte) (i : Nat) :
    bitAt (b :: bs) (8 + i) = bitAt bs i := by
  simp [bitAt, byteAt]

/-- Bytes behind the first ones do not change their bits (R182). -/
theorem bitAt_append_of_lt {bytes : List Byte} (extra : List Byte) {i : Nat} (hi : i < 8 * bytes.length) :
    bitAt (bytes ++ extra) i = bitAt bytes i := by
  rw [bitAt, byteAt, List.getD_append _ _ _ _ (Nat.div_lt_of_lt_mul hi)]
  rfl

/-! ### Packing -/

/-- The number with bits `f 0` to `f (n - 1)`, first bit highest, has bit `f t` at place `n - 1 - t`. -/
theorem testBit_foldl_bits (f : Nat → Bool) {n t : Nat} (ht : t < n) :
    ((List.range n).foldl (fun acc t => 2 * acc + (f t).toNat) 0).testBit (n - 1 - t) = f t := by
  induction n with
  | zero => omega
  | succ n ih =>
    rw [List.range_succ, List.foldl_append, List.foldl_cons, List.foldl_nil, ← Nat.bit_val]
    rcases Nat.lt_succ_iff_lt_or_eq.1 ht with hlt | rfl
    · rw [show n + 1 - 1 - t = (n - 1 - t) + 1 by omega, Nat.testBit_bit_succ, ih hlt]
    · rw [show t + 1 - 1 - t = 0 by omega, Nat.testBit_bit_zero]

/-- Bit `t` of the eight stands in bit `7 - t` of the packed byte (R181). -/
theorem packByte_getLsbD (bits : Bits) {t : Nat} (ht : t < 8) :
    (packByte bits).getLsbD (7 - t) = bits.getD t false := by
  rw [packByte, BitVec.getLsbD_ofNat, decide_eq_true (by omega), Bool.true_and]
  exact testBit_foldl_bits (fun t => bits.getD t false) ht

@[simp] theorem pack_length (bits : Bits) : (pack bits).length = (bits.length + 7) / 8 := by
  simp [pack, ceilDiv8]

/-- The packed form holds the bits in order, and 0 behind them (R181). -/
theorem bitAt_pack (bits : Bits) {i : Nat} (hi : i < 8 * ((bits.length + 7) / 8)) :
    bitAt (pack bits) i = bits.getD i false := by
  have hbyte : byteAt (pack bits) (i / 8) = packByte (bits.drop (8 * (i / 8))) := by
    simp [byteAt, pack, ceilDiv8, Nat.div_lt_of_lt_mul hi]
  rw [bitAt, hbyte, packByte_getLsbD _ (Nat.mod_lt i (by decide)), List.getD_eq_getElem?_getD,
    List.getElem?_drop, Nat.div_add_mod, ← List.getD_eq_getElem?_getD]

/-! ### Unpacking -/

@[simp] theorem byteBits_length (b : Byte) : (byteBits b).length = 8 := by simp [byteBits]

theorem byteBits_getD (b : Byte) {i : Nat} (hi : i < 8) :
    (byteBits b).getD i false = b.getLsbD (7 - i) := by
  simp [byteBits, hi]

theorem flatMap_byteBits_length (bytes : List Byte) :
    (bytes.flatMap byteBits).length = 8 * bytes.length := by
  simp [List.length_flatMap, Nat.mul_comm]

/-- The bits of a byte string, byte after byte, are its bits by position. -/
theorem flatMap_byteBits_getD (bytes : List Byte) (i : Nat) :
    (bytes.flatMap byteBits).getD i false = bitAt bytes i := by
  induction bytes generalizing i with
  | nil => simp [bitAt, byteAt]
  | cons b bs ih =>
    rw [List.flatMap_cons]
    rcases Nat.lt_or_ge i 8 with hi | hi
    · rw [List.getD_append _ _ _ _ (by simpa using hi), byteBits_getD b hi, bitAt_cons_of_lt b bs hi]
    · obtain ⟨k, rfl⟩ := Nat.exists_eq_add_of_le hi
      rw [List.getD_append_right _ _ _ _ (by simp), byteBits_length, Nat.add_sub_cancel_left, ih,
        bitAt_cons_add_eight]

/-- A bit string is its bits by position. -/
theorem map_range_eq_of_getD {bits : Bits} {f : Nat → Bool} {n : Nat} (hlen : bits.length = n)
    (h : ∀ i < n, bits.getD i false = f i) : (List.range n).map f = bits := by
  subst hlen
  refine List.ext_getElem (by simp) fun i _ hi => ?_
  rw [List.getElem_map, List.getElem_range, ← h i hi, List.getD_eq_getElem _ _ hi]

/-- `unpack` gives the first `n` bits by position (R182). -/
theorem unpack_eq_ok_of_le {bytes : List Byte} {n : Nat} (h : n ≤ 8 * bytes.length) :
    unpack bytes n = .ok ((List.range n).map (bitAt bytes)) := by
  have hlen : ((bytes.flatMap byteBits).take n).length = n := by
    rw [List.length_take, flatMap_byteBits_length, Nat.min_eq_left h]
  rw [unpack, if_neg (Nat.not_lt.2 h), map_range_eq_of_getD hlen fun i hi => ?_]
  rw [List.getD_eq_getElem?_getD, List.getElem?_take_of_lt hi, ← List.getD_eq_getElem?_getD,
    flatMap_byteBits_getD]

/-- More bits than the bytes hold (R182). -/
theorem unpack_eq_error_of_lt {bytes : List Byte} {n : Nat} (h : 8 * bytes.length < n) :
    unpack bytes n = .error .truncatedPayload := if_pos h

/-! ### The statements -/

/-- Settles O41: `bitAt` is the place the statement names. -/
theorem packPutsFirstBitHighest : Obligations.PackPutsFirstBitHighest :=
  fun bits => ⟨pack_length bits, fun _ => bitAt_pack bits⟩

/-- Settles O42: `unpack` either refuses or gives the bits by position. -/
theorem unpackReadsFirstBitHighest : Obligations.UnpackReadsFirstBitHighest := by
  refine fun bytes n => ⟨unpack_eq_error_of_lt, fun hle =>
    ⟨_, unpack_eq_ok_of_le hle, by simp, fun i hi => ?_⟩⟩
  simp [hi, bitAt]

/-- Settles O43: the bits by position of the packed form are those packed, whatever bytes follow. -/
theorem unpackInvertsPack : Obligations.UnpackInvertsPack := by
  intro bits extra
  have hroom : bits.length ≤ 8 * (pack bits).length := by rw [pack_length]; omega
  have hle : bits.length ≤ 8 * (pack bits ++ extra).length := by rw [List.length_append]; omega
  rw [unpack_eq_ok_of_le hle, map_range_eq_of_getD rfl fun i hi => ?_]
  have hpacked : i < 8 * (pack bits).length := hi.trans_le hroom
  rw [bitAt_append_of_lt extra hpacked, bitAt_pack bits (pack_length bits ▸ hpacked)]

end Sys2Proof.Machine
end

section
/-!
SUPPORT. The decode walk (42_bit_codec.md R201 to R205): a walk down from a node reads the path of one of its
leaves, so a walk from the root reads the paths of leaves one after the other.
-/

namespace Sys2Proof.Machine

/-- The walk that has just come down to the node `n`: a leaf emits its symbol and returns to the root (R201). -/
def walkFrom (root n : Node) (bits : Bits) : Except CmdError (List Byte) :=
  match n with
  | .leaf s _ => do
    let out ← walkBits root root true bits
    .ok (s :: out)
  | .internal f l r => walkBits root (.internal f l r) false bits

/-- A bit takes the walk down to a child. -/
theorem walkBits_cons (root cur : Node) (atRoot b : Bool) (bs : Bits) :
    walkBits root cur atRoot (b :: bs) = walkFrom root (childOf cur b) bs := by
  rw [walkBits]
  cases childOf cur b <;> rfl

/-- The walk down from a node reads the path of one of its leaves, emits the symbol and goes on at the root. -/
theorem walkFrom_eq_ok {root n : Node} {bits : Bits} {out : List Byte} :
    walkFrom root n bits = .ok out ↔
      ∃ p ∈ n.paths, ∃ rest outRest, p.2 ++ rest = bits ∧ p.1 :: outRest = out
        ∧ walkBits root root true rest = .ok outRest := by
  induction n generalizing bits with
  | leaf s f => simp [walkFrom, Node.paths, except_bind_eq_ok, and_comm]
  | internal f l r ihl ihr =>
    rw [walkFrom]
    cases bits with
    | nil => simp [walkBits, Node.paths, or_and_right, exists_or]
    | cons b bs =>
      rw [walkBits_cons]
      cases b with
      | false => simp [childOf, ihl, Node.paths, or_and_right, exists_or]
      | true => simp [childOf, ihr, Node.paths, or_and_right, exists_or]

/-- A walk that starts at the root with bits to read is a walk down from it. -/
theorem walkBits_atRoot_eq_walkFrom (f : Word) (l r : Node) {bits : Bits} (h : bits ≠ []) :
    walkBits (.internal f l r) (.internal f l r) true bits =
      walkFrom (.internal f l r) (.internal f l r) bits := by
  obtain ⟨b, bs, rfl⟩ := List.exists_cons_of_ne_nil h
  rw [walkFrom, walkBits_cons, walkBits_cons]

/-- Every symbol emitted has read at least one bit, so no output means no bits (R201). -/
theorem walkBits_atRoot_eq_ok_nil {f : Word} {l r : Node} {bits : Bits} :
    walkBits (.internal f l r) (.internal f l r) true bits = .ok [] ↔ bits = [] := by
  refine ⟨fun h => by_contra fun hne => ?_, fun h => h ▸ rfl⟩
  rw [walkBits_atRoot_eq_walkFrom f l r hne] at h
  obtain ⟨p, -, rest, out, -, hout, -⟩ := walkFrom_eq_ok.1 h
  cases hout

/-- The first symbol comes from the path of a leaf at the front of the bits. -/
theorem walkBits_atRoot_eq_ok_cons {f : Word} {l r : Node} {bits : Bits} {s : Byte} {out : List Byte} :
    walkBits (.internal f l r) (.internal f l r) true bits = .ok (s :: out) ↔
      ∃ p ∈ (Node.internal f l r).paths, p.1 = s ∧ ∃ rest, p.2 ++ rest = bits
        ∧ walkBits (.internal f l r) (.internal f l r) true rest = .ok out := by
  by_cases hbits : bits = []
  · subst hbits
    refine iff_of_false (by simp [walkBits]) ?_
    rintro ⟨p, hp, -, rest, happ, -⟩
    exact path_ne_nil_of_internal hp (List.append_eq_nil_iff.1 happ).1
  · rw [walkBits_atRoot_eq_walkFrom f l r hbits, walkFrom_eq_ok]
    constructor
    · rintro ⟨p, hp, rest, out, happ, hout, hrest⟩
      cases hout
      exact ⟨p, hp, rfl, rest, happ, hrest⟩
    · rintro ⟨p, hp, rfl, rest, happ, hrest⟩
      exact ⟨p, hp, rest, out, happ, rfl, hrest⟩

/-- A walk from the root succeeds exactly on the paths of leaves, one after the other (R201). -/
theorem walkBits_atRoot_eq_ok {f : Word} {l r : Node} {bits : Bits} {out : List Byte} :
    walkBits (.internal f l r) (.internal f l r) true bits = .ok out ↔
      ∃ ps : List (Byte × Bits), (∀ p ∈ ps, p ∈ (Node.internal f l r).paths)
        ∧ ps.flatMap Prod.snd = bits ∧ ps.map Prod.fst = out := by
  induction out generalizing bits with
  | nil =>
    rw [walkBits_atRoot_eq_ok_nil]
    constructor
    · rintro rfl
      exact ⟨[], by simp, rfl, rfl⟩
    · rintro ⟨ps, -, rfl, hout⟩
      rw [List.map_eq_nil_iff.1 hout, List.flatMap_nil]
  | cons s out ih =>
    rw [walkBits_atRoot_eq_ok_cons]
    constructor
    · rintro ⟨p, hp, rfl, rest, rfl, hrest⟩
      obtain ⟨ps, hps, rfl, rfl⟩ := ih.1 hrest
      exact ⟨p :: ps, List.forall_mem_cons.2 ⟨hp, hps⟩, rfl, rfl⟩
    · rintro ⟨ps, hps, rfl, hout⟩
      obtain ⟨p, ps, rfl, rfl, rfl⟩ := List.map_eq_cons_iff.1 hout
      obtain ⟨hp, hps⟩ := List.forall_mem_cons.1 hps
      exact ⟨p, hp, rfl, _, rfl, ih.2 ⟨ps, hps, rfl, rfl⟩⟩

/-- Settles O47: the walk by `walkBits_atRoot_eq_ok`, the single leaf and the null tree by their clauses. -/
theorem decodeWalkInvertsPaths : Obligations.DecodeWalkInvertsPaths := by
  refine ⟨fun f l r bits out => walkBits_atRoot_eq_ok, fun f l r bits e => walkBits_error,
    fun b f bits => ⟨fun hzero => if_neg ?_, fun ⟨x, hx, hone⟩ => if_pos ?_⟩, rfl, fun x bits => rfl⟩
  · simpa using hzero
  · exact List.any_eq_true.2 ⟨x, hx, hone⟩

end Sys2Proof.Machine
end

section
/-!
SUPPORT. What BPACK, BUNPACK, BENC and BDEC write and leave unchanged, and the errors they report.
-/

namespace Sys2Proof.Machine

/-- A command whose own pseudocode raises an error completes with it (R303). -/
theorem ready_completes_error {i : Instr} {s : State} {e : CmdError} (h : Ready i s)
    (hb : bodyOf i s.operands s = .error e) : ∃ t, exec i s = .next t ∧ Completed (some e) t :=
  ⟨_, ready_exec_error h hb, (completeError_keeps _ _ e s).1⟩

/-- A command whose own pseudocode replaces no table, but BITLEN where it says so, writes its output bytes and
leaves the tables and every other byte alone (R302). -/
theorem ready_writes_output {i : Instr} {s : State} {out : List Byte} {n : Option Word} (h : Ready i s)
    (hb : bodyOf i s.operands s = .ok { out := out, bitlen := n }) :
    ∃ t, exec i s = .next t ∧ Succeeded out.length s t ∧ WroteBytes s.operands.dst.addr out s t
      ∧ t.bitlen = n.getD s.bitlen ∧ SameTables s t :=
  ⟨_, ready_exec_ok h hb, completeOk_succeeded _ _ s,
    completeOk_wroteBytes s.operands { out := out, bitlen := n } s, rfl, rfl, rfl, rfl⟩

/-- The last check of a command that writes the destination: its output exceeds DST_CAP. -/
theorem bind_fitOutput_eq_capacity {α : Type} {x : Except CmdError α} {a : α} {P : Pending}
    {fx : α → Effects} (hx : x = .ok a) (hcap : P.dstCap.toNat < (fx a).out.length) :
    (x >>= fun a => fitOutput P (fx a)) = .error .capacity :=
  except_bind_eq_error.2 (.inr ⟨a, hx, fitOutput_eq_error.2 ⟨hcap, rfl⟩⟩)

/-! ### BPACK -/

theorem bitsOfBytes_eq_ok {src : List Byte} (h : ∀ b ∈ src, b = 0x00 ∨ b = 0x01) :
    bitsOfBytes src = .ok (src.map fun b => decide (b = 0x01)) := by
  refine if_neg ?_
  simp only [List.any_eq_true, decide_eq_true_eq, not_exists, not_and]
  intro b hb
  rcases h b hb with rfl | rfl <;> decide

theorem bitsOfBytes_eq_invalidBit {src : List Byte} (h : ∃ b ∈ src, b ≠ 0x00 ∧ b ≠ 0x01) :
    bitsOfBytes src = .error .invalidBit := by
  obtain ⟨b, hb, h0, h1⟩ := h
  refine if_pos (List.any_eq_true.2 ⟨b, hb, decide_eq_true ?_⟩)
  have h0 : b.toNat ≠ 0 := fun h => h0 (BitVec.eq_of_toNat_eq h)
  have h1 : b.toNat ≠ 1 := fun h => h1 (BitVec.eq_of_toNat_eq h)
  omega

/-- Settles O44: the bits of the source are as many as its bytes, and their packed form is `pack_length` long. -/
theorem bpackPacksBitPerByteSource : Obligations.BpackPacksBitPerByteSource := by
  intro v s hready
  refine ⟨fun hsrc => ?_, fun hsrc => ?_⟩
  · have hbits := bitsOfBytes_eq_ok hsrc
    have hlen : (pack (s.src.map fun b => decide (b = 0x01))).length = (s.operands.src.len + 7) / 8 := by
      rw [pack_length, List.length_map, src_length]
    rw [← hlen]
    exact ⟨fun hfit => ready_writes_output hready (bpackBody_eq_ok.2 ⟨_, hbits, hfit, rfl⟩),
      fun hcap => ready_completes_error hready (bind_fitOutput_eq_capacity hbits hcap)⟩
  · exact ready_completes_error hready (except_bind_eq_error.2 (.inl (bitsOfBytes_eq_invalidBit hsrc)))

/-! ### BUNPACK -/

/-- Settles O45: the output is the bits of the source by position, a byte each. -/
theorem bunpackUnpacksOneBitPerByte : Obligations.BunpackUnpacksOneBitPerByte := by
  intro v s hready
  rw [← src_length s]
  refine ⟨fun hle => ?_, fun hlt => ?_⟩
  · have hbits := unpack_eq_ok_of_le hle
    refine ⟨fun hfit => ?_, fun hcap => ?_⟩
    · obtain ⟨t, hexec, hsucc, hwrote, hbitlen, htables⟩ := ready_writes_output hready
        (bunpackBody_eq_ok.2 ⟨_, hbits, by simpa using hfit, rfl⟩)
      refine ⟨t, _, hexec, by simpa using hsucc, by simp, fun i hi => ?_, hwrote, htables, hbitlen⟩
      simp [byteAt, hi, byteOfBit, bitAt]
    · exact ready_completes_error hready (bind_fitOutput_eq_capacity hbits (by simpa using hcap))
  · exact ready_completes_error hready (except_bind_eq_error.2 (.inl (unpack_eq_error_of_lt hlt)))

/-! ### BENC -/

/-- When every source byte has a code, the codes stand one after the other (R191). -/
theorem codeBits_eq_ok {C : Table (Option Bits)} {code : Byte → Bits} {src : List Byte}
    (h : ∀ b ∈ src, C.get b = some (code b)) : codeBits C src = .ok (src.flatMap code) := by
  induction src with
  | nil => rfl
  | cons b bs ih =>
    obtain ⟨hb, hbs⟩ := List.forall_mem_cons.1 h
    simp [codeBits, hb, ih hbs]

/-- A source byte without a code is an error, whatever stands around it (R191). -/
theorem codeBits_eq_symbolNotInTable {C : Table (Option Bits)} {src : List Byte}
    (h : ∃ b ∈ src, C.get b = none) : codeBits C src = .error .symbolNotInTable := by
  induction src with
  | nil => simp at h
  | cons b bs ih =>
    cases hb : C.get b with
    | none => simp [codeBits, hb]
    | some c =>
      have hrest : ∃ b ∈ bs, C.get b = none := by simpa [hb] using h
      simp [codeBits, hb, ih hrest]

theorem encodeBits_eq_ok {C : Table (Option Bits)} {src : List Byte} {bits : Bits}
    (h : codeBits C src = .ok bits) (hlen : bits.length ≤ 2 ^ 32 - 1) : encodeBits C src = .ok bits :=
  except_bind_eq_ok.2 ⟨bits, h, if_neg (Nat.not_lt.2 hlen)⟩

theorem encodeBits_eq_capacity {C : Table (Option Bits)} {src : List Byte} {bits : Bits}
    (h : codeBits C src = .ok bits) (hlen : 2 ^ 32 - 1 < bits.length) :
    encodeBits C src = .error .capacity :=
  except_bind_eq_error.2 (.inr ⟨bits, h, if_pos hlen⟩)

/-- Settles O46: the bit count decides before the output's length does, and fits BITLEN when it is not
refused. -/
theorem bencPacksCodesOfSource : Obligations.BencPacksCodesOfSource := by
  intro v s hready
  refine ⟨fun code hsrc => ?_, fun hsrc => ?_⟩
  · have hcodes := codeBits_eq_ok hsrc
    rw [← pack_length]
    refine ⟨fun hcount hfit => ?_, fun h => ready_completes_error hready ?_⟩
    · obtain ⟨t, hexec, hsucc, hwrote, hbitlen, htables⟩ := ready_writes_output hready
        (bencBody_eq_ok.2 ⟨_, encodeBits_eq_ok hcodes hcount, hfit, rfl⟩)
      refine ⟨t, hexec, hsucc, hwrote, ?_, htables⟩
      rw [hbitlen]
      exact Nat.mod_eq_of_lt (Nat.lt_of_le_pred (by decide) hcount)
    · by_cases hcount : 2 ^ 32 - 1 < (s.src.flatMap code).length
      · exact except_bind_eq_error.2 (.inl (encodeBits_eq_capacity hcodes hcount))
      · exact bind_fitOutput_eq_capacity (encodeBits_eq_ok hcodes (Nat.not_lt.1 hcount))
          (h.resolve_left hcount)
  · exact ready_completes_error hready
      (except_bind_eq_error.2 (.inl (except_bind_eq_error.2 (.inl (codeBits_eq_symbolNotInTable hsrc)))))

/-! ### BDEC -/

/-- Settles O48: `decode` is the unpack check and then the walk, and its output is the command's. -/
theorem bdecWritesDecodedBytes : Obligations.BdecWritesDecodedBytes := by
  intro v s hready
  have hraise : ∀ {e}, decodePayload s.arena s.src s.operands.bitlen.toNat = .error e →
      ∃ t, exec (.bdec v) s = .next t ∧ Completed (some e) t := fun he =>
    ready_completes_error hready (except_bind_eq_error.2 (.inl he))
  refine ⟨fun hlt => ?_, fun bits hbits => ⟨fun out hout => ?_, fun e he => ?_⟩⟩
  · rw [← src_length s] at hlt
    exact hraise (except_bind_eq_error.2 (.inl (unpack_eq_error_of_lt hlt)))
  · have hdecode := except_bind_eq_ok.2 ⟨bits, hbits, hout⟩
    refine ⟨fun hfit => ?_, fun hcap => ?_⟩
    · obtain ⟨t, hexec, hsucc, hwrote, hbitlen, htables⟩ := ready_writes_output hready
        (bdecBody_eq_ok.2 ⟨out, hdecode, hfit, rfl⟩)
      exact ⟨t, hexec, hsucc, hwrote, htables, hbitlen⟩
    · exact ready_completes_error hready (bind_fitOutput_eq_capacity hdecode hcap)
  · exact hraise (except_bind_eq_error.2 (.inr ⟨bits, hbits, he⟩))

end Sys2Proof.Machine
end

section
/-!
SUPPORT. The tree codec (43_tree_codec.md): the serialized form, what `des` accepts, which is exactly the
serialized trees within the capacity, and what it refuses at each point of the stream.
-/

namespace Sys2Proof.Machine

/-! ### The serialized form -/

/-- The symbol field of a leaf is the symbol and three zero bytes (R221). -/
theorem u32le_zeroExtend_byte (b : Byte) : u32le (b.zeroExtend 32) = [b, 0x00, 0x00, 0x00] := by
  have hlow : (b.zeroExtend 32).extractLsb' 0 8 = b := by
    apply BitVec.eq_of_getLsbD_eq
    intro i hi
    simp [hi, show i < 32 by omega]
  have hhigh : ∀ k, 8 ≤ k → (b.zeroExtend 32).extractLsb' k 8 = 0x00 := fun k hk => by
    apply BitVec.eq_of_getLsbD_eq
    intro i hi
    simp [hi, BitVec.getLsbD_of_ge b (k + i) (by omega)]
  rw [u32le, hlow, hhigh 8 le_rfl, hhigh 16 (by decide), hhigh 24 (by decide)]

theorem serNode_leaf (b : Byte) (f : Word) :
    serNode (.leaf b f) = 0x01 :: (u32le (b.zeroExtend 32) ++ u32le f) := rfl

theorem serNode_internal (f : Word) (l r : Node) :
    serNode (.internal f l r) = 0x00 :: (serNode l ++ serNode r) := rfl

/-- Nine bytes for each leaf, one for each internal node, of which a tree has one less than leaves (R221). -/
theorem serNode_length_add_one (t : Node) : (serNode t).length + 1 = 10 * t.leafCount := by
  induction t with
  | leaf b f => rfl
  | internal f l r ihl ihr =>
    simp only [serNode_internal, Node.leafCount, List.length_cons, List.length_append]
    omega

theorem serNode_ne_nil (t : Node) : serNode t ≠ [] := by
  cases t <;> exact List.cons_ne_nil _ _

/-- Settles O36: the symbol field of a leaf is three zero bytes above the symbol, and the length is an induction
on the tree. -/
theorem serializedTreeFormat : Obligations.SerializedTreeFormat := by
  refine ⟨rfl, fun b f => ?_, fun f l r => serNode_internal f l r, fun T => ?_⟩
  · exact (serNode_leaf b f).trans (by rw [u32le_zeroExtend_byte]; rfl)
  · exact Nat.eq_sub_of_add_eq (serNode_length_add_one T)

/-! ### `node()` of `des`, case by case -/

/-- The end of the bytes is no node (R231). -/
theorem desNode_nil (cap fuel cnt : Nat) : desNode cap fuel cnt [] = .error .malformedTree := by
  cases fuel <;> rfl

theorem desNode_of_badTag {cap fuel cnt : Nat} {tag : Byte} {bs : List Byte} (h : 0x01 < tag.toNat) :
    desNode cap (fuel + 1) cnt (tag :: bs) = .error .malformedTree := if_pos h

/-- A legal tag is refused when the arena is full (R231, R236). -/
theorem desNode_of_full {cap fuel : Nat} {tag : Byte} {bs : List Byte} (h : tag.toNat ≤ 0x01) :
    desNode cap (fuel + 1) cap (tag :: bs) = .error .capacity :=
  (if_neg (Nat.not_lt.2 h)).trans (if_pos rfl)

/-- A leaf whose fields are refused is refused with their error (R231, R235). -/
theorem desNode_of_desLeaf_error {cap fuel cnt : Nat} {bs : List Byte} {e : CmdError} (hc : cnt ≠ cap)
    (h : desLeaf bs = .error e) : desNode cap (fuel + 1) cnt (0x01 :: bs) = .error e := by
  unfold desNode
  rw [if_neg (by decide), if_neg hc, if_pos rfl, h, except_bind_error]

/-- An internal node within the capacity is refused where its left or, after that, its right subtree is. -/
theorem desNode_internal_eq_error {cap fuel cnt : Nat} {bs : List Byte} {e : CmdError} (hc : cnt ≠ cap) :
    desNode cap (fuel + 1) cnt (0x00 :: bs) = .error e ↔
      desNode cap fuel (cnt + 1) bs = .error e
      ∨ ∃ l cntL restL, desNode cap fuel (cnt + 1) bs = .ok (l, cntL, restL)
          ∧ desNode cap fuel cntL restL = .error e := by
  conv_lhs => unfold desNode
  rw [if_neg (by decide), if_neg hc, if_neg (by decide)]
  simp [except_bind_eq_error, Prod.exists]

/-- What `node()` accepts: a leaf's tag and fields, or an internal tag and two subtrees (R231, R232). -/
theorem desNode_cons_ok {cap fuel cnt cnt' : Nat} {tag : Byte} {bs rest : List Byte} {t : Node}
    (h : desNode cap (fuel + 1) cnt (tag :: bs) = .ok (t, cnt', rest)) :
    (tag = 0x01 ∧ desLeaf bs = .ok t ∧ rest = bs.drop 8)
    ∨ ∃ l cntL restL r, tag = 0x00 ∧ desNode cap fuel (cnt + 1) bs = .ok (l, cntL, restL)
        ∧ desNode cap fuel cntL restL = .ok (r, cnt', rest) ∧ t = .internal (l.freq + r.freq) l r := by
  unfold desNode at h
  split_ifs at h with htag hfull hleaf
  · obtain ⟨leaf, hdes, h⟩ := except_bind_eq_ok.1 h
    cases h
    exact .inl ⟨hleaf, hdes, rfl⟩
  · obtain ⟨⟨l, cntL, restL⟩, hl, h⟩ := except_bind_eq_ok.1 h
    obtain ⟨⟨r, cntR, restR⟩, hr, h⟩ := except_bind_eq_ok.1 h
    cases h
    have hzero : tag = 0x00 := BitVec.eq_of_toNat_eq <| by
      have hne : tag.toNat ≠ 1 := fun h => hleaf (BitVec.eq_of_toNat_eq h)
      change tag.toNat = 0
      omega
    exact .inr ⟨l, cntL, restL, r, hzero, hl, hr, rfl⟩

/-! ### What `des` accepts -/

/-- Four bytes in little-endian order are the form of the word they make (R17, R73). -/
theorem u32le_rdU32le {bytes : List Byte} {a : Nat} (h : a + 4 ≤ bytes.length) :
    u32le (BitVec.ofNat 32 (rdU32le bytes a)) = (bytes.drop a).take 4 := by
  have htake : (bytes.drop a).take 4 =
      [byteAt bytes a, byteAt bytes (a + 1), byteAt bytes (a + 2), byteAt bytes (a + 3)] := by
    refine List.ext_getElem (by simp; omega) fun i hi _ => ?_
    have hi4 : i < 4 := by simp at hi; omega
    have hbyte : a + i < bytes.length := by omega
    rw [List.getElem_take, List.getElem_drop, List.getElem_eq_getD 0]
    interval_cases i <;> rfl
  have h0 := (byteAt bytes a).isLt
  have h1 := (byteAt bytes (a + 1)).isLt
  have h2 := (byteAt bytes (a + 2)).isLt
  have h3 := (byteAt bytes (a + 3)).isLt
  rw [htake]
  simp only [u32le, rdU32le, List.cons.injEq, ← BitVec.toNat_inj, BitVec.extractLsb'_toNat,
    BitVec.toNat_ofNat, Nat.shiftRight_eq_div_pow, and_true]
  omega

theorem zeroExtend_ofNat_byte {n : Nat} (h : n ≤ 0xFF) :
    (BitVec.ofNat 8 n).zeroExtend 32 = BitVec.ofNat 32 n := by
  apply BitVec.eq_of_toNat_eq
  simp
  omega

/-- The fields of an accepted leaf are the serialized ones (R231, R235). -/
theorem serNode_of_desLeaf {bs : List Byte} {t : Node} (h : desLeaf bs = .ok t) :
    serNode t ++ bs.drop 8 = 0x01 :: bs ∧ t.moduloSums := by
  unfold desLeaf at h
  split_ifs at h with hlen hsym
  cases h
  refine ⟨?_, trivial⟩
  rw [serNode_leaf, zeroExtend_ofNat_byte (Nat.not_lt.1 hsym), u32le_rdU32le (by omega),
    u32le_rdU32le (by omega), List.drop_zero, List.cons_append, List.append_assoc,
    ← List.drop_drop (i := 4) (j := 4), List.take_append_drop, List.take_append_drop]

/-- The bytes `node()` has read are those of the serialized node, and its internal frequencies are the sums
modulo 2^32 (R231, R232). -/
theorem serNode_of_desNode {cap fuel cnt cnt' : Nat} {bytes rest : List Byte} {t : Node}
    (h : desNode cap fuel cnt bytes = .ok (t, cnt', rest)) :
    serNode t ++ rest = bytes ∧ t.moduloSums := by
  induction fuel generalizing cnt bytes t cnt' rest with
  | zero => cases bytes <;> cases h
  | succ fuel ih =>
    cases bytes with
    | nil => cases h
    | cons tag bs =>
      rcases desNode_cons_ok h with ⟨rfl, hleaf, rfl⟩ | ⟨l, cntL, restL, r, rfl, hl, hr, rfl⟩
      · exact serNode_of_desLeaf hleaf
      · obtain ⟨hlbytes, hlsums⟩ := ih hl
        obtain ⟨hrbytes, hrsums⟩ := ih hr
        refine ⟨?_, rfl, hlsums, hrsums⟩
        rw [serNode_internal, List.cons_append, List.append_assoc, hrbytes, hlbytes]

theorem desTree_of_ne_nil {cap : Nat} {buf rest : List Byte} {t : Node} {cnt : Nat} (hne : buf ≠ [])
    (h : desNode cap buf.length 0 buf = .ok (t, cnt, rest)) :
    desTree cap buf = if rest = [] then .ok (some t) else .error .malformedTree := by
  unfold desTree
  rw [if_neg (mt List.length_eq_zero_iff.1 hne), h, except_bind_ok]
  cases rest <;> rfl

/-- The nodes of a serialized tree within the capacity are read back, whatever follows it. -/
theorem desTree_serNode_append {cap : Nat} {t : Node} (hcap : t.nodeCount ≤ cap) (rest : List Byte) :
    desTree cap (serNode t ++ rest) =
      if rest = [] then .ok (some (resum t)) else .error .malformedTree :=
  desTree_of_ne_nil (List.append_ne_nil_of_left_ne_nil (serNode_ne_nil t) rest)
    (desNode_serNode cap t _ 0 rest (by omega) le_rfl)

/-- What `des` accepts is the serialized form of the tree it gives, with sums modulo 2^32 (R231, R232). -/
theorem serTree_of_desTree {cap : Nat} {buf : List Byte} {T : Arena} (h : desTree cap buf = .ok T) :
    serTree T = buf ∧ T.moduloSums := by
  unfold desTree at h
  split at h
  · next hempty => cases h; exact ⟨(List.length_eq_zero_iff.1 hempty).symm, trivial⟩
  · obtain ⟨⟨t, cnt, rest⟩, hnode, h⟩ := except_bind_eq_ok.1 h
    obtain ⟨hbytes, hsums⟩ := serNode_of_desNode hnode
    dsimp only at h
    split at h
    · cases h
    · next hrest =>
      cases h
      rw [List.length_eq_zero_iff.1 (not_not.1 hrest), List.append_nil] at hbytes
      exact ⟨hbytes, hsums⟩

/-- `des` accepts exactly the serialized trees that fit the capacity and whose internal frequencies are the
sums modulo 2^32 (R231, R232, R237). -/
theorem desTree_eq_ok {cap : Nat} {buf : List Byte} {T : Arena} :
    desTree cap buf = .ok T ↔ serTree T = buf ∧ Arena.nodeCount T ≤ cap ∧ T.moduloSums := by
  refine ⟨fun h => ?_, fun ⟨hbytes, hcap, hsums⟩ => ?_⟩
  · obtain ⟨hbytes, hsums⟩ := serTree_of_desTree h
    exact ⟨hbytes, nodeCount_le_of_desTree h, hsums⟩
  · subst hbytes
    match T with
    | none => rfl
    | some t =>
      have h := desTree_serNode_append hcap []
      rwa [List.append_nil, if_pos rfl, resum_eq_self hsums] at h

/-! ### What `des` refuses -/

/-- A subtree of more nodes than the arena has room for is refused, whatever follows it (R236). -/
theorem desNode_serNode_eq_capacity {cap : Nat} (t : Node) {fuel cnt : Nat} {rest : List Byte}
    (hc : cnt ≤ cap) (hover : cap < cnt + t.nodeCount) (hf : (serNode t ++ rest).length ≤ fuel) :
    desNode cap fuel cnt (serNode t ++ rest) = .error .capacity := by
  induction t generalizing fuel cnt rest with
  | leaf b f =>
    obtain rfl : cnt = cap := by rw [Node.nodeCount] at hover; omega
    match fuel, hf with
    | fuel + 1, _ => exact desNode_of_full (by decide)
  | internal f l r ihl ihr =>
    match fuel, hf with
    | fuel + 1, hf =>
      simp only [serNode_internal, List.cons_append, List.append_assoc, List.length_cons,
        Nat.add_le_add_iff_right] at hf ⊢
      rw [Node.nodeCount] at hover
      by_cases hfull : cnt = cap
      · subst hfull
        exact desNode_of_full (by decide)
      · refine (desNode_internal_eq_error hfull).2 ?_
        by_cases hleft : cap < cnt + 1 + l.nodeCount
        · exact .inl (ihl (by omega) hleft hf)
        · have hread := desNode_serNode cap l fuel (cnt + 1) (serNode r ++ rest) (by omega) hf
          rw [List.length_append] at hf
          exact .inr ⟨_, _, _, hread, ihr (by omega) (by omega) (by omega)⟩

theorem desTree_of_desNode_error {cap : Nat} {buf : List Byte} {e : CmdError} (hne : buf ≠ [])
    (h : desNode cap buf.length 0 buf = .error e) : desTree cap buf = .error e := by
  unfold desTree
  rw [if_neg (mt List.length_eq_zero_iff.1 hne), h, except_bind_error]

/-- A refusal at the next tag of the stream is the refusal of the whole buffer (R231). -/
theorem desTree_error_at_tag {cap : Nat} {way : List (Option Node)} {tag : Byte} {bs : List Byte}
    {e : CmdError} (hway : nodesBefore way ≤ cap)
    (h : ∀ fuel, desNode cap (fuel + 1) (nodesBefore way) (tag :: bs) = .error e) :
    desTree cap (streamBefore way ++ tag :: bs) = .error e := by
  refine desTree_of_desNode_error (List.append_ne_nil_of_right_ne_nil _ (List.cons_ne_nil _ _)) ?_
  refine desNode_error_after cap e _ way _ 0 (fun fuel hf => ?_) (by omega) le_rfl
  match fuel, hf with
  | fuel + 1, _ => rw [Nat.zero_add]; exact h fuel

theorem streamBefore_ne_nil {way : List (Option Node)} (h : way ≠ []) : streamBefore way ≠ [] := by
  match way, h with
  | none :: way, _ => exact List.cons_ne_nil _ _
  | some l :: way, _ => exact List.cons_ne_nil _ _

/-- The end of the bytes where a node is due (R231). -/
theorem desTree_streamBefore {cap : Nat} {way : List (Option Node)} (hne : way ≠ [])
    (hway : nodesBefore way ≤ cap) : desTree cap (streamBefore way) = .error .malformedTree := by
  refine desTree_of_desNode_error (streamBefore_ne_nil hne) ?_
  have h := desNode_error_after cap .malformedTree [] way (streamBefore way).length 0
    (fun fuel _ => desNode_nil cap fuel _) (by omega) (by rw [List.append_nil])
  rwa [List.append_nil] at h

/-- A leaf cut short (R231). -/
theorem desLeaf_of_short {bs : List Byte} (h : bs.length < 8) : desLeaf bs = .error .malformedTree :=
  if_pos h

/-- A symbol field above 0xFF, cut short or not (R235). -/
theorem desLeaf_of_bigSymbol {sym : Word} (rest : List Byte) (h : 0xFF < sym.toNat) :
    desLeaf (u32le sym ++ rest) = .error .malformedTree := by
  unfold desLeaf
  rw [rdU32le_u32le, if_pos h, ite_self]

/-- Settles O39: behind a serialized subtree the parse stands at the next node, and an error there is the error
of the buffer. -/
theorem deserializeRefusals : Obligations.DeserializeRefusals := by
  refine ⟨fun cap T x xs hcap => ?_, fun cap T rest hover => ?_, fun cap way hway =>
    ⟨fun hne => desTree_streamBefore hne hway,
      fun tag rest htag => desTree_error_at_tag hway fun fuel => desNode_of_badTag htag,
      fun tag rest htag hfull => ?_,
      fun rest hroom hshort => ?_, fun sym rest hroom hsym => ?_⟩, fun cap buf e => desTree_error⟩
  · rw [desTree_serNode_append hcap, if_neg (List.cons_ne_nil x xs)]
  · exact desTree_of_desNode_error (List.append_ne_nil_of_left_ne_nil (serNode_ne_nil T) rest)
      (desNode_serNode_eq_capacity T (Nat.zero_le cap) (by omega) le_rfl)
  · subst hfull
    exact desTree_error_at_tag hway fun fuel => desNode_of_full htag
  · exact desTree_error_at_tag hway fun fuel => desNode_of_desLeaf_error hroom.ne (desLeaf_of_short hshort)
  · exact desTree_error_at_tag hway fun fuel =>
      desNode_of_desLeaf_error hroom.ne (desLeaf_of_bigSymbol rest hsym)

end Sys2Proof.Machine
end

section
/-!
SUPPORT. What TSER and TDES write and leave unchanged, and the trees the commands leave in ARENA, which `des`
reads back from their serialized form (R237).
-/

namespace Sys2Proof.Machine

/-! ### TSER and TDES -/

/-- Settles O37: the output of TSER is its one effect, and its fit the one check. -/
theorem tserWritesSerializedTree : Obligations.TserWritesSerializedTree := by
  refine fun v s hready => ⟨fun hfit => ?_, fun hcap => ?_⟩
  · obtain ⟨t, hexec, hsucc, hwrote, hbitlen, htables⟩ :=
      ready_writes_output hready (tserBody_eq_ok.2 ⟨hfit, rfl⟩)
    exact ⟨t, hexec, hsucc, hwrote, htables, hbitlen⟩
  · exact ready_completes_error hready (fitOutput_eq_error.2 ⟨hcap, rfl⟩)

/-- Settles O40: a serialized tree that fits is one `des` accepts, and TDES has no destination. -/
theorem tdesLoadsSerializedTree : Obligations.TdesLoadsSerializedTree := by
  refine fun v s hready => ⟨fun T hT => ?_, fun e he => ?_⟩
  · have hdes : desTree s.params.nodeCap s.src = .ok T := by
      rcases hT with ⟨hsrc, hcap, hsums⟩ | hdes
      · exact desTree_eq_ok.2 ⟨hsrc.symm, hcap, hsums⟩
      · exact hdes
    exact ⟨_, ready_exec_ok hready (tdesBody_eq_ok.2 ⟨T, hdes, rfl⟩), completeOk_succeeded _ _ s, rfl,
      Table.get_const none, rfl, rfl, completeOk_sameBuffer rfl _ s⟩
  · obtain ⟨hcompleted, htables, hregisters⟩ :=
      completeError_keeps (rowOf (.tdes v)) s.operands e s
    exact ⟨_, ready_exec_error hready (except_bind_eq_error.2 (.inl he)), hcompleted, htables, rfl, rfl,
      completeError_sameBuffer rfl _ _ s, hregisters⟩

/-! ### The trees commands leave in ARENA -/

/-- A built tree is read back from its serialized form where NODE_CAP is legal (R12, R143). -/
theorem desTree_serTree_of_buildTree {cap : Nat} {F : Table Word} {t : Node} (hcap : 511 ≤ cap)
    (h : buildTree F = .ok t) : desTree cap (serTree (some t)) = .ok (some t) :=
  desTree_eq_ok.2 ⟨rfl, (nodeCount_le_of_buildTree h).trans hcap, moduloSums_of_buildTree h⟩

/-- A parsed tree is read back from its serialized form. -/
theorem desTree_serTree_of_desTree {cap : Nat} {buf : List Byte} {T : Arena}
    (h : desTree cap buf = .ok T) : desTree cap (serTree T) = .ok T := by
  rwa [(serTree_of_desTree h).1]

/-- The tree of a container is one that `des` accepted (R260). -/
theorem exists_desTree_of_readContainer {cap : Nat} {src out : List Byte} {T : Arena} {B : Nat}
    (h : readContainer cap src = .ok (T, B, out)) : ∃ buf, desTree cap buf = .ok T := by
  unfold readContainer at h
  split_ifs at h
  obtain ⟨T', hT, h⟩ := except_bind_eq_ok.1 h
  obtain ⟨out', -, h⟩ := except_bind_eq_ok.1 h
  cases h
  exact ⟨_, hT⟩

/-- The commands with these opcodes write ARENA (R104), and the tree they write is read back from its
serialized form. -/
theorem bodyOf_arena_roundTrips {i : Instr} {P : Pending} {s : State} {fx : Effects}
    (hi : i.opcode ∈ [0x02, 0x05, 0x0A, 0x0B]) (hcap : 511 ≤ s.params.nodeCap)
    (h : bodyOf i P s = .ok fx) :
    ∃ T, fx.arena = some T ∧ desTree s.params.nodeCap (serTree T) = .ok T := by
  cases i with
  | tbuild =>
    obtain ⟨T, hT, rfl⟩ := (tbuildBody_eq_ok (P := P)).1 h
    exact ⟨_, rfl, desTree_serTree_of_buildTree hcap hT⟩
  | tdes =>
    obtain ⟨T, hT, rfl⟩ := tdesBody_eq_ok.1 h
    exact ⟨_, rfl, desTree_serTree_of_desTree hT⟩
  | cenc =>
    obtain ⟨-, F, -, T, hT, bits, -, -, rfl⟩ := cencBody_eq_ok.1 h
    exact ⟨_, rfl, desTree_serTree_of_buildTree hcap hT⟩
  | cdec =>
    obtain ⟨T, B, out, hread, -, rfl⟩ := cdecBody_eq_ok.1 h
    obtain ⟨buf, hT⟩ := exists_desTree_of_readContainer hread
    exact ⟨_, rfl, desTree_serTree_of_desTree hT⟩
  | _ => simp [Instr.opcode] at hi

/-- A command that completes without error, its record not corrupted, has succeeded in its own pseudocode
(R302). -/
theorem exec_success {i : Instr} {s t : State} (hc : s.operands.corrupt = false)
    (ht : exec i s = .next t) (herr : t.errcode = none) :
    ∃ fx, bodyOf i s.operands s = .ok fx ∧ t = s.completeOk s.operands fx := by
  rw [exec_eq_next] at ht
  cases ht
  rcases completion_cases (rowOf i) (bodyOf i) s with ⟨hcorrupt, -⟩ | ⟨e, -, -, h⟩ | ⟨fx, -, hfx, h⟩
  · simp [hc] at hcorrupt
  · simp [h] at herr
  · exact ⟨fx, (commandResult_eq_ok.1 hfx).2, h⟩

/-- Settles O38: what `node()` reads is the serialized form of what it returns, and conversely; and built and
parsed trees fit NODE_CAP with sums modulo 2^32. -/
theorem deserializeInvertsSerialize : Obligations.DeserializeInvertsSerialize := by
  refine ⟨fun cap buf T => desTree_eq_ok, fun i s t hi hcap hc ht herr => ?_⟩
  obtain ⟨fx, hfx, rfl⟩ := exec_success hc ht herr
  obtain ⟨T, harena, hT⟩ := bodyOf_arena_roundTrips hi hcap hfx
  rwa [State.completeOk_arena, harena]

end Sys2Proof.Machine
end

section
/-!
SUPPORT. CENC's encoding and its inverse (44_container.md R250, R262): counting, building and encoding a source
cannot fail but for the bit count, and the encoded bits decode to the source.
-/

namespace Sys2Proof.Machine

/-! ### Every source byte has a code -/

/-- The counts of a list of all symbols, each once, add up to the length. -/
theorem sum_counts_eq_length {l : List Byte} (hnodup : l.Nodup) (hall : ∀ b, b ∈ l) (src : List Byte) :
    (l.map fun b => src.count b).sum = src.length := by
  rw [← List.sum_toFinset _ hnodup]
  simpa only [Multiset.coe_count, Multiset.coe_card] using
    Multiset.sum_count_eq_card (m := (src : Multiset Byte)) fun b _ => List.mem_toFinset.2 (hall b)

/-- The counts of a source of at most 2^32 - 1 bytes are exact (R131). -/
theorem exists_countSymbols_eq_ok {src : List Byte} (hne : src ≠ []) (hlen : src.length < 2 ^ 32) :
    ∃ F, countSymbols src = .ok F ∧ ∀ b, (F.get b).toNat = src.count b := by
  refine ⟨_, countSymbols_of_ne_nil hne, fun b => ?_⟩
  rw [Table.get_ofFun]
  exact Nat.mod_eq_of_lt (List.count_le_length.trans_lt hlen)

/-- Each leaf has its path. -/
theorem paths_map_fst (t : Node) : t.paths.map Prod.fst = t.leaves.map Prod.fst := by
  induction t with
  | leaf => rfl
  | internal f l r ihl ihr =>
    simp only [Node.paths, Node.leaves, List.map_append, List.map_map, ← ihl, ← ihr]
    rfl

/-- A symbol with a leaf has a last one (R164). -/
theorem exists_lastPath {t : Node} {b : Byte} (h : b ∈ t.leaves.map Prod.fst) :
    ∃ q, lastPath t b = some q := by
  rw [← paths_map_fst] at h
  obtain ⟨p, hp, rfl⟩ := List.mem_map.1 h
  have hmem : p ∈ t.paths.filter fun e => decide (e.1 = p.1) :=
    List.mem_filter.2 ⟨hp, decide_eq_true rfl⟩
  exact ⟨_, by rw [lastPath, List.getLast?_eq_some_getLast (List.ne_nil_of_mem hmem), Option.map_some]⟩

/-- A symbol with a leaf has a code (R161, R162). -/
theorem exists_code_of_mem_leaves {t : Node} {b : Byte} (h : b ∈ t.leaves.map Prod.fst) :
    ∃ c, (codesOf (some t)).get b = some c := by
  cases t with
  | leaf s f =>
    obtain rfl : b = s := by simpa [Node.leaves] using h
    exact ⟨_, (codesOf_leaf_get b f b).trans (if_pos rfl)⟩
  | internal f l r =>
    rw [codesOf_internal_get]
    exact exists_lastPath h

/-- The symbols of a built tree's leaves are the present ones, each once (R143). -/
theorem symbols_perm_of_buildTree {F : Table Word} {t : Node} (h : buildTree F = .ok t) :
    (t.leaves.map Prod.fst).Perm (presentSymbols F) := by
  simpa [Function.comp_def] using (leaves_perm_of_buildTree h).map Prod.fst

/-- Codes for all source bytes leave the bit count as the one thing that can be refused (R191). -/
theorem encodeBits_ok_or_capacity {C : Table (Option Bits)} {src : List Byte}
    (h : ∀ b ∈ src, ∃ c, C.get b = some c) :
    (∃ bits, encodeBits C src = .ok bits) ∨ encodeBits C src = .error .capacity := by
  have hcodes : codeBits C src = .ok (src.flatMap fun b => (C.get b).getD []) :=
    codeBits_eq_ok fun b hb => by
      obtain ⟨c, hc⟩ := h b hb
      rw [hc, Option.getD_some]
  rcases Nat.lt_or_ge (2 ^ 32 - 1) (src.flatMap fun b => (C.get b).getD []).length with hcount | hcount
  · exact .inr (encodeBits_eq_capacity hcodes hcount)
  · exact .inl ⟨_, encodeBits_eq_ok hcodes hcount⟩

/-- Settles O50: a byte of the source is present, the counts add up to the length, which is below 2^32, and
the leaves of the tree are the source's symbols. -/
theorem cencEncodesEverySource : Obligations.CencEncodesEverySource := by
  intro src hne hlen
  obtain ⟨F, hF, hcount⟩ := exists_countSymbols_eq_ok hne hlen
  have hpresent : ∀ b ∈ src, F.get b ≠ 0 := fun b hb hzero => by
    have hpos := List.count_pos_iff.2 hb
    rw [← hcount b, hzero] at hpos
    exact absurd hpos (by decide)
  obtain ⟨b, hb⟩ := List.exists_mem_of_ne_nil src hne
  obtain ⟨T, hT⟩ := exists_buildTree_eq_ok (hpresent b hb)
  have hsymbols := symbols_perm_of_buildTree hT
  have hsum : leafSum T = src.length := by
    simp only [leafSum_of_buildTree hT, hcount, sum_counts_eq_length symbols_nodup mem_symbols]
  obtain ⟨hexact, hroot⟩ := exactSums_of_leafSum_lt (moduloSums_of_buildTree hT) (hsum ▸ hlen)
  have hcodes : ∀ b ∈ src, ∃ c, (codesOf (some T)).get b = some c := fun b hb =>
    exists_code_of_mem_leaves (hsymbols.mem_iff.2 (mem_presentSymbols.2 (hpresent b hb)))
  exact ⟨F, T, hF, hcount, hT, hexact, hsymbols.nodup_iff.2 (presentSymbols_nodup F), hroot.trans hsum,
    hcodes, encodeBits_ok_or_capacity hcodes⟩

/-! ### Encoded bits decode to the source -/

/-- Encoded bits are the codes of the source bytes, one after the other (R191). -/
theorem exists_codes_of_codeBits {C : Table (Option Bits)} {src : List Byte} {bits : Bits}
    (h : codeBits C src = .ok bits) : ∃ ps : List (Byte × Bits),
      (∀ p ∈ ps, C.get p.1 = some p.2) ∧ ps.flatMap Prod.snd = bits ∧ ps.map Prod.fst = src := by
  induction src generalizing bits with
  | nil => cases h; exact ⟨[], by simp, rfl, rfl⟩
  | cons b bs ih =>
    unfold codeBits at h
    split at h
    · cases h
    · next c hc =>
      obtain ⟨rest, hrest, h⟩ := except_bind_eq_ok.1 h
      cases h
      obtain ⟨ps, hps, rfl, rfl⟩ := ih hrest
      exact ⟨(b, c) :: ps, List.forall_mem_cons.2 ⟨hc, hps⟩, rfl, rfl⟩

theorem codeBits_of_encodeBits {C : Table (Option Bits)} {src : List Byte} {bits : Bits}
    (h : encodeBits C src = .ok bits) : codeBits C src = .ok bits ∧ bits.length < 2 ^ 32 := by
  obtain ⟨bits', hcodes, h⟩ := except_bind_eq_ok.1 h
  split at h
  · cases h
  · next hcount =>
    cases h
    exact ⟨hcodes, by omega⟩

/-- The decode walk over a tree reads back what its codes encode: a code is the path of a leaf of its symbol,
and a single leaf has the one code 0 (R162, R202, R205). -/
theorem decodeTree_of_codeBits {t : Node} {src : List Byte} {bits : Bits}
    (h : codeBits (codesOf (some t)) src = .ok bits) : decodeTree (some t) bits = .ok src := by
  obtain ⟨ps, hps, rfl, rfl⟩ := exists_codes_of_codeBits h
  cases t with
  | leaf s f =>
    have hall : ∀ p ∈ ps, p = (s, [false]) := fun p hp => by
      have hcode := hps p hp
      rw [codesOf_leaf_get] at hcode
      split at hcode
      · next hs => exact Prod.ext hs (Option.some.inj hcode).symm
      · cases hcode
    rw [List.eq_replicate_iff.2 ⟨rfl, hall⟩]
    simp [decodeTree]
  | internal f l r =>
    refine walkBits_atRoot_eq_ok.2 ⟨ps, fun p hp => ?_, rfl, rfl⟩
    have hcode := hps p hp
    rw [codesOf_internal_get] at hcode
    exact mem_paths_of_lastPath hcode

end Sys2Proof.Machine
end

section
/-!
SUPPORT. The container (44_container.md): its layout and the parse that inverts it, what CENC and CDEC write,
the round trip, and that neither depends on the tables.
-/

namespace Sys2Proof.Machine

/-! ### The layout -/

theorem containerOf_length (treeBytes : List Byte) (bits : Bits) :
    (containerOf treeBytes bits).length = 8 + treeBytes.length + (bits.length + 7) / 8 := by
  simp only [containerOf, List.length_append, u32le_length, pack_length]
  omega

theorem rdU32le_lt (bytes : List Byte) (a : Nat) : rdU32le bytes a < 2 ^ 32 := by
  have h0 := (byteAt bytes a).isLt
  have h1 := (byteAt bytes (a + 1)).isLt
  have h2 := (byteAt bytes (a + 2)).isLt
  have h3 := (byteAt bytes (a + 3)).isLt
  unfold rdU32le
  omega

theorem byteAt_append_length_add (front rest : List Byte) (i : Nat) :
    byteAt (front ++ rest) (front.length + i) = byteAt rest i := by
  rw [byteAt, List.getD_append_right _ _ _ _ (Nat.le_add_right _ _), Nat.add_sub_cancel_left, byteAt]

/-- A field behind other bytes reads as if it stood first (R17). -/
theorem rdU32le_append_length (front rest : List Byte) :
    rdU32le (front ++ rest) front.length = rdU32le rest 0 := by
  have hfirst : byteAt (front ++ rest) front.length = byteAt rest 0 := byteAt_append_length_add front rest 0
  simp only [rdU32le, hfirst, byteAt_append_length_add, Nat.zero_add]

theorem rdU32le_u32le_ofNat {n : Nat} (h : n < 2 ^ 32) (rest : List Byte) :
    rdU32le (u32le (BitVec.ofNat 32 n) ++ rest) 0 = n :=
  (rdU32le_u32le _ rest).trans (Nat.mod_eq_of_lt h)

/-! ### The parse -/

theorem readContainer_of_truncated {cap : Nat} {src : List Byte} (h : src.length < 8) :
    readContainer cap src = .error .truncatedHeader := if_pos h

theorem readContainer_of_inconsistent {cap : Nat} {src : List Byte} (h : 8 ≤ src.length)
    (hlen : src.length < rdU32le src 0 + 8) : readContainer cap src = .error .inconsistentLength :=
  (if_neg (Nat.not_lt.2 h)).trans (if_pos hlen)

/-- Behind the header checks: `des` on the tree slice, then `decode` on the rest of the source (R260, R261). -/
theorem readContainer_of_le {cap : Nat} {src : List Byte} (h : rdU32le src 0 + 8 ≤ src.length) :
    readContainer cap src =
      (desTree cap (byteSlice src 4 (4 + rdU32le src 0)) >>= fun T =>
        decodePayload T (src.drop (8 + rdU32le src 0)) (rdU32le src (4 + rdU32le src 0)) >>= fun out =>
          .ok (T, rdU32le src (4 + rdU32le src 0), out)) := by
  unfold readContainer
  rw [if_neg (by omega), if_neg (by omega)]
  simp only [byteSlice, List.take_length]

/-- A container parses into the tree of its tree bytes and the content of its bits (R251, R260). -/
theorem readContainer_containerOf {cap : Nat} {treeBytes out : List Byte} {T : Arena} {bits : Bits}
    (htree : treeBytes.length < 2 ^ 32) (hbits : bits.length < 2 ^ 32)
    (hdes : desTree cap treeBytes = .ok T) (hdecode : decodeTree T bits = .ok out) :
    readContainer cap (containerOf treeBytes bits) = .ok (T, bits.length, out) := by
  have hL : rdU32le (containerOf treeBytes bits) 0 = treeBytes.length := by
    rw [containerOf, List.append_assoc, List.append_assoc, rdU32le_u32le_ofNat htree]
  have hfront : (u32le (BitVec.ofNat 32 treeBytes.length) ++ treeBytes).length = 4 + treeBytes.length := by
    rw [List.length_append, u32le_length]
  have hB : rdU32le (containerOf treeBytes bits) (4 + treeBytes.length) = bits.length := by
    rw [containerOf, List.append_assoc (_ ++ _), ← hfront, rdU32le_append_length, rdU32le_u32le_ofNat hbits]
  have hslice : byteSlice (containerOf treeBytes bits) 4 (4 + treeBytes.length) = treeBytes := by
    rw [byteSlice, containerOf, List.append_assoc (_ ++ _), List.take_left' hfront,
      List.drop_left' (u32le_length _)]
  have hrest : (containerOf treeBytes bits).drop (8 + treeBytes.length) = pack bits := by
    refine List.drop_left' ?_
    rw [List.length_append, hfront, u32le_length]
    omega
  have hunpack := unpackInvertsPack bits []
  rw [List.append_nil] at hunpack
  rw [readContainer_of_le (by rw [hL, containerOf_length]; omega), hL, hB, hslice, hrest, hdes,
    except_bind_ok, decodePayload, hunpack, except_bind_ok, hdecode, except_bind_ok]

/-! ### CENC -/

/-- What CENC writes: the container and the tables it was made with (R250). -/
def cencEffects (F : Table Word) (T : Node) (bits : Bits) : Effects :=
  { out := containerOf (serNode T) bits, freq := some F, arena := some (some T)
    code := some (codesOf (some T)), bitlen := some (BitVec.ofNat 32 bits.length) }

/-- Behind the count and the tree, CENC encodes and then checks that the container fits (R250). -/
theorem cencBody_of_buildTree {P : Pending} {s : State} {F : Table Word} {T : Node}
    (hlen : P.srcLen.toNat ≠ 0) (hF : countSymbols (s.sourceBytes P) = .ok F) (hT : buildTree F = .ok T) :
    cencBody P s = encodeBits (codesOf (some T)) (s.sourceBytes P) >>= fun bits =>
      fitOutput P (cencEffects F T bits) := by
  unfold cencBody
  rw [if_neg hlen, hF, except_bind_ok, hT, except_bind_ok]
  rfl

/-- Settles O49: the length of the container is `containerOf_length`, and the bit count fits BITLEN when it is
not refused. -/
theorem cencWritesContainer : Obligations.CencWritesContainer := by
  intro v s hready
  refine ⟨fun hempty => ready_completes_error hready (if_pos hempty), fun hlen F T hF hT => ?_⟩
  have hbody := cencBody_of_buildTree (P := s.operands) hlen.ne' hF hT
  refine ⟨fun hcount => ready_completes_error hready
    (hbody.trans (except_bind_eq_error.2 (.inl hcount))), fun bits hbits => ?_⟩
  rw [← containerOf_length]
  refine ⟨fun hfit => ?_, fun hcap => ready_completes_error hready
    (hbody.trans (bind_fitOutput_eq_capacity hbits hcap))⟩
  have hok : cencBody s.operands s = .ok (cencEffects F T bits) :=
    hbody.trans (except_bind_eq_ok.2 ⟨bits, hbits, fitOutput_eq_ok.2 ⟨hfit, rfl⟩⟩)
  exact ⟨_, ready_exec_ok hready hok, completeOk_succeeded _ _ s,
    completeOk_wroteBytes s.operands (cencEffects F T bits) s, rfl, rfl, rfl,
    Nat.mod_eq_of_lt (codeBits_of_encodeBits hbits).2⟩

/-! ### CDEC -/

/-- What CDEC writes: the content, the container's tree and bit length, and no code (R260). -/
def cdecEffects (T : Arena) (B : Nat) (out : List Byte) : Effects :=
  { out := out, arena := some T, code := some (Table.const none), bitlen := some (BitVec.ofNat 32 B) }

/-- CDEC of a container whose content fits DST_CAP (R260). -/
theorem exec_cdec_ok {v : Bool} {s : State} {T : Arena} {B : Nat} {out : List Byte} (hready : Ready (.cdec v) s)
    (hread : readContainer s.params.nodeCap s.src = .ok (T, B, out))
    (hfit : out.length ≤ s.operands.dstCap.toNat) :
    exec (.cdec v) s = .next (s.completeOk s.operands (cdecEffects T B out)) :=
  ready_exec_ok hready (cdecBody_eq_ok.2 ⟨T, B, out, hread, hfit, rfl⟩)

/-- An error of the parse is CDEC's error (R260, R261). -/
theorem cdec_completes_error {v : Bool} {s : State} {e : CmdError} (hready : Ready (.cdec v) s)
    (he : readContainer s.params.nodeCap s.src = .error e) :
    ∃ t, exec (.cdec v) s = .next t ∧ Completed (some e) t :=
  ready_completes_error hready (except_bind_eq_error.2 (.inl he))

/-- Settles O51: the clauses are those of the parse, and a bit length of four bytes fits BITLEN. -/
theorem cdecReadsContainer : Obligations.CdecReadsContainer := by
  intro v s hready
  rw [← src_length s]
  refine ⟨fun hshort => cdec_completes_error hready (readContainer_of_truncated hshort),
    fun hheader hlen => cdec_completes_error hready (readContainer_of_inconsistent hheader hlen),
    fun hlen => ?_⟩
  have hread := readContainer_of_le (cap := s.params.nodeCap) hlen
  refine ⟨fun e he => cdec_completes_error hready (hread.trans (except_bind_eq_error.2 (.inl he))),
    fun T hT => ?_⟩
  rw [hT, except_bind_ok] at hread
  refine ⟨fun e he => cdec_completes_error hready (hread.trans (except_bind_eq_error.2 (.inl he))),
    fun out hout => ?_⟩
  rw [hout, except_bind_ok] at hread
  refine ⟨fun hfit => ⟨_, exec_cdec_ok hready hread hfit, completeOk_succeeded _ _ s,
      completeOk_wroteBytes s.operands (cdecEffects ..) s, rfl, Table.get_const none,
      Nat.mod_eq_of_lt (rdU32le_lt _ _), rfl⟩, fun hcap => ready_completes_error hready ?_⟩
  exact bind_fitOutput_eq_capacity (fx := fun r => cdecEffects r.1 r.2.1 r.2.2) hread hcap

/-! ### The round trip -/

/-- Bytes that were written read back (R19). -/
theorem memRead_of_wroteBytes {s t : State} {a : Nat} {out : List Byte} (h : WroteBytes a out s t) :
    t.memRead a out.length = out := by
  refine List.ext_getElem (by simp) fun j hj hout => ?_
  simp only [State.memRead, List.getElem_map, List.getElem_range', Nat.one_mul]
  rw [h.1 j hout, byteAt, List.getD_eq_getElem _ _ hout]

/-- RESULT_LEN bytes from DST_ADDR on are the output of a successful command (R44, R87). -/
theorem memRead_output {i : Instr} {P : Pending} {s : State} {fx : Effects} (h : bodyOf i P s = .ok fx) :
    (s.completeOk P fx).memRead P.dst.addr (s.completeOk P fx).resultLen.toNat = fx.out := by
  have hlen : fx.out.length < 2 ^ 32 := by
    rcases bodyOf_output h with hnil | ⟨-, hfit⟩
    · simp [hnil]
    · exact hfit.trans_lt P.dstCap.isLt
  rw [State.completeOk_resultLen, BitVec.toNat_ofNat, Nat.mod_eq_of_lt hlen]
  exact memRead_of_wroteBytes (completeOk_wroteBytes P fx s)

/-- Settles O52: the container CENC wrote parses into the tree it built, and the bits encoded with the codes of
that tree decode to the content. -/
theorem cdecInvertsCenc : Obligations.CdecInvertsCenc := by
  intro v v' s t u hs ht herr hu hsrc hcap hfit
  obtain ⟨fx, hfx, rfl⟩ := exec_success hs.1 ht herr
  rw [memRead_output hfx] at hsrc
  obtain ⟨-, F, -, T, hT, bits, hbits, hlen, rfl⟩ := cencBody_eq_ok.1 hfx
  obtain ⟨hcodes, hcount⟩ := codeBits_of_encodeBits hbits
  have htree : (serNode T).length < 2 ^ 32 := by
    have hdst := s.operands.dstCap.isLt
    rw [containerOf_length] at hlen
    omega
  have hread : readContainer u.params.nodeCap u.src = .ok (some T, bits.length, s.src) := by
    rw [hsrc]
    exact readContainer_containerOf htree hcount (desTree_serTree_of_buildTree hcap hT)
      (decodeTree_of_codeBits hcodes)
  exact ⟨_, exec_cdec_ok hu hread hfit, completeOk_succeeded _ _ u,
    completeOk_wroteBytes u.operands (cdecEffects ..) u, rfl, rfl⟩

/-! ### Statelessness -/

/-- CENC's pseudocode reads the source and DST_CAP alone (R253). -/
theorem cencBody_congr {s u : State} (hsrc : s.src = u.src) (hcap : s.operands.dstCap = u.operands.dstCap) :
    cencBody s.operands s = cencBody u.operands u := by
  have hlen : s.operands.srcLen.toNat = u.operands.srcLen.toNat :=
    (src_length s).symm.trans ((congrArg List.length hsrc).trans (src_length u))
  have hbytes : s.sourceBytes s.operands = u.sourceBytes u.operands := hsrc
  simp only [cencBody, fitOutput, hlen, hbytes, hcap]

/-- CDEC's pseudocode reads the source, DST_CAP and NODE_CAP alone (R253). -/
theorem cdecBody_congr {s u : State} (hsrc : s.src = u.src) (hcap : s.operands.dstCap = u.operands.dstCap)
    (hnodes : s.params.nodeCap = u.params.nodeCap) : cdecBody s.operands s = cdecBody u.operands u := by
  have hbytes : s.sourceBytes s.operands = u.sourceBytes u.operands := hsrc
  simp only [cdecBody, fitOutput, hbytes, hcap, hnodes]

/-- Commands of the same result, in whatever states they run, report the same error or write the same bytes and
the same RESULT_LEN, and the same BITLEN where they write it. -/
theorem completions_agree {i i' : Instr} {s u t t' : State} (hs : Ready i s) (hu : Ready i' u)
    (hbody : bodyOf i s.operands s = bodyOf i' u.operands u)
    (hbitlen : ∀ fx, bodyOf i s.operands s = .ok fx → fx.bitlen ≠ none)
    (ht : exec i s = .next t) (ht' : exec i' u = .next t') :
    t.errcode = t'.errcode
      ∧ (t.errcode = none → t.bitlen = t'.bitlen ∧ t.resultLen = t'.resultLen
        ∧ t.memRead s.operands.dst.addr t.resultLen.toNat
            = t'.memRead u.operands.dst.addr t'.resultLen.toNat) := by
  cases hfx : bodyOf i s.operands s with
  | error e =>
    rw [ready_exec_error hs hfx] at ht
    rw [ready_exec_error hu (hbody ▸ hfx)] at ht'
    cases ht; cases ht'
    exact ⟨rfl, nofun⟩
  | ok fx =>
    have hfx' : bodyOf i' u.operands u = .ok fx := hbody ▸ hfx
    rw [ready_exec_ok hs hfx] at ht
    rw [ready_exec_ok hu hfx'] at ht'
    cases ht; cases ht'
    obtain ⟨n, hn⟩ := Option.ne_none_iff_exists'.1 (hbitlen fx hfx)
    refine ⟨rfl, fun _ => ⟨?_, rfl, ?_⟩⟩
    · simp only [State.completeOk_bitlen, hn, Option.getD_some]
    · rw [memRead_output hfx, memRead_output hfx']

/-- Settles O53: both pseudocodes are functions of the source bytes, DST_CAP and NODE_CAP, and a success of either
writes BITLEN. -/
theorem containerCommandsAreStateless : Obligations.ContainerCommandsAreStateless := by
  rintro v v' s u t t' hsrc hcap hnodes (⟨hs, hu, ht, ht'⟩ | ⟨hs, hu, ht, ht'⟩)
  · refine completions_agree hs hu (cencBody_congr hsrc hcap) (fun fx hfx => ?_) ht ht'
    obtain ⟨-, F, -, T, -, bits, -, -, rfl⟩ := cencBody_eq_ok.1 hfx
    exact Option.some_ne_none _
  · refine completions_agree hs hu (cdecBody_congr hsrc hcap hnodes) (fun fx hfx => ?_) ht ht'
    obtain ⟨T, B, out, -, -, rfl⟩ := cdecBody_eq_ok.1 hfx
    exact Option.some_ne_none _

end Sys2Proof.Machine
end

section
/-!
SUPPORT. The control command NOP and the illegal command word: how each completes, and the statements about
them.
-/

namespace Sys2Proof.Machine

/-! ### NOP -/

/-- STATUS after a success has DONE alone (R37, R302). -/
theorem statusWord_of_completed_ok {t : State} (h : Completed none t) : t.statusWord = 0x00000002 := by
  obtain ⟨hbusy, hdone, herr⟩ := h
  simp [State.statusWord, State.err, hbusy, hdone, herr]

/-- IRQ after a completion is CTRL.IE (R56, R310). -/
theorem irq_of_completed {e : Option CmdError} {t : State} (h : Completed e t) : t.irq = t.ie := by
  obtain ⟨-, hdone, -⟩ := h
  rw [State.irq_eq, hdone, Bool.and_true]

/-- NOP uses no range, so no common check can refuse it (R280, R306). -/
theorem nop_ready (v : Bool) {s : State} (hc : s.operands.corrupt = false) : Ready (.nop v) s := by
  simp [Ready, hc, rowOf, CommandRow.base]

/-- NOP completes with no effect of its own (R280). -/
theorem exec_nop (v : Bool) {s : State} (hc : s.operands.corrupt = false) :
    exec (.nop v) s = .next (s.completeOk s.operands {}) :=
  ready_exec_ok (nop_ready v hc) ((nopBody_eq_ok (P := s.operands) (s := s)).2 rfl)

/-- Settles O28: NOP is the success without effects, and STATUS and IRQ are those of any success. -/
theorem nopOnlyCompletes : Obligations.NopOnlyCompletes := by
  intro v s hc
  obtain ⟨hcompleted, hresultLen, hregisters⟩ := completeOk_succeeded s.operands {} s
  exact ⟨_, exec_nop v hc, ⟨hcompleted, hresultLen, hregisters⟩, statusWord_of_completed_ok hcompleted,
    irq_of_completed hcompleted, ⟨rfl, rfl, rfl⟩, rfl, completeOk_sameBuffer rfl _ s⟩

/-! ### The illegal command word -/

/-- An illegal word uses no range, so its completion, if not corrupted, is IllegalCommandError (R285). -/
theorem execIllegal_of_not_corrupt {s : State} (hc : s.operands.corrupt = false) :
    execIllegal s = .next (s.completeError CommandRow.illegal s.operands .illegalCommand) := by
  have hchecks : commonChecks CommandRow.illegal s.operands s.params.bufSize = .ok () :=
    commonChecks_eq_ok.2 ⟨nofun, nofun, nofun⟩
  rw [execIllegal_eq_next, completion_error hc (commandResult_of_checks hchecks)]

/-- The state after the issue and the completion of the illegal word `w` (R103, R285). -/
def State.illegalCompleted (s : State) (w : Word) : State :=
  (s.issue w).completeError CommandRow.illegal (s.latch w) .illegalCommand

/-- The engine completes an illegal word just issued in error; nothing has corrupted its record (R285). -/
theorem step_completes_illegal {s : State} {w : Word} {rest : List Event} {e : DecodeError}
    (hd : decode w = .error e) :
    step ((s.after (.engine :: rest)).issue w) = .next ((s.after rest).illegalCompleted w) := by
  have hengine := engineStep_illegal (State.issue_pending w (s.after rest)) hd
  exact hengine.trans (execIllegal_of_not_corrupt rfl)

/-- Settles O4: the write issues the word whatever it is, the decoder refuses it, and an error completion of
a command without a destination keeps all that the issue kept. -/
theorem illegalWordCompletesInError : Obligations.IllegalWordCompletesInError := by
  intro s w rest h hr hidle hillegal
  obtain ⟨e, hd⟩ := decode_eq_error.2 hillegal
  obtain ⟨hissue, -⟩ := cmdWriteIssuesWhileIdle.1 s w (.engine :: rest) h hr
  have hstep : step s = .next ((s.after (.engine :: rest)).issue w) := hissue hidle
  obtain ⟨hcompleted, htables, hregisters⟩ :=
    completeError_keeps CommandRow.illegal (s.latch w) .illegalCommand ((s.after rest).issue w)
  exact ⟨_, (s.after rest).illegalCompleted w, hstep, rfl, step_completes_illegal hd, hcompleted, rfl,
    htables, rfl, rfl, completeError_sameBuffer rfl _ _ ((s.after rest).issue w), hregisters⟩

end Sys2Proof.Machine
end

section
/-!
SUPPORT. The error codes (R300) and the completion interrupt (R310): every completion sets DONE and keeps IE, so
IRQ is IE until DONE is cleared.
-/

namespace Sys2Proof.Machine

/-! ### Error codes -/

/-- The thirteen error kinds in the order of R300. -/
def allErrors : List CmdError :=
  [.emptyContent, .emptyInput, .truncatedHeader, .inconsistentLength, .truncatedPayload, .malformedTree,
    .illegalCommand, .bounds, .overlap, .capacity, .symbolNotInTable, .invalidBit, .invalidCode]

theorem mem_allErrors (e : CmdError) : e ∈ allErrors := by
  cases e <;> decide

/-- No two error kinds have one code (R300). -/
theorem errorCode_injective : Function.Injective errorCode := by
  have hlist : ∀ e ∈ allErrors, ∀ f ∈ allErrors, errorCode e = errorCode f → e = f := by decide
  exact fun e f => hlist e (mem_allErrors e) f (mem_allErrors f)

theorem errcodeWord_of_none {s : State} (h : s.errcode = none) : s.errcodeWord = 0 := by
  rw [State.errcodeWord, h]

theorem errcodeWord_of_some {s : State} {e : CmdError} (h : s.errcode = some e) :
    s.errcodeWord = (errorCode e).zeroExtend 32 := by
  rw [State.errcodeWord, h]

/-- Settles O13: the word is the code with zeros above it, and the codes are those of the table. -/
theorem errorCodesOfTheTable : Obligations.ErrorCodesOfTheTable := by
  refine ⟨fun s => errcodeWord_of_none, fun s e h => ?_, fun e f h => errorCode_injective h⟩
  rw [errcodeWord_of_some h]
  cases e <;> rfl

/-! ### The interrupt -/

/-- Every completion is a `Completed` state of whatever it reports (R302 to R304). -/
theorem completion_completed (row : CommandRow) (body : Body) (s : State) :
    Completed (completion row body s).errcode (completion row body s) := by
  obtain ⟨hpending, hdone⟩ := completion_idle row body s
  exact ⟨by simp [State.busy, hpending], hdone, rfl⟩

/-- A completion leaves CTRL.IE alone, so IRQ after it is IE before it (R310). -/
theorem completion_irq (row : CommandRow) (body : Body) (s : State) :
    (completion row body s).irq = s.ie := by
  obtain ⟨-, hie, -⟩ := completion_sameRegisters row body s
  exact (irq_of_completed (completion_completed row body s)).trans hie

/-- The engine of a busy core completes what runs, a command or an illegal word (R81, R285). -/
theorem engineStep_of_busy {s : State} (h : s.busy = true) :
    ∃ row body, engineStep s = .next (completion row body s) := by
  rcases engineStep_cases s with ⟨hidle, -⟩ | ⟨P, i, -, -, hstep⟩ | ⟨P, e, -, -, hstep⟩
  · simp [State.busy, hidle] at h
  · exact ⟨_, _, hstep⟩
  · exact ⟨_, _, hstep⟩

theorem irq_of_not_done {s : State} (h : s.done = false) : s.irq = false := by
  rw [State.irq_eq, h, Bool.and_false]

/-- The asserted reset input takes the reset values (R340). -/
theorem step_asserts_reset {s : State} {rest : List Event}
    (h : s.inputs = .resetInput s.params.resetActiveLevel :: rest) :
    step s = .next ((s.after rest).takeReset true) := by
  rw [step_cons h]
  exact congrArg Host.Outcome.next (if_pos rfl)

/-- Settles O22: each completion is `completion_irq`; the STATUS write, the issue and the reset leave DONE
clear. -/
theorem interruptPendsFromCompletionToAcknowledge :
    Obligations.InterruptPendsFromCompletionToAcknowledge := by
  refine ⟨fun i s => ?_, fun s hbusy => ?_, fun s v rest h hr hv => ?_, fun s w rest h hr hidle => ?_,
    fun s rest h => ?_, fun s hie => ?_⟩
  · exact ⟨_, exec_eq_next i s, (completion_idle _ _ s).2, completion_irq _ _ s⟩
  · obtain ⟨row, body, hstep⟩ := engineStep_of_busy hbusy
    obtain ⟨hnotBusy, hdone, -⟩ := completion_completed row body s
    exact ⟨_, hstep, hnotBusy, hdone, completion_irq row body s⟩
  · exact ⟨_, statusReadsFlagsAndClearsDone.2 s v rest h hr, irq_of_not_done (if_pos hv)⟩
  · obtain ⟨hissue, -⟩ := cmdWriteIssuesWhileIdle.1 s w rest h hr
    exact ⟨_, hissue hidle, irq_of_not_done rfl⟩
  · exact ⟨_, step_asserts_reset h, irq_of_not_done rfl⟩
  · rw [State.irq_eq, hie, Bool.false_and]

end Sys2Proof.Machine
end

section
/-!
SUPPORT. The errors of a command that is not corrupted: which it reports (R308), that the common checks come
first (R306), and what its error completion keeps (R303).
-/

namespace Sys2Proof.Machine

/-! ### The error matrix -/

/-- A command that is not corrupted and reports an error completes with the first error it raised (R303,
R305). -/
theorem exec_failure {i : Instr} {s t : State} {e : CmdError} (hc : s.operands.corrupt = false)
    (ht : exec i s = .next t) (herr : t.errcode = some e) :
    commandResult (rowOf i) (bodyOf i) s = .error e
      ∧ t = s.completeError (rowOf i) s.operands e := by
  rw [exec_eq_next] at ht
  cases ht
  rcases completion_cases (rowOf i) (bodyOf i) s with ⟨hcorrupt, -⟩ | ⟨e', -, he, h⟩ | ⟨fx, -, -, h⟩
  · simp [hc] at hcorrupt
  · obtain rfl : e' = e := by simpa [h] using herr
    exact ⟨he, h⟩
  · simp [h] at herr

/-- An error comes from the common checks or, behind them, from the command's own pseudocode (R306). -/
theorem commandResult_eq_error {row : CommandRow} {body : Body} {s : State} {e : CmdError} :
    commandResult row body s = .error e ↔
      commonChecks row s.operands s.params.bufSize = .error e
      ∨ commonChecks row s.operands s.params.bufSize = .ok () ∧ body s.operands s = .error e := by
  unfold commandResult
  cases commonChecks row s.operands s.params.bufSize <;> simp

/-- The commands that can report BoundsError are those that use a range (R104, R308). -/
theorem bounds_mem_errorsOf_iff (i : Instr) :
    .bounds ∈ errorsOf i ↔ (rowOf i).readsSrc = true ∨ (rowOf i).writesDst = true := by
  cases i <;> simp [errorsOf, rowOf, CommandRow.base]

/-- The commands that can report OverlapError are those that use both ranges (R104, R308). -/
theorem overlap_mem_errorsOf_iff (i : Instr) :
    .overlap ∈ errorsOf i ↔ (rowOf i).readsSrc = true ∧ (rowOf i).writesDst = true := by
  cases i <;> simp [errorsOf, rowOf, CommandRow.base]

/-- CENC counts, builds and encodes every non-empty source but for the bit count, so these steps raise
neither EmptyInputError nor SymbolNotInTableError (R250, R308). -/
theorem cencBody_error {P : Pending} {s : State} {e : CmdError} (h : cencBody P s = .error e) :
    e = .emptyContent ∨ e = .capacity := by
  by_cases hlen : P.srcLen.toNat = 0
  · rw [cencBody, if_pos hlen] at h
    cases h
    exact .inl rfl
  · have hsrc : (s.sourceBytes P).length = P.srcLen.toNat := State.memRead_length s _ _
    obtain ⟨F, T, hF, -, hT, -, -, -, -, hbits⟩ := cencEncodesEverySource (s.sourceBytes P)
      (List.ne_nil_of_length_pos (by omega)) (hsrc ▸ P.srcLen.isLt)
    rw [cencBody_of_buildTree hlen hF hT] at h
    refine .inr ?_
    rcases except_bind_eq_error.1 h with hraise | ⟨bits, -, hfit⟩
    · rcases hbits with ⟨bits, hbits⟩ | hcount
      · cases hbits.symm.trans hraise
      · cases hcount.symm.trans hraise
        rfl
    · exact fitOutput_error hfit

/-- The errors of a command's own pseudocode are those of its row of the matrix (R308). -/
theorem bodyOf_error_mem {i : Instr} {P : Pending} {s : State} {e : CmdError}
    (h : bodyOf i P s = .error e) : e ∈ errorsOf i := by
  rcases bodyOf_error h with hmem | ⟨⟨v, rfl⟩, -⟩
  · exact hmem
  · rcases cencBody_error h with rfl | rfl <;> simp [errorsOf]

/-- Settles O57: the common checks raise the range errors of the command's row, and its own pseudocode the
others. -/
theorem commandsReportOnlyTheirErrors : Obligations.CommandsReportOnlyTheirErrors := by
  intro i s t e hc ht herr
  obtain ⟨hresult, -⟩ := exec_failure hc ht herr
  rcases commandResult_eq_error.1 hresult with hchecks | ⟨-, hbody⟩
  · rcases commonChecks_error hchecks with ⟨rfl, hrange⟩ | ⟨rfl, hranges⟩
    · exact (bounds_mem_errorsOf_iff i).2 hrange
    · exact (overlap_mem_errorsOf_iff i).2 hranges
  · exact bodyOf_error_mem hbody

/-! ### What an error completion keeps -/

/-- An error completion leaves every byte outside the destination range as it was (R303). -/
theorem completeError_outside (row : CommandRow) (P : Pending) (e : CmdError) (s : State) {a : Nat}
    (ha : P.dst.contains a = false) : (s.completeError row P e).readByte a = s.readByte a := by
  refine State.readByte_congr ?_ (State.completeError_memDraw row P e s)
  rw [State.completeError_mem]
  split
  · exact Memory.lookup_scramble_outside _ _ ha
  · rfl

/-- An error of the common checks leaves the buffer as it was (R303). -/
theorem completeError_sameBuffer_of_keepsBuffer {e : CmdError} (he : keepsBuffer e = true)
    (row : CommandRow) (P : Pending) (s : State) : SameBuffer s (s.completeError row P e) :=
  fun _ => State.readByte_congr (by simp [he]) (State.completeError_memDraw row P e s)

theorem Range.contains_eq_false_iff {r : Range} {a : Nat} :
    r.contains a = false ↔ a < r.addr ∨ r.addr + r.len ≤ a := by
  simp only [Range.contains, Bool.and_eq_false_iff, decide_eq_false_iff_not, not_le, not_lt]

/-- Settles O55: the completion is `State.completeError`, which scrambles the destination range at most. -/
theorem errorCompletionIsPrecise : Obligations.ErrorCompletionIsPrecise := by
  intro i s t e hc ht herr
  obtain ⟨-, rfl⟩ := exec_failure hc ht herr
  obtain ⟨hcompleted, htables, hregisters⟩ := completeError_keeps (rowOf i) s.operands e s
  refine ⟨hcompleted, htables, rfl, rfl, hregisters,
    fun a ha => completeError_outside _ _ e s (Range.contains_eq_false_iff.2 ha), ?_⟩
  rintro (rfl | rfl | hrow)
  · exact completeError_sameBuffer_of_keepsBuffer rfl _ _ s
  · exact completeError_sameBuffer_of_keepsBuffer rfl _ _ s
  · exact completeError_sameBuffer hrow _ e s

/-! ### The common checks -/

theorem readsSrc_iff_opcode (i : Instr) : (rowOf i).readsSrc = true ↔
    i.opcode ∈ [0x01, 0x05, 0x06, 0x07, 0x08, 0x09, 0x0A, 0x0B] := by
  cases i <;> simp [rowOf, CommandRow.base, Instr.opcode]

theorem writesDst_iff_opcode (i : Instr) : (rowOf i).writesDst = true ↔
    i.opcode ∈ [0x04, 0x06, 0x07, 0x08, 0x09, 0x0A, 0x0B] := by
  cases i <;> simp [rowOf, CommandRow.base, Instr.opcode]

theorem fits_eq_false_iff {r : Range} {size : Nat} : r.fits size = false ↔ size < r.addr + r.len := by
  simp [Range.fits]

/-- A range that is used and does not fit is BoundsError, whatever the other range (R306). -/
theorem commonChecks_eq_bounds {row : CommandRow} {P : Pending} {size : Nat}
    (h : row.readsSrc = true ∧ size < P.src.addr + P.src.len
      ∨ row.writesDst = true ∧ size < P.dst.addr + P.dst.len) :
    commonChecks row P size = .error .bounds := by
  simp only [← fits_eq_false_iff] at h
  unfold commonChecks
  split
  · rfl
  · next hsrc =>
    rcases h with ⟨hreads, hfits⟩ | ⟨hwrites, hfits⟩
    · simp [hreads, hfits] at hsrc
    · simp [hwrites, hfits]

/-- Two ranges that are used, fit and overlap are OverlapError (R86, R306). -/
theorem commonChecks_eq_overlap {row : CommandRow} {P : Pending} {size : Nat}
    (hreads : row.readsSrc = true) (hwrites : row.writesDst = true)
    (hsrc : P.src.addr + P.src.len ≤ size) (hdst : P.dst.addr + P.dst.len ≤ size)
    (h : P.src.overlaps P.dst = true) : commonChecks row P size = .error .overlap := by
  simp [commonChecks, Range.fits, hreads, hwrites, hsrc, hdst, h]

/-- An error of the common checks completes the command and changes nothing else (R303, R306). -/
theorem exec_of_commonChecks_error {i : Instr} {s : State} {e : CmdError}
    (hc : s.operands.corrupt = false)
    (h : commonChecks (rowOf i) s.operands s.params.bufSize = .error e) :
    ∃ t, exec i s = .next t ∧ Completed (some e) t ∧ SameTables s t ∧ t.bitlen = s.bitlen
      ∧ t.resultLen = s.resultLen ∧ SameBuffer s t ∧ SameRegisters s t := by
  have hkeeps : keepsBuffer e = true := by
    rcases commonChecks_error h with ⟨rfl, -⟩ | ⟨rfl, -⟩ <;> rfl
  obtain ⟨hcompleted, htables, hregisters⟩ := completeError_keeps (rowOf i) s.operands e s
  refine ⟨s.completeError (rowOf i) s.operands e, ?_, hcompleted, htables, rfl, rfl,
    completeError_sameBuffer_of_keepsBuffer hkeeps _ _ s, hregisters⟩
  rw [exec_eq_next, completion_error hc (commandResult_eq_error.2 (.inl h))]

/-- NOP, TBUILD and CGEN have neither range error in their rows of the matrix (R308). -/
theorem rangeErrors_not_mem_errorsOf {i : Instr} (h : i.opcode ∈ [0x00, 0x02, 0x03]) :
    .bounds ∉ errorsOf i ∧ .overlap ∉ errorsOf i := by
  cases i with
  | nop | tbuild | cgen => simp [errorsOf]
  | _ => simp [Instr.opcode] at h

/-- Settles O54: a command without ranges has no range error in the matrix; for the others the checks decide
by the opcode map's ranges. -/
theorem commonChecksComeFirst : Obligations.CommonChecksComeFirst := by
  refine fun i s hc => ⟨fun hop t ht => ?_, fun hrange => ?_, fun hop hsrc hdst hsrcLen hdstLen hlo hhi => ?_⟩
  · obtain ⟨hbounds, hoverlap⟩ := rangeErrors_not_mem_errorsOf hop
    exact ⟨fun herr => hbounds (commandsReportOnlyTheirErrors i s t _ hc ht herr),
      fun herr => hoverlap (commandsReportOnlyTheirErrors i s t _ hc ht herr)⟩
  · rw [← readsSrc_iff_opcode, ← writesDst_iff_opcode] at hrange
    exact exec_of_commonChecks_error hc (commonChecks_eq_bounds hrange)
  · have hreads := (readsSrc_iff_opcode i).2 (List.mem_cons_of_mem _ (List.mem_cons_of_mem _ hop))
    have hwrites := (writesDst_iff_opcode i).2 (List.mem_cons_of_mem _ hop)
    have hoverlaps : s.operands.src.overlaps s.operands.dst = true := by
      simp [Range.overlaps, hsrcLen, hdstLen, hlo, hhi]
    exact exec_of_commonChecks_error hc (commonChecks_eq_overlap hreads hwrites hsrc hdst hoverlaps)

end Sys2Proof.Machine
end

section
/-!
SUPPORT. Successful and corrupted completions stay within the command's row of the opcode map (R302, R304).
-/

namespace Sys2Proof.Machine

/-! ### A success and its row -/

/-- The effects replace exactly the tables and registers the row lists (R104). -/
structure Effects.FillsRow (row : CommandRow) (fx : Effects) : Prop where
  freq : fx.freq.isSome = row.writesFreq
  arena : fx.arena.isSome = row.writesArena
  code : fx.code.isSome = row.writesCode
  bitlen : fx.bitlen.isSome = row.writesBitlen

/-- A command that succeeds replaces what its row lists and nothing else (R104, R302). -/
theorem bodyOf_fillsRow {i : Instr} {P : Pending} {s : State} {fx : Effects}
    (h : bodyOf i P s = .ok fx) : fx.FillsRow (rowOf i) := by
  cases i with
  | nop => obtain rfl := (nopBody_eq_ok (P := P) (s := s)).1 h; exact ⟨rfl, rfl, rfl, rfl⟩
  | fcount => obtain ⟨F, -, rfl⟩ := fcountBody_eq_ok.1 h; exact ⟨rfl, rfl, rfl, rfl⟩
  | tbuild => obtain ⟨T, -, rfl⟩ := (tbuildBody_eq_ok (P := P)).1 h; exact ⟨rfl, rfl, rfl, rfl⟩
  | cgen => obtain rfl := (cgenBody_eq_ok (P := P)).1 h; exact ⟨rfl, rfl, rfl, rfl⟩
  | tser => obtain ⟨-, rfl⟩ := tserBody_eq_ok.1 h; exact ⟨rfl, rfl, rfl, rfl⟩
  | tdes => obtain ⟨T, -, rfl⟩ := tdesBody_eq_ok.1 h; exact ⟨rfl, rfl, rfl, rfl⟩
  | benc => obtain ⟨bits, -, -, rfl⟩ := bencBody_eq_ok.1 h; exact ⟨rfl, rfl, rfl, rfl⟩
  | bdec => obtain ⟨out, -, -, rfl⟩ := bdecBody_eq_ok.1 h; exact ⟨rfl, rfl, rfl, rfl⟩
  | bpack => obtain ⟨bits, -, -, rfl⟩ := bpackBody_eq_ok.1 h; exact ⟨rfl, rfl, rfl, rfl⟩
  | bunpack => obtain ⟨bits, -, -, rfl⟩ := bunpackBody_eq_ok.1 h; exact ⟨rfl, rfl, rfl, rfl⟩
  | cenc =>
    obtain ⟨-, F, -, T, -, bits, -, -, rfl⟩ := cencBody_eq_ok.1 h
    exact ⟨rfl, rfl, rfl, rfl⟩
  | cdec => obtain ⟨T, B, out, -, -, rfl⟩ := cdecBody_eq_ok.1 h; exact ⟨rfl, rfl, rfl, rfl⟩

/-- An effect the row does not list leaves the old value. -/
theorem getD_of_not_listed {α : Type} {new : Option α} {listed : Bool} (h : new.isSome = listed)
    (hlisted : listed = false) (old : α) : new.getD old = old := by
  obtain rfl : new = none := by simpa [hlisted] using h
  rfl

/-- RESULT_LEN of a success is the number of bytes written, which 32 bits hold (R44). -/
theorem resultLen_toNat_of_ok {i : Instr} {P : Pending} {s : State} {fx : Effects}
    (h : bodyOf i P s = .ok fx) : (s.completeOk P fx).resultLen.toNat = fx.out.length := by
  rw [← memRead_output h, State.memRead_length]

/-- A command that writes no destination has no output (R104). -/
theorem out_eq_nil_of_ok {i : Instr} {P : Pending} {s : State} {fx : Effects}
    (h : bodyOf i P s = .ok fx) (hrow : (rowOf i).writesDst = false) : fx.out = [] := by
  rcases bodyOf_output h with hnil | ⟨hwrites, -⟩
  · exact hnil
  · simp [hrow] at hwrites

/-- The output of a success fits DST_CAP (R87). -/
theorem out_length_le_of_ok {i : Instr} {P : Pending} {s : State} {fx : Effects}
    (h : bodyOf i P s = .ok fx) : fx.out.length ≤ P.dst.len := by
  rcases bodyOf_output h with hnil | ⟨-, hfit⟩
  · simp [hnil]
  · exact hfit

/-- Settles O56: the effects of a success fill the command's row, and its output is the RESULT_LEN bytes from
DST_ADDR on. -/
theorem successWritesOnlyItsRow : Obligations.SuccessWritesOnlyItsRow := by
  intro i s t hc ht herr
  obtain ⟨fx, hfx, rfl⟩ := exec_success hc ht herr
  obtain ⟨hcompleted, -, hregisters⟩ := completeOk_succeeded s.operands fx s
  obtain ⟨hfreq, harena, hcode, hbitlen⟩ := bodyOf_fillsRow hfx
  obtain ⟨-, hframe⟩ := completeOk_wroteBytes s.operands fx s
  have hresult := resultLen_toNat_of_ok hfx
  refine ⟨hcompleted, hregisters, fun h => getD_of_not_listed hfreq h _,
    fun h => getD_of_not_listed harena h _, fun h => getD_of_not_listed hcode h _,
    fun h => getD_of_not_listed hbitlen h _, fun hrow => ?_, fun _ => ?_, fun a ha => ?_⟩
  · have hout := out_eq_nil_of_ok hfx hrow
    exact ⟨by simp [hout], completeOk_sameBuffer hout _ s⟩
  · exact hresult.trans_le (out_length_le_of_ok hfx)
  · exact hframe a (hresult ▸ ha)

/-! ### A corrupted completion and its row -/

/-- What the clip leaves of a range lies in it. -/
theorem Range.contains_clip_eq_false {r : Range} {a : Nat} (size : Nat) (h : r.contains a = false) :
    (r.clip size).contains a = false := by
  rw [Range.contains_eq_false_iff] at h ⊢
  simp only [Range.clip]
  omega

/-- A corrupted completion leaves every byte outside the destination range as it was (R304). -/
theorem completeCorrupt_outside (row : CommandRow) (P : Pending) (s : State) {a : Nat}
    (ha : P.dst.contains a = false) : (s.completeCorrupt row P).readByte a = s.readByte a := by
  refine State.readByte_congr ?_ (State.completeCorrupt_memDraw row P s)
  rw [State.completeCorrupt_mem]
  split
  · exact Memory.lookup_scramble_outside _ _ (Range.contains_clip_eq_false _ ha)
  · rfl

/-- A corrupted completion without a destination leaves the buffer as it was (R304). -/
theorem completeCorrupt_sameBuffer {row : CommandRow} (hrow : row.writesDst = false) (P : Pending)
    (s : State) : SameBuffer s (s.completeCorrupt row P) :=
  fun _ => State.readByte_congr (by simp [hrow]) (State.completeCorrupt_memDraw row P s)

theorem completeCorrupt_sameRegisters (row : CommandRow) (P : Pending) (s : State) :
    SameRegisters s (s.completeCorrupt row P) := by
  simp [SameRegisters]

/-- The ARENA of a corrupted completion that writes it is cut to NODE_CAP (R53, R304). -/
theorem completeCorrupt_arena_nodeCount_le {row : CommandRow} (hrow : row.writesArena = true)
    (P : Pending) (s : State) :
    Arena.nodeCount (s.completeCorrupt row P).arena ≤ s.params.nodeCap := by
  rw [State.completeCorrupt_arena, if_pos hrow]
  exact nodeCount_boundArena_le _ _

/-- Settles O58: each output of `State.completeCorrupt` asks the row, and the row of an illegal word lists
nothing. -/
theorem corruptedCompletionIsConfined : Obligations.CorruptedCompletionIsConfined := by
  refine ⟨fun i s hc => ?_, fun s P e hP hc hd => ?_⟩
  · refine ⟨s.completeCorrupt (rowOf i) s.operands, ?_, rfl, rfl, completeCorrupt_sameRegisters _ _ s,
      fun h => ?_, fun h => ?_, fun h => completeCorrupt_arena_nodeCount_le h _ s, fun h => ?_, fun h => ?_,
      fun h => completeCorrupt_sameBuffer h _ s,
      fun a ha => completeCorrupt_outside _ _ s (Range.contains_eq_false_iff.2 ha)⟩
    · rw [exec_eq_next, completion_corrupt hc]
    all_goals simp [h]
  · have hoperands := s.operands_of_pending P hP
    refine ⟨s.completeCorrupt CommandRow.illegal P, ?_, rfl, rfl, completeCorrupt_sameRegisters _ _ s,
      ⟨rfl, rfl, rfl⟩, rfl, rfl, completeCorrupt_sameBuffer rfl _ s⟩
    rw [engineStep_illegal hP hd, execIllegal_eq_next, completion_corrupt (hoperands ▸ hc), hoperands]

end Sys2Proof.Machine
end

section
/-!
SUPPORT. Reset (R340, R342): what an asserted reset input does to the core, and what the component commands
find in the reset tables.
-/

namespace Sys2Proof.Machine

/-! ### The reset input -/

/-- The core takes the reset values, with the input asserted or at its release (R340). -/
theorem takeReset_atResetValues (asserted : Bool) (s : State) : (s.takeReset asserted).atResetValues := by
  simp [State.atResetValues]

/-- At the release of the reset input the core takes the reset values and runs from there (R340). -/
theorem step_releases_reset {s : State} {rest : List Event} (hr : s.inReset = true)
    (h : s.inputs = .resetInput (!s.params.resetActiveLevel) :: rest) :
    step s = .next ((s.after rest).takeReset false) := by
  rw [step_cons h]
  exact congrArg Host.Outcome.next ((if_neg (Bool.not_ne_self _)).trans (if_pos hr))

/-- While the reset input is asserted a write in the window changes nothing (R340). -/
theorem hostAccess_write_inReset {s : State} (hr : s.inReset = true) (w : Width) {offset : Nat} (v : Word)
    (hwindow : offset < s.params.bufOffset + s.params.bufSize) :
    hostAccess (.write w offset v) s = .next s := by
  cases hregion : regionOf s.params offset with
  | outside => exact absurd hregion (regionOf_ne_outside hwindow)
  | register => simp [hostAccess, hregion, State.registerWrite, hr]
  | gap => simp [hostAccess, hregion]
  | buffer a => simp [hostAccess, hregion, State.bufferWrite, hr]

/-- Settles O24: assertion and release take the reset values, and both write paths ask the reset input. -/
theorem resetInputAbandonsCommand : Obligations.ResetInputAbandonsCommand := by
  refine ⟨fun s rest h => ?_, fun s rest hr h => ?_, fun s w offset v rest hr h hwindow => ?_⟩
  · exact ⟨_, step_asserts_reset h, rfl, takeReset_atResetValues true _, irq_of_not_done rfl, rfl, rfl⟩
  · exact ⟨_, step_releases_reset hr h, rfl, takeReset_atResetValues false _, rfl, rfl⟩
  · rw [step_host h]
    exact hostAccess_write_inReset (s := s.after rest) hr w v hwindow

/-! ### The component commands on the reset tables -/

/-- Settles O27: each clause is the command's own statement at an all-zero FREQ, an all-invalid CODE or the
null tree. -/
theorem componentCommandsAfterReset : Obligations.ComponentCommandsAfterReset := by
  intro v s hfreq hcode harena
  refine ⟨fun hready => ?_, fun hready => ?_, fun hready => ?_, fun hready hsrc => ?_,
    fun hready hpos hle => ?_⟩
  · obtain ⟨t, hexec, hcompleted, -⟩ := tbuildOfEmptyTableFails v s hready.1 hfreq
    exact ⟨t, hexec, hcompleted⟩
  · obtain ⟨t, hexec, ⟨hcompleted, -⟩, -, -, -, -, hcodes⟩ := cgenWritesLeafPaths v s hready.1
    exact ⟨t, hexec, hcompleted, by simpa only [harena] using hcodes⟩
  · obtain ⟨hserialized, -⟩ := tserWritesSerializedTree v s hready
    rw [harena] at hserialized
    obtain ⟨t, hexec, hsucceeded, hwrote, -⟩ := hserialized (Nat.zero_le _)
    exact ⟨t, hexec, hsucceeded, wroteBytes_nil hwrote⟩
  · obtain ⟨-, hinvalid⟩ := bencPacksCodesOfSource v s hready
    obtain ⟨b, hb⟩ := List.exists_mem_of_length_pos ((src_length s).symm ▸ hsrc)
    exact hinvalid ⟨b, hb, hcode b⟩
  · obtain ⟨-, hdecodes⟩ := bdecWritesDecodedBytes v s hready
    rw [← src_length s] at hle
    obtain ⟨-, hraises⟩ := hdecodes _ (unpack_eq_ok_of_le hle)
    refine hraises _ ?_
    rw [harena]
    exact if_pos (by simpa using hpos)

end Sys2Proof.Machine
end

section
/-!
SUPPORT. Every issued command completes (R362): no host access in the window stops the machine or the running
command, and when the accesses are done the engine completes it.
-/

namespace Sys2Proof.Machine

/-- A register write leaves a running command running: it could only touch the record of an idle core (R60). -/
theorem writeReg_keeps_busy {s : State} (hbusy : s.busy = true) (r : Reg) (v : Word) :
    (s.writeReg r v).busy = true ∧ (s.writeReg r v).inputs = s.inputs := by
  rcases writeReg_cases r v s with e | e | e | ⟨hidle, -⟩
  · rw [e]; exact ⟨hbusy, rfl⟩
  · rw [e]; exact ⟨hbusy, rfl⟩
  · rw [e]; exact ⟨hbusy, rfl⟩
  · simp [State.busy, hidle] at hbusy

/-- A buffer write corrupts a running command at most (R80). -/
theorem bufferWrite_keeps_busy {s : State} (hbusy : s.busy = true) (w : Width) (a : Nat) (v : Word) :
    (s.bufferWrite w a v).busy = true ∧ (s.bufferWrite w a v).inputs = s.inputs := by
  unfold State.bufferWrite
  split
  · exact ⟨hbusy, rfl⟩
  · exact ⟨Option.isSome_map.trans hbusy, rfl⟩

/-- An access in the window is no fault (R50, U20). -/
theorem hostAccess_ne_fault {access : HostAccess} {s : State} (h : inWindow s.params access = true)
    (r : Fault) : hostAccess access s ≠ .fault r := by
  cases access with
  | read w offset | write w offset =>
    cases hregion : regionOf s.params offset with
    | outside => exact absurd hregion (regionOf_ne_outside (of_decide_eq_true h))
    | register | gap | buffer a => simp [hostAccess, hregion]

/-- An access in the window leads to a next state in which the command still runs (R60, R80). -/
theorem step_host_keeps_busy {s : State} {access : HostAccess} {rest : List Event}
    (h : NextAccess access rest s) (hwindow : inWindow s.params access = true) (hbusy : s.busy = true) :
    ∃ u, step s = .next u ∧ u.busy = true ∧ u.inputs = rest ∧ u.params = s.params := by
  have hkeeps : ∃ u, step s = .next u ∧ u.busy = true ∧ u.inputs = rest := by
    rw [step_host h]
    rcases hostAccess_cases access (s.after rest) with
      ⟨d, e⟩ | ⟨r, v, -, e⟩ | e | ⟨w, a, v, -, -, e⟩ | e
    · exact ⟨_, e, hbusy, rfl⟩
    · exact ⟨_, e, writeReg_keeps_busy (s := s.after rest) hbusy r v⟩
    · exact ⟨_, e, hbusy, rfl⟩
    · exact ⟨_, e, bufferWrite_keeps_busy (s := s.after rest) hbusy w a v⟩
    · exact absurd e (hostAccess_ne_fault (s := s.after rest) hwindow _)
  obtain ⟨u, hstep, hrunning, hinputs⟩ := hkeeps
  obtain ⟨-, -, hparams⟩ := hostAccessLeavesTables s u access rest h hstep
  exact ⟨u, hstep, hrunning, hinputs, hparams⟩

/-- A run whose first step leads to a next state goes on from there. -/
theorem run_succ_of_step {s u : State} (h : step s = .next u) (k : Nat) :
    Host.Core.run Sys2Proof.core (k + 1) s = Host.Core.run Sys2Proof.core k u := by
  simp only [Host.Core.run, Sys2Proof.core, h]

/-- With no event left the engine's step completes the running command (R362, log entry 7). -/
theorem step_nil_completes {s : State} (hbusy : s.busy = true) (hinputs : s.inputs = []) :
    ∃ t, step s = .next t ∧ t.busy = false ∧ t.done = true ∧ t.inputs = [] := by
  obtain ⟨row, body, hengine⟩ := engineStep_of_busy hbusy
  obtain ⟨hidle, hdone, -⟩ := completion_completed row body s
  obtain ⟨-, -, -, -, -, -, -, hsame, -⟩ := completion_sameRegisters row body s
  exact ⟨_, (step_nil hinputs).trans hengine, hidle, hdone, hsame.trans hinputs⟩

/-- A busy core runs through host accesses in the window and then completes, by induction on the accesses. -/
theorem run_completes {s : State} {l : List HostAccess} (hbusy : s.busy = true)
    (hinputs : s.inputs = l.map Event.host) (hwindow : ∀ a ∈ l, inWindow s.params a = true) :
    ∃ t, Host.Core.run Sys2Proof.core (l.length + 1) s = .next t ∧ t.busy = false ∧ t.done = true
      ∧ t.inputs = [] := by
  induction l generalizing s with
  | nil =>
    obtain ⟨t, hstep, hcompleted⟩ := step_nil_completes hbusy hinputs
    exact ⟨t, run_succ_of_step hstep 0, hcompleted⟩
  | cons access l ih =>
    obtain ⟨hfirst, hrest⟩ := List.forall_mem_cons.1 hwindow
    obtain ⟨u, hstep, hrunning, hleft, hparams⟩ := step_host_keeps_busy hinputs hfirst hbusy
    obtain ⟨t, hrun, hcompleted⟩ := ih hrunning hleft (hparams ▸ hrest)
    exact ⟨t, (run_succ_of_step hstep _).trans hrun, hcompleted⟩

/-- Settles O7: a core with a record is busy, and `run_completes` runs it to its completion. -/
theorem issuedCommandCompletes : Obligations.IssuedCommandCompletes := by
  intro s P l hP hinputs hwindow
  have hbusy : s.busy = true := by rw [State.busy_eq, hP, Option.isSome_some]
  exact run_completes hbusy hinputs hwindow

end Sys2Proof.Machine
end

section
/-!
SUPPORT. The code table and the tree (R352): a completion that is not corrupted replaces CODE whenever it
replaces ARENA, and no other event changes either but the reset.
-/

namespace Sys2Proof.Machine

/-- What keeps the tables keeps their agreement. -/
theorem State.codeMatchesTree.of_sameTables {s t : State} (h : s.codeMatchesTree)
    (htables : SameTables s t) : t.codeMatchesTree := by
  obtain ⟨-, hcode, harena⟩ := htables
  rwa [State.codeMatchesTree, hcode, harena]

/-- The reset tables are the null tree and its codes (R58). -/
theorem takeReset_codeMatchesTree (asserted : Bool) (s : State) : (s.takeReset asserted).codeMatchesTree :=
  .inr rfl

theorem State.codeMatchesTree.resetLevel {s : State} (h : s.codeMatchesTree) (level : Bool) :
    (s.resetLevel level).codeMatchesTree := by
  unfold State.resetLevel
  split_ifs
  · exact takeReset_codeMatchesTree true s
  · exact takeReset_codeMatchesTree false s
  · exact h

/-- A success keeps the agreement: it replaces CODE by the codes of the tree that then stands in ARENA (CGEN,
CENC) or by the all-invalid table (TBUILD, TDES, CDEC), or it touches neither table (R352). -/
theorem State.codeMatchesTree.completeOk {i : Instr} {P : Pending} {s : State} {fx : Effects}
    (hs : s.codeMatchesTree) (h : bodyOf i P s = .ok fx) : (s.completeOk P fx).codeMatchesTree := by
  cases i with
  | nop => obtain rfl := (nopBody_eq_ok (P := P) (s := s)).1 h; exact hs
  | fcount => obtain ⟨F, -, rfl⟩ := fcountBody_eq_ok.1 h; exact hs
  | tbuild => obtain ⟨T, -, rfl⟩ := (tbuildBody_eq_ok (P := P)).1 h; exact .inr rfl
  | cgen => obtain rfl := (cgenBody_eq_ok (P := P)).1 h; exact .inl rfl
  | tser => obtain ⟨-, rfl⟩ := tserBody_eq_ok.1 h; exact hs
  | tdes => obtain ⟨T, -, rfl⟩ := tdesBody_eq_ok.1 h; exact .inr rfl
  | benc => obtain ⟨bits, -, -, rfl⟩ := bencBody_eq_ok.1 h; exact hs
  | bdec => obtain ⟨out, -, -, rfl⟩ := bdecBody_eq_ok.1 h; exact hs
  | bpack => obtain ⟨bits, -, -, rfl⟩ := bpackBody_eq_ok.1 h; exact hs
  | bunpack => obtain ⟨bits, -, -, rfl⟩ := bunpackBody_eq_ok.1 h; exact hs
  | cenc => obtain ⟨-, F, -, T, -, bits, -, -, rfl⟩ := cencBody_eq_ok.1 h; exact .inl rfl
  | cdec => obtain ⟨T, B, out, -, -, rfl⟩ := cdecBody_eq_ok.1 h; exact .inr rfl

/-- A completion that is not corrupted keeps the agreement when the pseudocode's success does; an error keeps
the tables (R303). -/
theorem State.codeMatchesTree.completion {row : CommandRow} {body : Body} {s : State}
    (hs : s.codeMatchesTree) (hc : s.operands.corrupt = false)
    (hok : ∀ fx, body s.operands s = .ok fx → (s.completeOk s.operands fx).codeMatchesTree) :
    (Machine.completion row body s).codeMatchesTree := by
  rcases completion_cases row body s with ⟨hcorrupt, -⟩ | ⟨e, -, -, h⟩ | ⟨fx, -, hresult, h⟩
  · simp [hc] at hcorrupt
  · obtain ⟨-, htables, -⟩ := completeError_keeps row s.operands e s
    exact h ▸ hs.of_sameTables htables
  · exact h ▸ hok fx (commandResult_eq_ok.1 hresult).2

theorem State.codeMatchesTree.engineStep {s t : State} (hs : s.codeMatchesTree)
    (hc : ∀ P, s.pending = some P → P.corrupt = false) (ht : Machine.engineStep s = .next t) :
    t.codeMatchesTree := by
  rcases engineStep_cases s with ⟨-, e⟩ | ⟨P, i, hP, -, e⟩ | ⟨P, _, hP, -, e⟩ <;>
    rw [e] at ht <;> cases ht
  · exact hs
  · exact hs.completion (s.operands_of_pending P hP ▸ hc P hP) fun _ => hs.completeOk
  · exact hs.completion (s.operands_of_pending P hP ▸ hc P hP) fun _ hfx => nomatch hfx

/-- Settles O59: the engine keeps the agreement, host accesses keep the tables, and the reset establishes it. -/
theorem codeTableFollowsTree : Obligations.CodeTableFollowsTree := by
  refine ⟨fun p => .inr rfl, fun s t hs hc ht => ?_⟩
  match hinputs : s.inputs with
  | [] => exact hs.engineStep hc (step_nil hinputs ▸ ht)
  | .host access :: rest =>
    obtain ⟨htables, -⟩ := hostAccessLeavesTables s t access rest hinputs ht
    exact hs.of_sameTables htables
  | .engine :: rest =>
    rw [step_cons hinputs] at ht
    exact State.codeMatchesTree.engineStep (s := s.after rest) hs hc ht
  | .resetInput level :: rest =>
    rw [step_cons hinputs] at ht
    cases ht
    exact State.codeMatchesTree.resetLevel (s := s.after rest) hs level

end Sys2Proof.Machine
end
